-- ==== Sys2Proof/Word.lean ====
section
/-! DEFINITION. The value types of the machine: words, bytes and register numbers (00_scope.md rules R7, R9). -/

namespace Sys2Proof

/-- A 32-bit pattern: a register, pc, an address, an instruction (R9). -/
abbrev Word := BitVec 32

/-- One byte of memory (R9, R50). -/
abbrev Byte := BitVec 8

/-- A register number. Every register port is 5 bits wide, so no number above 31 exists (R41, D16). -/
abbrev RegIdx := BitVec 5

/-- A line of text, or a part of one, as its list of characters (R140, R147). -/
abbrev Text := List Char

/-- A register number is below the number of registers. -/
theorem RegIdx.lt_32 (r : RegIdx) : r.toNat < 32 := r.isLt

end Sys2Proof
end

