-- ==== Sys2Proof/Config.lean ====
section
/-! DEFINITION. What is fixed for a machine and is not state: the fixed parameters (00_scope.md rule R7), the open
parameter (R8) and the free values of the text renderer (30_encoding.md rules R147, R148). -/

namespace Sys2Proof

/-- MEMSIZE: the number of bytes of memory, 2^24 (R7, R50). -/
abbrev Config.memSize : Nat := 16777216

/-- The value of pc after reset (R7, R33). -/
abbrev Config.resetPc : Word := 0#32

/-- `JALR_CLEAR_BIT0`, the one open parameter (R8, R172, D5): whether JALR clears bit 0 of its target. It has no body, so a
theorem about the machine holds for both builds, as R172 asks. Log entry 1. Safe. -/
opaque Config.jalrClearBit0 : Bool

/-- The characters written for `<value>` in a trace rendering. The source gives neither radix nor width (R148, N9, U10), so they
are free. Log entry 4. Safe. -/
opaque Config.traceValue : Word → Text

/-- The rendering of a word of a shape whose rendering the source does not show: R, B, U, loads, JALR and shift immediates
(R147, U10). The second argument is the register file when a machine reference is given. Log entry 4. Safe. -/
opaque Config.unshownRendering : Word → Option (Vector Word 32) → Text

end Sys2Proof
end

