-- ==== Sys2Proof/Syntax.lean ====
section
/-! DEFINITION. The instructions: one constructor per row of spec/opcode_table.json, with the operands of its format in the order
its encoder takes them (30_encoding.md rules R101 to R109). An immediate is kept at the width its format encodes: 12 bits (I, S),
13 bits (B, the byte offset, bit 0 zero in a well-formed instruction), 20 bits (U, the field value), 21 bits (J, the byte offset,
bit 0 zero), 5 bits (a shift amount). UNDEF is no instruction: it is what the decoder refuses. -/

namespace Sys2Proof

/-- An instruction of the machine (00_scope.md rule R3). -/
inductive Instr where
  /-- LUI, rule R160. -/
  | lui (rd : RegIdx) (imm : BitVec 20)
  /-- AUIPC, rule R161. -/
  | auipc (rd : RegIdx) (imm : BitVec 20)
  /-- JAL, rule R170. -/
  | jal (rd : RegIdx) (imm : BitVec 21)
  /-- JALR, rule R171. -/
  | jalr (rd rs1 : RegIdx) (imm : BitVec 12)
  /-- BEQ, rule R181. -/
  | beq (rs1 rs2 : RegIdx) (imm : BitVec 13)
  /-- BNE, rule R182. -/
  | bne (rs1 rs2 : RegIdx) (imm : BitVec 13)
  /-- BLT, rule R183. -/
  | blt (rs1 rs2 : RegIdx) (imm : BitVec 13)
  /-- BGE, rule R184. -/
  | bge (rs1 rs2 : RegIdx) (imm : BitVec 13)
  /-- BLTU, rule R185. -/
  | bltu (rs1 rs2 : RegIdx) (imm : BitVec 13)
  /-- BGEU, rule R186. -/
  | bgeu (rs1 rs2 : RegIdx) (imm : BitVec 13)
  /-- LB, rule R191. -/
  | lb (rd rs1 : RegIdx) (imm : BitVec 12)
  /-- LH, rule R192. -/
  | lh (rd rs1 : RegIdx) (imm : BitVec 12)
  /-- LW, rule R193. -/
  | lw (rd rs1 : RegIdx) (imm : BitVec 12)
  /-- LBU, rule R194. -/
  | lbu (rd rs1 : RegIdx) (imm : BitVec 12)
  /-- LHU, rule R195. -/
  | lhu (rd rs1 : RegIdx) (imm : BitVec 12)
  /-- SB, rule R201. -/
  | sb (rs2 rs1 : RegIdx) (imm : BitVec 12)
  /-- SH, rule R202. -/
  | sh (rs2 rs1 : RegIdx) (imm : BitVec 12)
  /-- SW, rule R203. -/
  | sw (rs2 rs1 : RegIdx) (imm : BitVec 12)
  /-- ADDI, rule R211. -/
  | addi (rd rs1 : RegIdx) (imm : BitVec 12)
  /-- SLTI, rule R212. -/
  | slti (rd rs1 : RegIdx) (imm : BitVec 12)
  /-- SLTIU, rule R213. -/
  | sltiu (rd rs1 : RegIdx) (imm : BitVec 12)
  /-- XORI, rule R214. -/
  | xori (rd rs1 : RegIdx) (imm : BitVec 12)
  /-- ORI, rule R215. -/
  | ori (rd rs1 : RegIdx) (imm : BitVec 12)
  /-- ANDI, rule R216. -/
  | andi (rd rs1 : RegIdx) (imm : BitVec 12)
  /-- SLLI, rule R217. -/
  | slli (rd rs1 : RegIdx) (shamt : BitVec 5)
  /-- SRLI, rule R218. -/
  | srli (rd rs1 : RegIdx) (shamt : BitVec 5)
  /-- SRAI, rule R219. -/
  | srai (rd rs1 : RegIdx) (shamt : BitVec 5)
  /-- ADD, rule R226. -/
  | add (rd rs1 rs2 : RegIdx)
  /-- SUB, rule R227. -/
  | sub (rd rs1 rs2 : RegIdx)
  /-- SLL, rule R228. -/
  | sll (rd rs1 rs2 : RegIdx)
  /-- SLT, rule R229. -/
  | slt (rd rs1 rs2 : RegIdx)
  /-- SLTU, rule R230. -/
  | sltu (rd rs1 rs2 : RegIdx)
  /-- XOR, rule R231. -/
  | xor (rd rs1 rs2 : RegIdx)
  /-- SRL, rule R232. -/
  | srl (rd rs1 rs2 : RegIdx)
  /-- SRA, rule R233. -/
  | sra (rd rs1 rs2 : RegIdx)
  /-- OR, rule R234. -/
  | or (rd rs1 rs2 : RegIdx)
  /-- AND, rule R235. -/
  | and (rd rs1 rs2 : RegIdx)
  /-- MUL, rule R241. -/
  | mul (rd rs1 rs2 : RegIdx)
  /-- MULH, rule R242. -/
  | mulh (rd rs1 rs2 : RegIdx)
  /-- MULHSU, rule R243. -/
  | mulhsu (rd rs1 rs2 : RegIdx)
  /-- MULHU, rule R244. -/
  | mulhu (rd rs1 rs2 : RegIdx)
  /-- DIV, rule R245. -/
  | div (rd rs1 rs2 : RegIdx)
  /-- DIVU, rule R246. -/
  | divu (rd rs1 rs2 : RegIdx)
  /-- REM, rule R247. -/
  | rem (rd rs1 rs2 : RegIdx)
  /-- REMU, rule R248. -/
  | remu (rd rs1 rs2 : RegIdx)
  /-- FENCE, rule R255. -/
  | fence (rd rs1 : RegIdx) (succ pred fm : BitVec 4)
  /-- FENCE_TSO, rule R256. -/
  | fenceTso
  /-- PAUSE, rule R257. -/
  | pause
  /-- ECALL, rule R258. -/
  | ecall
  /-- EBREAK, rule R259. -/
  | ebreak
  deriving DecidableEq, Repr

end Sys2Proof
end

