-- ==== Sys2Proof/WellFormed.lean ====
section
/-! DEFINITION. Which instructions have an encoding of their own: the operand tuples of the round-trip law
(30_encoding.md rules R92, R94, R135). -/

namespace Sys2Proof

/-- FENCE operands whose word is the whole word of FENCE_TSO or of PAUSE (R133, R135): `fence 0 0 3 3 8` and
`fence 0 0 0 1 0`. -/
def fenceIsFixedWord (rd rs1 : RegIdx) (succ pred fm : BitVec 4) : Bool :=
  rd == 0#5 && rs1 == 0#5 &&
    ((succ == 3#4 && pred == 3#4 && fm == 8#4) || (succ == 0#4 && pred == 1#4 && fm == 0#4))

/-- A well-formed instruction: a branch or JAL offset has bit 0 zero ("with bit 0 implicitly zero", R92, R94), and a FENCE is
neither of the two words that are FENCE_TSO and PAUSE (R135). -/
def Instr.wellFormed : Instr → Bool
  | .jal _ imm => !imm.getLsbD 0
  | .beq _ _ imm | .bne _ _ imm | .blt _ _ imm | .bge _ _ imm | .bltu _ _ imm | .bgeu _ _ imm => !imm.getLsbD 0
  | .fence rd rs1 succ pred fm => !fenceIsFixedWord rd rs1 succ pred fm
  | .lui .. | .auipc .. | .jalr .. | .lb .. | .lh .. | .lw .. | .lbu .. | .lhu .. | .sb .. | .sh .. | .sw ..
  | .addi .. | .slti .. | .sltiu .. | .xori .. | .ori .. | .andi .. | .slli .. | .srli .. | .srai ..
  | .add .. | .sub .. | .sll .. | .slt .. | .sltu .. | .xor .. | .srl .. | .sra .. | .or .. | .and ..
  | .mul .. | .mulh .. | .mulhsu .. | .mulhu .. | .div .. | .divu .. | .rem .. | .remu ..
  | .fenceTso | .pause | .ecall | .ebreak => true

end Sys2Proof
end

