-- ==== Sys2Proof/Machine/Codec.lean ====
section
/-! DEFINITION. The bit-field codec, the field and immediate getters and setters, the encoders, and the constants each encoder
closes over (30_encoding.md rules R80 to R112). -/

namespace Sys2Proof

/-! ### The three pure functions (R80 to R82) -/

/-- `get_slice(word, mask, offset) = (word & mask) >> offset`, a logical shift (R80). -/
def getSlice (word mask : Word) (offset : Nat) : Word := (word &&& mask) >>> offset

/-- `set_slice(word, value, mask, offset) = (word & ~mask) | ((value << offset) & mask)` (R81). -/
def setSlice (word value mask : Word) (offset : Nat) : Word := (word &&& ~~~mask) ||| ((value <<< offset) &&& mask)

/-- `sext_N(v)`: the low N bits of v, and copies of bit N-1 above them (00_scope.md rule R10). -/
def sext (n : Nat) (v : Word) : Word := (v.setWidth n).signExtend 32

/-- `zext_N(v)`: the low N bits of v, and zeros above them (R10). -/
def zext (n : Nat) (v : Word) : Word := (v.setWidth n).setWidth 32

/-- `sign_extend(x, bit)`, which treats bit `bit` as the sign bit: `sext_(bit+1)(x)` (R82, R11, D25). -/
def signExtendAt (x : Word) (bit : Nat) : Word := sext (bit + 1) x

/-! ### The slices (R83) -/

/-- A slice: "a `(mask, offset)` pair describing a contiguous run of bits" (R83). -/
structure Slice where
  mask : Word
  offset : Nat
  deriving DecidableEq, Repr

/-- The value a slice of a word holds. -/
def Slice.get (sl : Slice) (w : Word) : Word := getSlice w sl.mask sl.offset

/-- The word with a slice of it set. -/
def Slice.set (sl : Slice) (w v : Word) : Word := setSlice w v sl.mask sl.offset

/-- opcode, word bits 6:0 (R83). -/
def sliceOpcode : Slice := ⟨0x0000007F#32, 0⟩

/-- rd, word bits 11:7 (R83). -/
def sliceRd : Slice := ⟨0x00000F80#32, 7⟩

/-- funct3, word bits 14:12 (R83). -/
def sliceFunct3 : Slice := ⟨0x00007000#32, 12⟩

/-- rs1, word bits 19:15 (R83). -/
def sliceRs1 : Slice := ⟨0x000F8000#32, 15⟩

/-- rs2, or the shift amount, word bits 24:20 (R83). -/
def sliceRs2 : Slice := ⟨0x01F00000#32, 20⟩

/-- funct7, word bits 31:25 (R83). -/
def sliceFunct7 : Slice := ⟨0xFE000000#32, 25⟩

/-- immI[11:0], word bits 31:20 (R83). -/
def sliceIImm : Slice := ⟨0xFFF00000#32, 20⟩

/-- immS[4:0], word bits 11:7 (R83). -/
def sliceSImmLo : Slice := ⟨0x00000F80#32, 7⟩

/-- immS[11:5], word bits 31:25 (R83). -/
def sliceSImmHi : Slice := ⟨0xFE000000#32, 25⟩

/-- immB[11], word bit 7 (R83). -/
def sliceBImm11 : Slice := ⟨0x00000080#32, 7⟩

/-- immB[4:1], word bits 11:8 (R83). -/
def sliceBImm4to1 : Slice := ⟨0x00000F00#32, 8⟩

/-- immB[10:5], word bits 30:25 (R83). -/
def sliceBImm10to5 : Slice := ⟨0x7E000000#32, 25⟩

/-- immB[12], word bit 31 (R83). -/
def sliceBImm12 : Slice := ⟨0x80000000#32, 31⟩

/-- immU[31:12], word bits 31:12 (R83). -/
def sliceUImm : Slice := ⟨0xFFFFF000#32, 12⟩

/-- immJ[10:1], word bits 30:21 (R83). -/
def sliceJImm10to1 : Slice := ⟨0x7FE00000#32, 21⟩

/-- immJ[11], word bit 20 (R83). -/
def sliceJImm11 : Slice := ⟨0x00100000#32, 20⟩

/-- immJ[19:12], word bits 19:12 (R83). -/
def sliceJImm19to12 : Slice := ⟨0x000FF000#32, 12⟩

/-- immJ[20], word bit 31 (R83). -/
def sliceJImm20 : Slice := ⟨0x80000000#32, 31⟩

/-- succ, word bits 23:20 (R83). -/
def sliceFenceSucc : Slice := ⟨0x00F00000#32, 20⟩

/-- pred, word bits 27:24 (R83). -/
def sliceFencePred : Slice := ⟨0x0F000000#32, 24⟩

/-- fm, word bits 31:28 (R83). -/
def sliceFenceFm : Slice := ⟨0xF0000000#32, 28⟩

/-- The slice table (R83): the slices the block uses, and nothing else. -/
def sliceTable : List Slice :=
  [sliceOpcode, sliceRd, sliceFunct3, sliceRs1, sliceRs2,
   sliceFunct7, sliceIImm, sliceSImmLo, sliceSImmHi, sliceBImm11,
   sliceBImm4to1, sliceBImm10to5, sliceBImm12, sliceUImm, sliceJImm10to1,
   sliceJImm11, sliceJImm19to12, sliceJImm20, sliceFenceSucc, sliceFencePred,
   sliceFenceFm]

/-! ### Field getters (R86, R95, R108) -/

/-- `bits[6:0]`. -/
def opcodeOf (w : Word) : BitVec 7 := (sliceOpcode.get w).setWidth 7

/-- `bits[11:7]`. -/
def rdOf (w : Word) : RegIdx := (sliceRd.get w).setWidth 5

/-- `bits[14:12]`. -/
def funct3Of (w : Word) : BitVec 3 := (sliceFunct3.get w).setWidth 3

/-- `bits[19:15]`. -/
def rs1Of (w : Word) : RegIdx := (sliceRs1.get w).setWidth 5

/-- `bits[24:20]`. -/
def rs2Of (w : Word) : RegIdx := (sliceRs2.get w).setWidth 5

/-- `bits[31:25]`. -/
def funct7Of (w : Word) : BitVec 7 := (sliceFunct7.get w).setWidth 7

/-- The shift amount of SLLI, SRLI and SRAI: `w[24:20]` (R95). -/
def shamtOf (w : Word) : BitVec 5 := (sliceRs2.get w).setWidth 5

/-- The successor set of a FENCE word (R108). -/
def succOf (w : Word) : BitVec 4 := (sliceFenceSucc.get w).setWidth 4

/-- The predecessor set of a FENCE word (R108). -/
def predOf (w : Word) : BitVec 4 := (sliceFencePred.get w).setWidth 4

/-- The fm field of a FENCE word (R108). -/
def fmOf (w : Word) : BitVec 4 := (sliceFenceFm.get w).setWidth 4

/-! ### Immediate getters and setters (R90 to R94) -/

/-- `immI = sext_12(w[31:20])` (R90). -/
def immI (w : Word) : Word := sext 12 (sliceIImm.get w)

/-- `immS = sext_12(w[31:25] ++ w[11:7])` (R91). -/
def immS (w : Word) : Word := sext 12 ((sliceSImmHi.get w <<< 5) ||| sliceSImmLo.get w)

/-- `immB = sext_13(w[31] ++ w[7] ++ w[30:25] ++ w[11:8] ++ 0b0)` (R92). -/
def immB (w : Word) : Word :=
  sext 13 ((sliceBImm12.get w <<< 12) ||| (sliceBImm11.get w <<< 11) ||| (sliceBImm10to5.get w <<< 5) |||
    (sliceBImm4to1.get w <<< 1))

/-- The U field value `w[31:12]`, which is the operand of the U format (R93, D15). -/
def fieldU (w : Word) : Word := sliceUImm.get w

/-- `immU = w[31:12] ++ 0x000` (R93). -/
def immU (w : Word) : Word := fieldU w <<< 12

/-- `immJ = sext_21(w[31] ++ w[19:12] ++ w[20] ++ w[30:21] ++ 0b0)` (R94). -/
def immJ (w : Word) : Word :=
  sext 21 ((sliceJImm20.get w <<< 20) ||| (sliceJImm19to12.get w <<< 12) ||| (sliceJImm11.get w <<< 11) |||
    (sliceJImm10to1.get w <<< 1))

/-- `set_I_imm` keeps `imm[11:0]` (R90). -/
def setImmI (w imm : Word) : Word := sliceIImm.set w imm

/-- `set_S_imm` puts `imm[4:0]` in bits 11:7 and `imm[11:5]` in bits 31:25 (R91). -/
def setImmS (w imm : Word) : Word := sliceSImmHi.set (sliceSImmLo.set w imm) (imm >>> 5)

/-- `set_B_imm`: four slices, each value shifted beforehand; `imm[0]` is dropped (R92). -/
def setImmB (w imm : Word) : Word :=
  sliceBImm12.set (sliceBImm10to5.set (sliceBImm4to1.set (sliceBImm11.set w (imm >>> 11)) (imm >>> 1)) (imm >>> 5))
    (imm >>> 12)

/-- `set_U_imm` keeps `v[19:0]` of the field value v (R93). -/
def setImmU (w v : Word) : Word := sliceUImm.set w v

/-- `set_J_imm`: four slices, each value shifted beforehand; `imm[0]` is dropped (R94). -/
def setImmJ (w imm : Word) : Word :=
  sliceJImm20.set (sliceJImm19to12.set (sliceJImm11.set (sliceJImm10to1.set w (imm >>> 1)) (imm >>> 11)) (imm >>> 12))
    (imm >>> 20)

/-! ### Encoders (R100 to R109) -/

/-- "zero the word, set opcode", with which every encoder begins (R100). -/
def encOpcode (op : BitVec 7) : Word := sliceOpcode.set 0#32 (op.setWidth 32)

/-- Setting funct3. -/
def setFunct3 (w : Word) (f3 : BitVec 3) : Word := sliceFunct3.set w (f3.setWidth 32)

/-- Setting funct7. -/
def setFunct7 (w : Word) (f7 : BitVec 7) : Word := sliceFunct7.set w (f7.setWidth 32)

/-- Setting rd. -/
def setRd (w : Word) (r : RegIdx) : Word := sliceRd.set w (r.setWidth 32)

/-- Setting rs1. -/
def setRs1 (w : Word) (r : RegIdx) : Word := sliceRs1.set w (r.setWidth 32)

/-- Setting rs2. -/
def setRs2 (w : Word) (r : RegIdx) : Word := sliceRs2.set w (r.setWidth 32)

/-- The R encoder (R101). -/
def encR (op : BitVec 7) (f3 : BitVec 3) (f7 : BitVec 7) (rd rs1 rs2 : RegIdx) : Word :=
  setRs2 (setRs1 (setRd (setFunct7 (setFunct3 (encOpcode op) f3) f7) rd) rs1) rs2

/-- The I encoder (R102). -/
def encI (op : BitVec 7) (f3 : BitVec 3) (rd rs1 : RegIdx) (imm : Word) : Word :=
  setImmI (setRs1 (setRd (setFunct3 (encOpcode op) f3) rd) rs1) imm

/-- The S encoder, whose operands come value register first: (rs2, rs1, imm) (R103). -/
def encS (op : BitVec 7) (f3 : BitVec 3) (rs2 rs1 : RegIdx) (imm : Word) : Word :=
  setImmS (setRs2 (setRs1 (setFunct3 (encOpcode op) f3) rs1) rs2) imm

/-- The B encoder (R104). -/
def encB (op : BitVec 7) (f3 : BitVec 3) (rs1 rs2 : RegIdx) (imm : Word) : Word :=
  setImmB (setRs2 (setRs1 (setFunct3 (encOpcode op) f3) rs1) rs2) imm

/-- The U encoder; v is the 20-bit field value (R105, D15). -/
def encU (op : BitVec 7) (rd : RegIdx) (v : Word) : Word := setImmU (setRd (encOpcode op) rd) v

/-- The J encoder (R106). -/
def encJ (op : BitVec 7) (rd : RegIdx) (imm : Word) : Word := setImmJ (setRd (encOpcode op) rd) imm

/-- The shift-immediate encoder: "set the immediate first, then overwrite the top 7 bits with the fixed funct7" (R107). -/
def encShift (op : BitVec 7) (f3 : BitVec 3) (f7 : BitVec 7) (rd rs1 : RegIdx) (imm : Word) : Word :=
  setFunct7 (setImmI (setRs1 (setRd (setFunct3 (encOpcode op) f3) rd) rs1) imm) f7

/-- The FENCE encoder, five fields in ascending word position (R108, D18). Each of succ, pred and fm keeps its low four bits. -/
def encFence (op : BitVec 7) (f3 : BitVec 3) (rd rs1 : RegIdx) (succ pred fm : Word) : Word :=
  sliceFenceFm.set (sliceFencePred.set (sliceFenceSucc.set (setRs1 (setRd (setFunct3 (encOpcode op) f3) rd) rs1) succ) pred) fm

/-! ### The instruction enumeration and the constants of each mnemonic (R112, R120) -/

/-- The dense enumeration of the registry: 50 mnemonics and the sentinel (R120). Its numeric order has no meaning (D20). -/
inductive InstrId where
  | lui | auipc | jal | jalr
  | beq | bne | blt | bge | bltu | bgeu
  | lb | lh | lw | lbu | lhu
  | sb | sh | sw
  | addi | slti | sltiu | xori | ori | andi | slli | srli | srai
  | add | sub | sll | slt | sltu | xor | srl | sra | or | and
  | mul | mulh | mulhsu | mulhu | div | divu | rem | remu
  | fence | fenceTso | pause | ecall | ebreak
  | undef
  deriving DecidableEq, Repr

/-- All 51 members of the enumeration. -/
def allInstrIds : List InstrId :=
  [.lui, .auipc, .jal, .jalr, .beq, .bne, .blt, .bge, .bltu, .bgeu, .lb, .lh, .lw, .lbu, .lhu, .sb, .sh, .sw] ++
  [.addi, .slti, .sltiu, .xori, .ori, .andi, .slli, .srli, .srai] ++
  [.add, .sub, .sll, .slt, .sltu, .xor, .srl, .sra, .or, .and] ++
  [.mul, .mulh, .mulhsu, .mulhu, .div, .divu, .rem, .remu] ++
  [.fence, .fenceTso, .pause, .ecall, .ebreak, .undef]

/-- The instruction formats (R85, R112): R, I, shift I, S, B, U, J, FENCE, a fixed word; `none` is UNDEF's. -/
inductive Format where
  | r | i | shift | s | b | u | j | fence | fixed | none
  deriving DecidableEq, Repr

/-- The format column of R112. -/
def formatOf : InstrId → Format
  | .lui | .auipc => .u
  | .jal => .j
  | .beq | .bne | .blt | .bge | .bltu | .bgeu => .b
  | .jalr | .lb | .lh | .lw | .lbu | .lhu | .addi | .slti | .sltiu | .xori | .ori | .andi => .i
  | .sb | .sh | .sw => .s
  | .slli | .srli | .srai => .shift
  | .add | .sub | .sll | .slt | .sltu | .xor | .srl | .sra | .or | .and => .r
  | .mul | .mulh | .mulhsu | .mulhu | .div | .divu | .rem | .remu => .r
  | .fence => .fence
  | .fenceTso | .pause | .ecall | .ebreak => .fixed
  | .undef => .none

/-- The opcode column of R112; UNDEF has none and is given 0. -/
def opcodeConst : InstrId → BitVec 7
  | .lui => 0x37#7
  | .auipc => 0x17#7
  | .jal => 0x6F#7
  | .jalr => 0x67#7
  | .beq | .bne | .blt | .bge | .bltu | .bgeu => 0x63#7
  | .lb | .lh | .lw | .lbu | .lhu => 0x03#7
  | .sb | .sh | .sw => 0x23#7
  | .addi | .slti | .sltiu | .xori | .ori | .andi | .slli | .srli | .srai => 0x13#7
  | .add | .sub | .sll | .slt | .sltu | .xor | .srl | .sra | .or | .and => 0x33#7
  | .mul | .mulh | .mulhsu | .mulhu | .div | .divu | .rem | .remu => 0x33#7
  | .fence | .fenceTso | .pause => 0x0F#7
  | .ecall | .ebreak => 0x73#7
  | .undef => 0#7

/-- The funct3 column of R112; 0 where the format has no funct3. -/
def funct3Const : InstrId → BitVec 3
  | .lui | .auipc | .jal | .jalr => 0#3
  | .beq => 0#3
  | .bne => 1#3
  | .blt => 4#3
  | .bge => 5#3
  | .bltu => 6#3
  | .bgeu => 7#3
  | .lb => 0#3
  | .lh => 1#3
  | .lw => 2#3
  | .lbu => 4#3
  | .lhu => 5#3
  | .sb => 0#3
  | .sh => 1#3
  | .sw => 2#3
  | .addi => 0#3
  | .slti => 2#3
  | .sltiu => 3#3
  | .xori => 4#3
  | .ori => 6#3
  | .andi => 7#3
  | .slli => 1#3
  | .srli | .srai => 5#3
  | .add | .sub | .mul => 0#3
  | .sll | .mulh => 1#3
  | .slt | .mulhsu => 2#3
  | .sltu | .mulhu => 3#3
  | .xor | .div => 4#3
  | .srl | .sra | .divu => 5#3
  | .or | .rem => 6#3
  | .and | .remu => 7#3
  | .fence | .fenceTso | .pause | .ecall | .ebreak | .undef => 0#3

/-- The funct7 column of R112; 0 where the format has no funct7. -/
def funct7Const : InstrId → BitVec 7
  | .sub | .sra | .srai => 0x20#7
  | .mul | .mulh | .mulhsu | .mulhu | .div | .divu | .rem | .remu => 0x01#7
  | .lui | .auipc | .jal | .jalr | .beq | .bne | .blt | .bge | .bltu | .bgeu | .lb | .lh | .lw | .lbu | .lhu
  | .sb | .sh | .sw | .addi | .slti | .sltiu | .xori | .ori | .andi | .slli | .srli
  | .add | .sll | .slt | .sltu | .xor | .srl | .or | .and
  | .fence | .fenceTso | .pause | .ecall | .ebreak | .undef => 0x00#7

/-- The whole words of the fixed-word encoders (R109); 0 for every other member. -/
def fixedWord : InstrId → Word
  | .ecall => 0x00000073#32
  | .ebreak => 0x00100073#32
  | .fenceTso => 0x8330000F#32
  | .pause => 0x0100000F#32
  | .lui | .auipc | .jal | .jalr | .beq | .bne | .blt | .bge | .bltu | .bgeu | .lb | .lh | .lw | .lbu | .lhu
  | .sb | .sh | .sw | .addi | .slti | .sltiu | .xori | .ori | .andi | .slli | .srli | .srai
  | .add | .sub | .sll | .slt | .sltu | .xor | .srl | .sra | .or | .and
  | .mul | .mulh | .mulhsu | .mulhu | .div | .divu | .rem | .remu | .fence | .undef => 0#32

/-- The operand ports of an encoder: register ports of 5 bits, an immediate port of 32 bits, and FENCE's three numeric fields
(R100, R108). An encoder reads only the ports of its format. -/
structure Ports where
  rd : RegIdx := 0#5
  rs1 : RegIdx := 0#5
  rs2 : RegIdx := 0#5
  imm : Word := 0#32
  succ : Word := 0#32
  pred : Word := 0#32
  fm : Word := 0#32
  deriving DecidableEq, Repr

/-- The encoder of each mnemonic: its format's encoder over its constants (R100, R112). UNDEF has no encoder; its entry answers the
all-zero word, which decodes to UNDEF. -/
def encodePorts (id : InstrId) (p : Ports) : Word :=
  match formatOf id with
  | .r => encR (opcodeConst id) (funct3Const id) (funct7Const id) p.rd p.rs1 p.rs2
  | .i => encI (opcodeConst id) (funct3Const id) p.rd p.rs1 p.imm
  | .shift => encShift (opcodeConst id) (funct3Const id) (funct7Const id) p.rd p.rs1 p.imm
  | .s => encS (opcodeConst id) (funct3Const id) p.rs2 p.rs1 p.imm
  | .b => encB (opcodeConst id) (funct3Const id) p.rs1 p.rs2 p.imm
  | .u => encU (opcodeConst id) p.rd p.imm
  | .j => encJ (opcodeConst id) p.rd p.imm
  | .fence => encFence (opcodeConst id) (funct3Const id) p.rd p.rs1 p.succ p.pred p.fm
  | .fixed => fixedWord id
  | .none => 0#32

end Sys2Proof
end

