-- ==== Sys2Proof/Decode.lean ====
section
/-! DEFINITION. The decode dispatch tree, total on every word and every byte list, and the encoder of an instruction
(30_encoding.md rules R120 to R136, R100). -/

namespace Sys2Proof

/-! ### The tree, level by level (R122 to R133) -/

/-- BRANCH by funct3 (R125). -/
def branchId (f3 : BitVec 3) : InstrId :=
  match f3.toNat with
  | 0 => .beq
  | 1 => .bne
  | 4 => .blt
  | 5 => .bge
  | 6 => .bltu
  | 7 => .bgeu
  | _ => .undef

/-- LOAD by funct3 (R126). -/
def loadId (f3 : BitVec 3) : InstrId :=
  match f3.toNat with
  | 0 => .lb
  | 1 => .lh
  | 2 => .lw
  | 4 => .lbu
  | 5 => .lhu
  | _ => .undef

/-- STORE by funct3 (R127). -/
def storeId (f3 : BitVec 3) : InstrId :=
  match f3.toNat with
  | 0 => .sb
  | 1 => .sh
  | 2 => .sw
  | _ => .undef

/-- OP_IMM with funct3 5, by funct7 (R129). -/
def shiftRightImmId (f7 : BitVec 7) : InstrId :=
  match f7.toNat with
  | 0x00 => .srli
  | 0x20 => .srai
  | _ => .undef

/-- OP_IMM by funct3; only funct3 5 looks at funct7, so SLLI does not (R128). -/
def opImmId (f3 : BitVec 3) (f7 : BitVec 7) : InstrId :=
  match f3.toNat with
  | 0 => .addi
  | 1 => .slli
  | 2 => .slti
  | 3 => .sltiu
  | 4 => .xori
  | 5 => shiftRightImmId f7
  | 6 => .ori
  | _ => .andi

/-- The funct7 0x00 column of OP (R130). -/
def opBaseId (f3 : BitVec 3) : InstrId :=
  match f3.toNat with
  | 0 => .add
  | 1 => .sll
  | 2 => .slt
  | 3 => .sltu
  | 4 => .xor
  | 5 => .srl
  | 6 => .or
  | _ => .and

/-- The funct7 0x20 column of OP (R130). -/
def opAltId (f3 : BitVec 3) : InstrId :=
  match f3.toNat with
  | 0 => .sub
  | 5 => .sra
  | _ => .undef

/-- The funct7 0x01 column of OP: the M extension (R130). -/
def opMulDivId (f3 : BitVec 3) : InstrId :=
  match f3.toNat with
  | 0 => .mul
  | 1 => .mulh
  | 2 => .mulhsu
  | 3 => .mulhu
  | 4 => .div
  | 5 => .divu
  | 6 => .rem
  | _ => .remu

/-- OP by funct7 and funct3, in the order of R134 (R130). -/
def opId (f3 : BitVec 3) (f7 : BitVec 7) : InstrId :=
  match f7.toNat with
  | 0x00 => opBaseId f3
  | 0x20 => opAltId f3
  | 0x01 => opMulDivId f3
  | _ => .undef

/-- SYSTEM by the whole word (R132). -/
def systemId (w : Word) : InstrId :=
  if w = 0x00000073#32 then .ecall
  else if w = 0x00100073#32 then .ebreak
  else .undef

/-- MISC_MEM by two whole words, then by funct3 (R133). -/
def miscMemId (w : Word) : InstrId :=
  if w = 0x8330000F#32 then .fenceTso
  else if w = 0x0100000F#32 then .pause
  else if funct3Of w = 0#3 then .fence
  else .undef

/-- `decode(w)`, the whole tree as one function from any word to a member of the enumeration (R121, R134). -/
def decodeId (w : Word) : InstrId :=
  if opcodeOf w = 0x37#7 then .lui
  else if opcodeOf w = 0x17#7 then .auipc
  else if opcodeOf w = 0x6F#7 then .jal
  else if opcodeOf w = 0x67#7 then (if funct3Of w = 0#3 then .jalr else .undef)
  else if opcodeOf w = 0x63#7 then branchId (funct3Of w)
  else if opcodeOf w = 0x03#7 then loadId (funct3Of w)
  else if opcodeOf w = 0x23#7 then storeId (funct3Of w)
  else if opcodeOf w = 0x13#7 then opImmId (funct3Of w) (funct7Of w)
  else if opcodeOf w = 0x33#7 then opId (funct3Of w) (funct7Of w)
  else if opcodeOf w = 0x73#7 then systemId w
  else if opcodeOf w = 0x0F#7 then miscMemId w
  else .undef

/-! ### Operands: "extracted afterwards ... with the getters" (R121) -/

/-- The instruction a member of the enumeration stands for, its operands read from the word; UNDEF stands for none. -/
def operandsOf (id : InstrId) (w : Word) : Option Instr :=
  match id with
  | .lui => some (.lui (rdOf w) ((fieldU w).setWidth 20))
  | .auipc => some (.auipc (rdOf w) ((fieldU w).setWidth 20))
  | .jal => some (.jal (rdOf w) ((immJ w).setWidth 21))
  | .jalr => some (.jalr (rdOf w) (rs1Of w) ((immI w).setWidth 12))
  | .beq => some (.beq (rs1Of w) (rs2Of w) ((immB w).setWidth 13))
  | .bne => some (.bne (rs1Of w) (rs2Of w) ((immB w).setWidth 13))
  | .blt => some (.blt (rs1Of w) (rs2Of w) ((immB w).setWidth 13))
  | .bge => some (.bge (rs1Of w) (rs2Of w) ((immB w).setWidth 13))
  | .bltu => some (.bltu (rs1Of w) (rs2Of w) ((immB w).setWidth 13))
  | .bgeu => some (.bgeu (rs1Of w) (rs2Of w) ((immB w).setWidth 13))
  | .lb => some (.lb (rdOf w) (rs1Of w) ((immI w).setWidth 12))
  | .lh => some (.lh (rdOf w) (rs1Of w) ((immI w).setWidth 12))
  | .lw => some (.lw (rdOf w) (rs1Of w) ((immI w).setWidth 12))
  | .lbu => some (.lbu (rdOf w) (rs1Of w) ((immI w).setWidth 12))
  | .lhu => some (.lhu (rdOf w) (rs1Of w) ((immI w).setWidth 12))
  | .sb => some (.sb (rs2Of w) (rs1Of w) ((immS w).setWidth 12))
  | .sh => some (.sh (rs2Of w) (rs1Of w) ((immS w).setWidth 12))
  | .sw => some (.sw (rs2Of w) (rs1Of w) ((immS w).setWidth 12))
  | .addi => some (.addi (rdOf w) (rs1Of w) ((immI w).setWidth 12))
  | .slti => some (.slti (rdOf w) (rs1Of w) ((immI w).setWidth 12))
  | .sltiu => some (.sltiu (rdOf w) (rs1Of w) ((immI w).setWidth 12))
  | .xori => some (.xori (rdOf w) (rs1Of w) ((immI w).setWidth 12))
  | .ori => some (.ori (rdOf w) (rs1Of w) ((immI w).setWidth 12))
  | .andi => some (.andi (rdOf w) (rs1Of w) ((immI w).setWidth 12))
  | .slli => some (.slli (rdOf w) (rs1Of w) (shamtOf w))
  | .srli => some (.srli (rdOf w) (rs1Of w) (shamtOf w))
  | .srai => some (.srai (rdOf w) (rs1Of w) (shamtOf w))
  | .add => some (.add (rdOf w) (rs1Of w) (rs2Of w))
  | .sub => some (.sub (rdOf w) (rs1Of w) (rs2Of w))
  | .sll => some (.sll (rdOf w) (rs1Of w) (rs2Of w))
  | .slt => some (.slt (rdOf w) (rs1Of w) (rs2Of w))
  | .sltu => some (.sltu (rdOf w) (rs1Of w) (rs2Of w))
  | .xor => some (.xor (rdOf w) (rs1Of w) (rs2Of w))
  | .srl => some (.srl (rdOf w) (rs1Of w) (rs2Of w))
  | .sra => some (.sra (rdOf w) (rs1Of w) (rs2Of w))
  | .or => some (.or (rdOf w) (rs1Of w) (rs2Of w))
  | .and => some (.and (rdOf w) (rs1Of w) (rs2Of w))
  | .mul => some (.mul (rdOf w) (rs1Of w) (rs2Of w))
  | .mulh => some (.mulh (rdOf w) (rs1Of w) (rs2Of w))
  | .mulhsu => some (.mulhsu (rdOf w) (rs1Of w) (rs2Of w))
  | .mulhu => some (.mulhu (rdOf w) (rs1Of w) (rs2Of w))
  | .div => some (.div (rdOf w) (rs1Of w) (rs2Of w))
  | .divu => some (.divu (rdOf w) (rs1Of w) (rs2Of w))
  | .rem => some (.rem (rdOf w) (rs1Of w) (rs2Of w))
  | .remu => some (.remu (rdOf w) (rs1Of w) (rs2Of w))
  | .fence => some (.fence (rdOf w) (rs1Of w) (succOf w) (predOf w) (fmOf w))
  | .fenceTso => some .fenceTso
  | .pause => some .pause
  | .ecall => some .ecall
  | .ebreak => some .ebreak
  | .undef => none

/-- The instruction a word is; none for a word of the UNDEF set (R121, R136). -/
def decode (w : Word) : Option Instr := operandsOf (decodeId w) w

/-! ### Bytes (R84, R57) -/

/-- Why a byte list is no instruction. -/
inductive DecodeReject where
  /-- The word decodes to UNDEF (R136). -/
  | undef (w : Word)
  /-- Fewer than the four bytes every instruction has (R84). -/
  | tooShort (bytes : Nat)
  deriving DecidableEq, Repr

/-- A word from its four bytes, the byte of the lowest address first (20_memory.md rule R52). -/
def wordOfBytes (b0 b1 b2 b3 : Byte) : Word := b3 ++ b2 ++ b1 ++ b0

/-- The first instruction of a byte list, and the bytes after it. -/
def decodeBytes : List Byte → Except DecodeReject (Instr × List Byte)
  | b0 :: b1 :: b2 :: b3 :: rest =>
    match decode (wordOfBytes b0 b1 b2 b3) with
    | some i => .ok (i, rest)
    | none => .error (.undef (wordOfBytes b0 b1 b2 b3))
  | short => .error (.tooShort short.length)

/-- The four bytes of a word as memory holds them, the lowest address first (R52). -/
def bytesOfWord (w : Word) : List Byte :=
  [w.setWidth 8, (w >>> 8).setWidth 8, (w >>> 16).setWidth 8, (w >>> 24).setWidth 8]

/-- The instruction the decoder reads from an instruction whose bits are w, numbered as the opcode table numbers them; bits at and
above nbits are 0. Every row of the table has 32 bits (R84). -/
def decodeTableWord (nbits w : Nat) : Option Instr :=
  match decodeBytes (bytesOfWord (BitVec.ofNat 32 (w % 2 ^ nbits))) with
  | .ok (i, _) => some i
  | .error _ => none

/-! ### The encoder of an instruction (R100 to R112) -/

/-- The mnemonic of an instruction. -/
def idOf : Instr → InstrId
  | .lui .. => .lui
  | .auipc .. => .auipc
  | .jal .. => .jal
  | .jalr .. => .jalr
  | .beq .. => .beq
  | .bne .. => .bne
  | .blt .. => .blt
  | .bge .. => .bge
  | .bltu .. => .bltu
  | .bgeu .. => .bgeu
  | .lb .. => .lb
  | .lh .. => .lh
  | .lw .. => .lw
  | .lbu .. => .lbu
  | .lhu .. => .lhu
  | .sb .. => .sb
  | .sh .. => .sh
  | .sw .. => .sw
  | .addi .. => .addi
  | .slti .. => .slti
  | .sltiu .. => .sltiu
  | .xori .. => .xori
  | .ori .. => .ori
  | .andi .. => .andi
  | .slli .. => .slli
  | .srli .. => .srli
  | .srai .. => .srai
  | .add .. => .add
  | .sub .. => .sub
  | .sll .. => .sll
  | .slt .. => .slt
  | .sltu .. => .sltu
  | .xor .. => .xor
  | .srl .. => .srl
  | .sra .. => .sra
  | .or .. => .or
  | .and .. => .and
  | .mul .. => .mul
  | .mulh .. => .mulh
  | .mulhsu .. => .mulhsu
  | .mulhu .. => .mulhu
  | .div .. => .div
  | .divu .. => .divu
  | .rem .. => .rem
  | .remu .. => .remu
  | .fence .. => .fence
  | .fenceTso => .fenceTso
  | .pause => .pause
  | .ecall => .ecall
  | .ebreak => .ebreak

/-- What an instruction's operands put on the encoder's ports: an immediate as its 32-bit two's-complement pattern, a U field
value or a shift amount as an unsigned number (R100, R105, R107). -/
def portsOf : Instr → Ports
  | .lui rd imm | .auipc rd imm => { rd, imm := imm.setWidth 32 }
  | .jal rd imm => { rd, imm := imm.signExtend 32 }
  | .jalr rd rs1 imm | .lb rd rs1 imm | .lh rd rs1 imm | .lw rd rs1 imm | .lbu rd rs1 imm | .lhu rd rs1 imm
  | .addi rd rs1 imm | .slti rd rs1 imm | .sltiu rd rs1 imm | .xori rd rs1 imm | .ori rd rs1 imm
  | .andi rd rs1 imm => { rd, rs1, imm := imm.signExtend 32 }
  | .beq rs1 rs2 imm | .bne rs1 rs2 imm | .blt rs1 rs2 imm | .bge rs1 rs2 imm | .bltu rs1 rs2 imm
  | .bgeu rs1 rs2 imm => { rs1, rs2, imm := imm.signExtend 32 }
  | .sb rs2 rs1 imm | .sh rs2 rs1 imm | .sw rs2 rs1 imm => { rs1, rs2, imm := imm.signExtend 32 }
  | .slli rd rs1 shamt | .srli rd rs1 shamt | .srai rd rs1 shamt => { rd, rs1, imm := shamt.setWidth 32 }
  | .add rd rs1 rs2 | .sub rd rs1 rs2 | .sll rd rs1 rs2 | .slt rd rs1 rs2 | .sltu rd rs1 rs2 | .xor rd rs1 rs2
  | .srl rd rs1 rs2 | .sra rd rs1 rs2 | .or rd rs1 rs2 | .and rd rs1 rs2 | .mul rd rs1 rs2 | .mulh rd rs1 rs2
  | .mulhsu rd rs1 rs2 | .mulhu rd rs1 rs2 | .div rd rs1 rs2 | .divu rd rs1 rs2 | .rem rd rs1 rs2
  | .remu rd rs1 rs2 => { rd, rs1, rs2 }
  | .fence rd rs1 succ pred fm =>
    { rd, rs1, succ := succ.setWidth 32, pred := pred.setWidth 32, fm := fm.setWidth 32 }
  | .fenceTso | .pause | .ecall | .ebreak => {}

/-- The word of an instruction (R100). -/
def encode (i : Instr) : Word := encodePorts (idOf i) (portsOf i)

/-! ### The opcode table's rows (30_encoding.md, header; spec/opcode_table.json) -/

/-- The mask of a row of the opcode table. UNDEF has no row and is given the full mask. -/
def rowMask (id : InstrId) : Word :=
  match id with
  | .slli => 0x0000707F#32
  | .srli | .srai => 0xFE00707F#32
  | .undef => 0xFFFFFFFF#32
  | _ =>
    match formatOf id with
    | .u | .j => 0x0000007F#32
    | .r => 0xFE00707F#32
    | .fixed => 0xFFFFFFFF#32
    | _ => 0x0000707F#32

/-- The match of a row of the opcode table: its constants in their places, or its whole word. UNDEF is given 0. -/
def rowMatch (id : InstrId) : Word :=
  match formatOf id with
  | .fixed => fixedWord id
  | _ => setFunct7 (setFunct3 (encOpcode (opcodeConst id)) (funct3Const id)) (funct7Const id)

/-- The rows of the table in order of priority: "where two rows match one word the row with the larger mask wins". -/
def rowOrder : List InstrId :=
  allInstrIds.filter (fun id => formatOf id == .fixed) ++
    allInstrIds.filter (fun id => formatOf id != .fixed && id != .undef)

/-- Decoding by the table: the first row whose match the word has under its mask, UNDEF when there is none. -/
def decodeByTable (w : Word) : InstrId :=
  match rowOrder.find? (fun id => w &&& rowMask id == rowMatch id) with
  | some id => id
  | none => .undef

end Sys2Proof
end

