-- ==== Sys2Proof/Machine/State.lean ====
section
/-! DEFINITION. The machine's state (10_state.md rules R20 to R33), the failures of a step (60_exceptions.md rule R271), and the
state after reset. -/

namespace Sys2Proof.Machine

/-- Memory: the (address, byte) pairs whose byte is not 0x00, addresses strictly rising. An unlisted address holds 0x00, the
reset contents (R33). Log entry 2. Safe. -/
abbrev Memory := List Host.Cell

/-- The canonical form from the address `lo` on: addresses rise strictly, lie in memory, and no listed byte is 0x00. -/
def memoryWfFrom (lo : Nat) : Memory → Bool
  | [] => true
  | (a, v) :: rest => decide (lo ≤ a) && decide (a < Config.memSize) && decide (v ≠ 0#8) && memoryWfFrom (a + 1) rest

/-- The canonical form of a memory. -/
def Memory.wf (m : Memory) : Bool := memoryWfFrom 0 m

/-- The machine's whole state (R20): pc, the registers, memory. Slot 0 of `regs` is x0's and is neither read nor written by the
accessors (R21). Log entry 3. Safe. -/
structure State where
  /-- The address of the instruction the next step fetches and executes (R25). -/
  pc : Word
  /-- x0 to x31 (R22). -/
  regs : Vector Word 32
  /-- The 2^24 bytes of memory (R31, R50). -/
  mem : Memory
  deriving DecidableEq, Repr

/-- The state after reset: pc, every register and every byte of memory are 0 (R33, R300). -/
def State.reset : State := { pc := Config.resetPc, regs := Vector.replicate 32 0#32, mem := [] }

/-- The kind of a data access that failed (R271). -/
inductive AccessKind where
  | load | store
  deriving DecidableEq, Repr

/-- The failures a step can raise: the closed set of R271. A step that fails changes no state (R272). Each is the spec's own
failure with the information R271 and R274 give it, so each is safe. -/
inductive Fault where
  /-- The word at pc decodes to UNDEF; raised by the UNDEF executor (R260). Safe. -/
  | undefinedInstruction (w : Word)
  /-- One of the four bytes at pc lies at or above 2^24; raised by the fetch (R57, R270). Safe. -/
  | fetchFault (pc : Word)
  /-- One of the n bytes at a lies at or above 2^24; raised by loads and stores (R53, R54). Safe. -/
  | memoryFault (kind : AccessKind) (a : Word) (n : Nat)
  /-- Raised by ECALL, always (R258). Safe. -/
  | environmentCall (pc : Word)
  /-- Raised by EBREAK, always (R259). Safe. -/
  | breakpoint (pc : Word)
  deriving DecidableEq, Repr

/-- The reasons an instruction has no meaning in the model. -/
inductive Refusal where
  /-- Raised by exec's arm of an instruction that has no meaning yet; no arm raises it now. Safe. -/
  | notModelled (mnemonic : String)
  deriving DecidableEq, Repr

end Sys2Proof.Machine
end

