-- ==== Sys2Proof/Machine/Ops.lean ====
section
/-! DEFINITION. The named operations over registers, pc and memory (10_state.md rules R21, R26, R41; 20_memory.md rules R51 to R57)
and the one operation that ends a step in a failure (60_exceptions.md rules R271, R272). -/

namespace Sys2Proof.Machine

/-! ### Registers and pc -/

/-- The read of register r; x0 reads as zero whatever slot 0 holds (R21, R41). -/
def State.getReg (s : State) (r : RegIdx) : Word :=
  if r = 0#5 then 0#32 else s.regs[r.toNat]'(RegIdx.lt_32 r)

/-- The write of register r; a write to x0 is discarded (R21, R41). -/
def State.setReg (s : State) (r : RegIdx) (v : Word) : State :=
  if r = 0#5 then s else { s with regs := s.regs.set r.toNat v (RegIdx.lt_32 r) }

/-- The write of pc (R25). -/
def State.setPc (s : State) (t : Word) : State := { s with pc := t }

/-- The address after the instruction at pc, modulo 2^32 (R26, R27). -/
def State.nextPc (s : State) : Word := s.pc + 4#32

/-! ### How a step ends -/

/-- `raise <Failure>`: the step ends with that failure and changes no state (00_scope.md rule R10, R272). Nothing is saved and
control goes nowhere inside the machine (R277); the failure goes to the host (R273). -/
def raise (f : Fault) : Host.Outcome State Fault Refusal := .fault f

/-- The end of an instruction that writes v to rd and goes on to the next instruction: `x[rd] <- v; pc <- pc + 4`. -/
def writeBack (s : State) (rd : RegIdx) (v : Word) : Host.Outcome State Fault Refusal :=
  .next ((s.setReg rd v).setPc s.nextPc)

/-- The end of an instruction that writes no register and sends pc to t. -/
def goTo (s : State) (t : Word) : Host.Outcome State Fault Refusal := .next (s.setPc t)

/-! ### Bytes of memory -/

/-- The byte at an address; an unlisted address holds 0x00 (R33). -/
def Memory.read : Memory → Nat → Byte
  | [], _ => 0#8
  | (b, v) :: rest, a => if b = a then v else Memory.read rest a

/-- A cell put before the first cell of a higher address. -/
def Memory.insert : Memory → Nat → Byte → Memory
  | [], a, v => [(a, v)]
  | (b, u) :: rest, a, v => if a < b then (a, v) :: (b, u) :: rest else (b, u) :: Memory.insert rest a v

/-- The write of one byte: the address's cell is taken out, and the new one put in unless the byte is 0x00. -/
def Memory.write (m : Memory) (a : Nat) (v : Byte) : Memory :=
  if v = 0#8 then m.filter (fun c => c.1 ≠ a) else Memory.insert (m.filter (fun c => c.1 ≠ a)) a v

/-- A byte address is valid exactly when it is below 2^24 (R51). -/
def validByte (b : Word) : Bool := decide (b.toNat < Config.memSize)

/-- The byte address i bytes after a, modulo 2^32 (R51). -/
def byteAddr (a : Word) (i : Nat) : Word := a + BitVec.ofNat 32 i

/-- An access of n bytes at a is valid exactly when each of its bytes is (R51). -/
def validAccess (a : Word) (n : Nat) : Bool := (List.range n).all fun i => validByte (byteAddr a i)

/-- The little-endian value of the n bytes at a, as a 32-bit pattern (R52, R53). -/
def loadLE (m : Memory) (a : Word) : Nat → Word
  | 0 => 0#32
  | n + 1 => loadLE m a n ||| ((m.read (byteAddr a n).toNat).setWidth 32 <<< (8 * n))

/-- Memory with the low n bytes of v at a, the lowest byte at the lowest address (R52, R54). -/
def storeLE (m : Memory) (a : Word) (v : Word) : Nat → Memory
  | 0 => m
  | n + 1 => (storeLE m a v n).write (byteAddr a n).toNat ((v >>> (8 * n)).setWidth 8)

/-- `MemRead(a, n)` (R53): the value of a valid access, else the failure MemoryFault(load, a, n). -/
def memRead (s : State) (a : Word) (n : Nat) : Except Fault Word :=
  if validAccess a n then .ok (loadLE s.mem a n) else .error (.memoryFault .load a n)

/-- `MemWrite(a, n, v)` (R54): all n bytes of a valid access are stored, else the failure MemoryFault(store, a, n) and no byte. -/
def memWrite (s : State) (a : Word) (n : Nat) (v : Word) : Except Fault State :=
  if validAccess a n then .ok { s with mem := storeLE s.mem a v n } else .error (.memoryFault .store a n)

/-- The fetch: `MemRead(pc, 4)` with FetchFault(pc) in place of MemoryFault; pc needs no alignment (R57). -/
def fetch (s : State) : Except Fault Word :=
  match memRead s s.pc 4 with
  | .ok w => .ok w
  | .error _ => .error (.fetchFault s.pc)

end Sys2Proof.Machine
end

