-- ==== Sys2Proof/Machine/Flags.lean ====
section
/-! DEFINITION. There are no flags, condition codes or predicates (10_state.md rule R28): a comparison writes 0 or 1 to a register
or decides a branch within the same instruction. This file holds those comparisons. -/

namespace Sys2Proof.Machine

/-- `s(a) < s(b)`, both read as two's-complement integers (00_scope.md rule R9). -/
def ltSigned (a b : Word) : Bool := decide (a.toInt < b.toInt)

/-- `u(a) < u(b)`, both read as unsigned integers (R9). -/
def ltUnsigned (a b : Word) : Bool := decide (a.toNat < b.toNat)

/-- The result of a set-less-than: 1 or 0 (46_op.md rules R229, R230). -/
def boolWord (p : Bool) : Word := if p then 1#32 else 0#32

end Sys2Proof.Machine
end

