-- ==== Sys2Proof/Machine/Operands.lean ====
section
/-! DEFINITION. The operand forms: immediates extended to 32 bits, effective addresses, shift amounts, branch and jump targets.
All sums are modulo 2^32 (46_op.md rule R236). -/

namespace Sys2Proof.Machine

/-- A 12-bit immediate, sign-extended (30_encoding.md rules R90, R91). -/
def imm12 (imm : BitVec 12) : Word := imm.signExtend 32

/-- A U immediate: the 20-bit field value in bits 31:12, zeros below (R93). -/
def immUpper (imm : BitVec 20) : Word := imm ++ 0#12

/-- The effective address of a load or store: `x[rs1] + imm` (20_memory.md rule R51). -/
def effectiveAddr (s : State) (rs1 : RegIdx) (imm : BitVec 12) : Word := s.getReg rs1 + imm12 imm

/-- A shift amount in a register: its low five bits (46_op.md rule R228). -/
def regShamt (v : Word) : Nat := (v.setWidth 5).toNat

/-- The target of a taken branch: `pc + immB` (42_branches.md rule R180). -/
def branchTarget (s : State) (imm : BitVec 13) : Word := s.pc + imm.signExtend 32

/-- The target of JAL: `pc + immJ` (41_jumps.md rule R170). -/
def jalTarget (s : State) (imm : BitVec 21) : Word := s.pc + imm.signExtend 32

/-- The target of JALR from the sum t: t itself, or t with bit 0 cleared on a build that clears it (R171). It asks for the
parameter only where the two differ, "only when `x[rs1] + immI` is odd" (R172), so an even target is a value of its own. -/
def jalrTarget (clear : Bool) (t : Word) : Word :=
  if t.getLsbD 0 then (if clear then t &&& 0xFFFFFFFE#32 else t) else t

end Sys2Proof.Machine
end

