-- ==== Sys2Proof/Machine/Branches.lean ====
section
/-! DEFINITION. The six conditional branches (42_branches.md). No register is written and no target is checked. -/

namespace Sys2Proof.Machine

/-- A branch with predicate p: `pc + immB` when p holds of the two registers, else `pc + 4` (R180). -/
def branch (p : Word → Word → Bool) (rs1 rs2 : RegIdx) (imm : BitVec 13) (s : State) : Host.Outcome State Fault Refusal :=
  goTo s (if p (s.getReg rs1) (s.getReg rs2) then branchTarget s imm else s.nextPc)

/-- BEQ: taken when a = b (R181). -/
def execBeq (rs1 rs2 : RegIdx) (imm : BitVec 13) (s : State) : Host.Outcome State Fault Refusal :=
  branch (fun a b => a == b) rs1 rs2 imm s

/-- BNE: taken when a and b differ (R182). -/
def execBne (rs1 rs2 : RegIdx) (imm : BitVec 13) (s : State) : Host.Outcome State Fault Refusal :=
  branch (fun a b => a != b) rs1 rs2 imm s

/-- BLT: taken when s(a) < s(b) (R183). -/
def execBlt (rs1 rs2 : RegIdx) (imm : BitVec 13) (s : State) : Host.Outcome State Fault Refusal :=
  branch ltSigned rs1 rs2 imm s

/-- BGE: taken when s(a) >= s(b), the negation of BLT's (R184). -/
def execBge (rs1 rs2 : RegIdx) (imm : BitVec 13) (s : State) : Host.Outcome State Fault Refusal :=
  branch (fun a b => !ltSigned a b) rs1 rs2 imm s

/-- BLTU: taken when u(a) < u(b) (R185). -/
def execBltu (rs1 rs2 : RegIdx) (imm : BitVec 13) (s : State) : Host.Outcome State Fault Refusal :=
  branch ltUnsigned rs1 rs2 imm s

/-- BGEU: taken when u(a) >= u(b), the negation of BLTU's (R186). -/
def execBgeu (rs1 rs2 : RegIdx) (imm : BitVec 13) (s : State) : Host.Outcome State Fault Refusal :=
  branch (fun a b => !ltUnsigned a b) rs1 rs2 imm s

end Sys2Proof.Machine
end

