-- ==== Sys2Proof/Machine/Jumps.lean ====
section
/-! DEFINITION. JAL and JALR (41_jumps.md). No target is checked for alignment or range (R174). -/

namespace Sys2Proof.Machine

/-- A jump to t that links: `x[rd] <- pc + 4; pc <- t` (R26). -/
def jumpLink (s : State) (rd : RegIdx) (t : Word) : Host.Outcome State Fault Refusal :=
  .next ((s.setReg rd s.nextPc).setPc t)

/-- JAL: `x[rd] <- pc + 4; pc <- pc + immJ` (R170). -/
def execJal (rd : RegIdx) (imm : BitVec 21) (s : State) : Host.Outcome State Fault Refusal :=
  jumpLink s rd (jalTarget s imm)

/-- JALR on a build that clears bit 0 of the target or not: the target is computed from the old `x[rs1]` (R171, D6). -/
def execJalrWith (clear : Bool) (rd rs1 : RegIdx) (imm : BitVec 12) (s : State) : Host.Outcome State Fault Refusal :=
  jumpLink s rd (jalrTarget clear (s.getReg rs1 + imm12 imm))

/-- JALR on this build, whatever its parameter is (R171, R172). -/
def execJalr (rd rs1 : RegIdx) (imm : BitVec 12) (s : State) : Host.Outcome State Fault Refusal :=
  execJalrWith Config.jalrClearBit0 rd rs1 imm s

end Sys2Proof.Machine
end

