-- ==== Sys2Proof/Machine/Loads.lean ====
section
/-! DEFINITION. The five loads (43_loads.md). No alignment is required (20_memory.md rule R55). -/

namespace Sys2Proof.Machine

/-- A load of n bytes extended by ext: the read is done also when rd is x0, and a failing read leaves rd and pc alone (R190). -/
def load (n : Nat) (ext : Word → Word) (rd rs1 : RegIdx) (imm : BitVec 12) (s : State) : Host.Outcome State Fault Refusal :=
  match memRead s (effectiveAddr s rs1 imm) n with
  | .ok v => writeBack s rd (ext v)
  | .error f => raise f

/-- LB: one byte, sign-extended (R191). -/
def execLb (rd rs1 : RegIdx) (imm : BitVec 12) (s : State) : Host.Outcome State Fault Refusal :=
  load 1 (sext 8) rd rs1 imm s

/-- LH: a halfword, sign-extended (R192). -/
def execLh (rd rs1 : RegIdx) (imm : BitVec 12) (s : State) : Host.Outcome State Fault Refusal :=
  load 2 (sext 16) rd rs1 imm s

/-- LW: a word (R193). -/
def execLw (rd rs1 : RegIdx) (imm : BitVec 12) (s : State) : Host.Outcome State Fault Refusal :=
  load 4 id rd rs1 imm s

/-- LBU: one byte, zero-extended (R194). -/
def execLbu (rd rs1 : RegIdx) (imm : BitVec 12) (s : State) : Host.Outcome State Fault Refusal :=
  load 1 (zext 8) rd rs1 imm s

/-- LHU: a halfword, zero-extended (R195). -/
def execLhu (rd rs1 : RegIdx) (imm : BitVec 12) (s : State) : Host.Outcome State Fault Refusal :=
  load 2 (zext 16) rd rs1 imm s

end Sys2Proof.Machine
end

