-- ==== Sys2Proof/Machine/Op.lean ====
section
/-! DEFINITION. The ten register-register instructions of the base set (46_op.md). Overflow is never detected (R236). -/

namespace Sys2Proof.Machine

/-- `x[rd] <- op(x[rs1], x[rs2]); pc <- pc + 4`, both sources read before the write (R225, R240). -/
def aluReg (op : Word → Word → Word) (rd rs1 rs2 : RegIdx) (s : State) : Host.Outcome State Fault Refusal :=
  writeBack s rd (op (s.getReg rs1) (s.getReg rs2))

/-- ADD: `x[rs1] + x[rs2]`, modulo 2^32 (R226). -/
def execAdd (rd rs1 rs2 : RegIdx) (s : State) : Host.Outcome State Fault Refusal :=
  aluReg (fun a b => a + b) rd rs1 rs2 s

/-- SUB: `x[rs1] - x[rs2]`, modulo 2^32 (R227). -/
def execSub (rd rs1 rs2 : RegIdx) (s : State) : Host.Outcome State Fault Refusal :=
  aluReg (fun a b => a - b) rd rs1 rs2 s

/-- SLL: `x[rs1] << x[rs2][4:0]` (R228). -/
def execSll (rd rs1 rs2 : RegIdx) (s : State) : Host.Outcome State Fault Refusal :=
  aluReg (fun a b => a <<< regShamt b) rd rs1 rs2 s

/-- SLT: 1 if `s(x[rs1]) < s(x[rs2])` else 0 (R229). -/
def execSlt (rd rs1 rs2 : RegIdx) (s : State) : Host.Outcome State Fault Refusal :=
  aluReg (fun a b => boolWord (ltSigned a b)) rd rs1 rs2 s

/-- SLTU: 1 if `u(x[rs1]) < u(x[rs2])` else 0 (R230). -/
def execSltu (rd rs1 rs2 : RegIdx) (s : State) : Host.Outcome State Fault Refusal :=
  aluReg (fun a b => boolWord (ltUnsigned a b)) rd rs1 rs2 s

/-- XOR: `x[rs1] ^ x[rs2]` (R231). -/
def execXor (rd rs1 rs2 : RegIdx) (s : State) : Host.Outcome State Fault Refusal :=
  aluReg (fun a b => a ^^^ b) rd rs1 rs2 s

/-- SRL: `x[rs1] >> x[rs2][4:0]` (R232). -/
def execSrl (rd rs1 rs2 : RegIdx) (s : State) : Host.Outcome State Fault Refusal :=
  aluReg (fun a b => a >>> regShamt b) rd rs1 rs2 s

/-- SRA: `x[rs1] >>s x[rs2][4:0]` (R233). -/
def execSra (rd rs1 rs2 : RegIdx) (s : State) : Host.Outcome State Fault Refusal :=
  aluReg (fun a b => a.sshiftRight (regShamt b)) rd rs1 rs2 s

/-- OR: `x[rs1] | x[rs2]` (R234). -/
def execOr (rd rs1 rs2 : RegIdx) (s : State) : Host.Outcome State Fault Refusal :=
  aluReg (fun a b => a ||| b) rd rs1 rs2 s

/-- AND: `x[rs1] & x[rs2]` (R235). -/
def execAnd (rd rs1 rs2 : RegIdx) (s : State) : Host.Outcome State Fault Refusal :=
  aluReg (fun a b => a &&& b) rd rs1 rs2 s

end Sys2Proof.Machine
end

