-- ==== Sys2Proof/Machine/MulDiv.lean ====
section
/-! DEFINITION. The eight multiply and divide instructions (47_muldiv.md): the exact integer first, then narrowed. None fails. -/

namespace Sys2Proof.Machine

/-- Bits 31:0 of an integer written as a two's-complement pattern (R241). -/
def lowWord (p : Int) : Word := BitVec.ofInt 32 p

/-- Bits 63:32 of an integer written as a 64-bit two's-complement pattern (R242 to R244). -/
def highWord (p : Int) : Word := (BitVec.ofInt 64 p).extractLsb' 32 32

/-- The signed quotient: -1 by zero, -2^31 on overflow, else rounded toward zero (R245). -/
def divSigned (a b : Int) : Int :=
  if b = 0 then -1 else if a = -2147483648 ∧ b = -1 then -2147483648 else a.tdiv b

/-- The signed remainder: the dividend by zero, 0 on overflow, else `a - b * trunc(a / b)` (R247). -/
def remSigned (a b : Int) : Int :=
  if b = 0 then a else if a = -2147483648 ∧ b = -1 then 0 else a - b * a.tdiv b

/-- The unsigned quotient: 2^32 - 1 by zero, else rounded down (R246). -/
def divUnsigned (a b : Nat) : Nat := if b = 0 then 4294967295 else a / b

/-- The unsigned remainder: the dividend by zero, else `a mod b` (R248). -/
def remUnsigned (a b : Nat) : Nat := if b = 0 then a else a % b

/-- MUL: the low word of the product (R241). -/
def execMul (rd rs1 rs2 : RegIdx) (s : State) : Host.Outcome State Fault Refusal :=
  aluReg (fun a b => lowWord (a.toInt * b.toInt)) rd rs1 rs2 s

/-- MULH: the high word of signed by signed (R242). -/
def execMulh (rd rs1 rs2 : RegIdx) (s : State) : Host.Outcome State Fault Refusal :=
  aluReg (fun a b => highWord (a.toInt * b.toInt)) rd rs1 rs2 s

/-- MULHSU: the high word of signed rs1 by unsigned rs2 (R243). -/
def execMulhsu (rd rs1 rs2 : RegIdx) (s : State) : Host.Outcome State Fault Refusal :=
  aluReg (fun a b => highWord (a.toInt * (b.toNat : Int))) rd rs1 rs2 s

/-- MULHU: the high word of unsigned by unsigned (R244). -/
def execMulhu (rd rs1 rs2 : RegIdx) (s : State) : Host.Outcome State Fault Refusal :=
  aluReg (fun a b => highWord ((a.toNat : Int) * (b.toNat : Int))) rd rs1 rs2 s

/-- DIV: the signed quotient (R245). -/
def execDiv (rd rs1 rs2 : RegIdx) (s : State) : Host.Outcome State Fault Refusal :=
  aluReg (fun a b => BitVec.ofInt 32 (divSigned a.toInt b.toInt)) rd rs1 rs2 s

/-- DIVU: the unsigned quotient (R246). -/
def execDivu (rd rs1 rs2 : RegIdx) (s : State) : Host.Outcome State Fault Refusal :=
  aluReg (fun a b => BitVec.ofNat 32 (divUnsigned a.toNat b.toNat)) rd rs1 rs2 s

/-- REM: the signed remainder (R247). -/
def execRem (rd rs1 rs2 : RegIdx) (s : State) : Host.Outcome State Fault Refusal :=
  aluReg (fun a b => BitVec.ofInt 32 (remSigned a.toInt b.toInt)) rd rs1 rs2 s

/-- REMU: the unsigned remainder (R248). -/
def execRemu (rd rs1 rs2 : RegIdx) (s : State) : Host.Outcome State Fault Refusal :=
  aluReg (fun a b => BitVec.ofNat 32 (remUnsigned a.toNat b.toNat)) rd rs1 rs2 s

end Sys2Proof.Machine
end

