-- ==== Sys2Proof/Machine/OpImm.lean ====
section
/-! DEFINITION. The nine register-immediate instructions (45_op_imm.md). Every immediate is sign-extended first. -/

namespace Sys2Proof.Machine

/-- `x[rd] <- op(x[rs1], immI); pc <- pc + 4` (R210). -/
def aluImm (op : Word → Word → Word) (rd rs1 : RegIdx) (imm : BitVec 12) (s : State) : Host.Outcome State Fault Refusal :=
  writeBack s rd (op (s.getReg rs1) (imm12 imm))

/-- `x[rd] <- op(x[rs1], shamt); pc <- pc + 4` (R210, 30_encoding.md rule R95). -/
def shiftImm (op : Word → Nat → Word) (rd rs1 : RegIdx) (shamt : BitVec 5) (s : State) : Host.Outcome State Fault Refusal :=
  writeBack s rd (op (s.getReg rs1) shamt.toNat)

/-- ADDI: `x[rs1] + immI`, modulo 2^32 (R211). -/
def execAddi (rd rs1 : RegIdx) (imm : BitVec 12) (s : State) : Host.Outcome State Fault Refusal :=
  aluImm (fun a b => a + b) rd rs1 imm s

/-- SLTI: 1 if `s(x[rs1]) < s(immI)` else 0 (R212). -/
def execSlti (rd rs1 : RegIdx) (imm : BitVec 12) (s : State) : Host.Outcome State Fault Refusal :=
  aluImm (fun a b => boolWord (ltSigned a b)) rd rs1 imm s

/-- SLTIU: 1 if `u(x[rs1]) < u(immI)` else 0, the immediate sign-extended and then read as unsigned (R213). -/
def execSltiu (rd rs1 : RegIdx) (imm : BitVec 12) (s : State) : Host.Outcome State Fault Refusal :=
  aluImm (fun a b => boolWord (ltUnsigned a b)) rd rs1 imm s

/-- XORI: `x[rs1] ^ immI` (R214). -/
def execXori (rd rs1 : RegIdx) (imm : BitVec 12) (s : State) : Host.Outcome State Fault Refusal :=
  aluImm (fun a b => a ^^^ b) rd rs1 imm s

/-- ORI: `x[rs1] | immI` (R215). -/
def execOri (rd rs1 : RegIdx) (imm : BitVec 12) (s : State) : Host.Outcome State Fault Refusal :=
  aluImm (fun a b => a ||| b) rd rs1 imm s

/-- ANDI: `x[rs1] & immI` (R216). -/
def execAndi (rd rs1 : RegIdx) (imm : BitVec 12) (s : State) : Host.Outcome State Fault Refusal :=
  aluImm (fun a b => a &&& b) rd rs1 imm s

/-- SLLI: `x[rs1] << shamt` (R217). -/
def execSlli (rd rs1 : RegIdx) (shamt : BitVec 5) (s : State) : Host.Outcome State Fault Refusal :=
  shiftImm (fun a k => a <<< k) rd rs1 shamt s

/-- SRLI: `x[rs1] >> shamt`, zeros entering at the left (R218). -/
def execSrli (rd rs1 : RegIdx) (shamt : BitVec 5) (s : State) : Host.Outcome State Fault Refusal :=
  shiftImm (fun a k => a >>> k) rd rs1 shamt s

/-- SRAI: `x[rs1] >>s shamt`, copies of bit 31 entering at the left (R219). -/
def execSrai (rd rs1 : RegIdx) (shamt : BitVec 5) (s : State) : Host.Outcome State Fault Refusal :=
  shiftImm (fun a k => a.sshiftRight k) rd rs1 shamt s

end Sys2Proof.Machine
end

