-- ==== Sys2Proof/Machine/Stores.lean ====
section
/-! DEFINITION. The three stores (44_stores.md). No alignment is required (20_memory.md rule R55). -/

namespace Sys2Proof.Machine

/-- A store of the low n bytes of `x[rs2]`: a failing write stores no byte and leaves pc alone (R200). -/
def store (n : Nat) (rs2 rs1 : RegIdx) (imm : BitVec 12) (s : State) : Host.Outcome State Fault Refusal :=
  match memWrite s (effectiveAddr s rs1 imm) n (s.getReg rs2) with
  | .ok t => goTo t s.nextPc
  | .error f => raise f

/-- SB: stores `x[rs2][7:0]` (R201). -/
def execSb (rs2 rs1 : RegIdx) (imm : BitVec 12) (s : State) : Host.Outcome State Fault Refusal :=
  store 1 rs2 rs1 imm s

/-- SH: stores `x[rs2][15:0]` (R202). -/
def execSh (rs2 rs1 : RegIdx) (imm : BitVec 12) (s : State) : Host.Outcome State Fault Refusal :=
  store 2 rs2 rs1 imm s

/-- SW: stores the whole of `x[rs2]` (R203). -/
def execSw (rs2 rs1 : RegIdx) (imm : BitVec 12) (s : State) : Host.Outcome State Fault Refusal :=
  store 4 rs2 rs1 imm s

end Sys2Proof.Machine
end

