-- ==== Sys2Proof/Machine/System.lean ====
section
/-! DEFINITION. Fences, environment instructions and the UNDEF sentinel (48_system_fence.md). -/

namespace Sys2Proof.Machine

/-- FENCE: `pc <- pc + 4`; its five fields are carried by the word and ignored (R255, D12). -/
def execFence (_rd _rs1 : RegIdx) (_succ _pred _fm : BitVec 4) (s : State) : Host.Outcome State Fault Refusal :=
  goTo s s.nextPc

/-- FENCE_TSO: `pc <- pc + 4` (R256). -/
def execFenceTso (s : State) : Host.Outcome State Fault Refusal := goTo s s.nextPc

/-- PAUSE: `pc <- pc + 4` (R257). -/
def execPause (s : State) : Host.Outcome State Fault Refusal := goTo s s.nextPc

/-- ECALL: raises EnvironmentCall(pc), always (R258). -/
def execEcall (s : State) : Host.Outcome State Fault Refusal := raise (.environmentCall s.pc)

/-- EBREAK: raises Breakpoint(pc), always (R259). -/
def execEbreak (s : State) : Host.Outcome State Fault Refusal := raise (.breakpoint s.pc)

/-- The executor of the sentinel: raises UndefinedInstruction(w), always (R260). It is no arm of exec: no Instr stands for it. -/
def execUndef (w : Word) (_s : State) : Host.Outcome State Fault Refusal := raise (.undefinedInstruction w)

end Sys2Proof.Machine
end

