-- ==== Sys2Proof/Machine/UpperImm.lean ====
section
/-! DEFINITION. LUI and AUIPC (40_upper_immediate.md). -/

namespace Sys2Proof.Machine

/-- LUI: `x[rd] <- immU; pc <- pc + 4` (R160). -/
def execLui (rd : RegIdx) (imm : BitVec 20) (s : State) : Host.Outcome State Fault Refusal :=
  writeBack s rd (immUpper imm)

/-- AUIPC: `x[rd] <- pc + immU; pc <- pc + 4`, pc being the address of the AUIPC itself (R161). -/
def execAuipc (rd : RegIdx) (imm : BitVec 20) (s : State) : Host.Outcome State Fault Refusal :=
  writeBack s rd (s.pc + immUpper imm)

end Sys2Proof.Machine
end

