-- ==== Sys2Proof/Machine/Step.lean ====
section
/-! DEFINITION. The step (60_exceptions.md rule R270): fetch, decode, execute. -/

namespace Sys2Proof.Machine

/-- The execution of a word: its instruction's executor, or the sentinel's (R260, R270). -/
def execWord (w : Word) (s : State) : Host.Outcome State Fault Refusal :=
  match decode w with
  | some i => exec i s
  | none => execUndef w s

/-- One step: the fetch may raise FetchFault, decoding cannot fail, the executor may raise one failure (R270, R275). -/
def step (s : State) : Host.Outcome State Fault Refusal :=
  match fetch s with
  | .ok w => execWord w s
  | .error f => raise f

/-- The state with an instruction's word stored at pc, where the step fetches; bits at and above nbits are 0. A pc outside memory
holds no instruction (R51), and then the state is left as it is. Log entry 7. -/
def State.withFetchWord (s : State) (nbits w : Nat) : State :=
  match memWrite s s.pc 4 (BitVec.ofNat 32 (w % 2 ^ nbits)) with
  | .ok t => t
  | .error _ => s

end Sys2Proof.Machine
end

