-- ==== Sys2Proof/Machine/HostAccess.lean ====
section
/-! DEFINITION. What the host may do between steps: run steps, read and write registers, pc and memory, load a program
(10_state.md rules R40 to R43; 70_reset_and_hazards.md rule R302). Register access is `State.getReg` and `State.setReg` (R41). -/

namespace Sys2Proof.Machine

/-- What ends a call of `cycle` or `cycles`: a failure of R271, or a refusal of the model's. -/
inductive Stop where
  | failure (f : Fault)
  | refusal (r : Refusal)
  deriving DecidableEq, Repr

/-- `cycle()`: one step. A failure is returned to the host, and pc, registers and memory are as they were (R43, R272). -/
def cycle (s : State) : State × Option Stop :=
  match step s with
  | .next t => (t, none)
  | .fault f => (s, some (.failure f))
  | .refused r => (s, some (.refusal r))

/-- `cycles(n)`: n steps in sequence; the first failure ends the call and is returned (R43, R273, D23). -/
def cycles : Nat → State → State × Option Stop
  | 0, s => (s, none)
  | n + 1, s =>
    match cycle s with
    | (t, none) => cycles n t
    | (t, some x) => (t, some x)

/-- The host's read of one byte of memory (R42). -/
def hostReadByte (s : State) (a : Fin Config.memSize) : Byte := s.mem.read a.val

/-- The host's write of one byte of memory (R42). -/
def hostWriteByte (s : State) (a : Fin Config.memSize) (v : Byte) : State := { s with mem := s.mem.write a.val v }

/-- Loading a program: word i little-endian at `base + 4i` (R302, D22); none when a word would lie outside memory. -/
def loadProgram (s : State) (base : Word) : List Word → Option State
  | [] => some s
  | w :: ws =>
    match memWrite s base 4 w with
    | .ok t => loadProgram t (base + 4#32) ws
    | .error _ => none

end Sys2Proof.Machine
end

