-- ==== Sys2Proof/Machine/Text.lean ====
section
/-! DEFINITION. The two text forms: the normalized input form (30_encoding.md rules R140 to R146, R150, R151) and the rendered form
(R147 to R149), with their failures (R145, R149; 60_exceptions.md rule R291), which touch no machine state. -/

namespace Sys2Proof.Machine

/-! ### Mnemonics (R151) -/

/-- The registry's name of an instruction, the first token of its line (R151). UNDEF has no spelling; the name given here is
accepted by nothing. -/
def nameOf : InstrId → String
  | .lui => "lui"
  | .auipc => "auipc"
  | .jal => "jal"
  | .jalr => "jalr"
  | .beq => "beq"
  | .bne => "bne"
  | .blt => "blt"
  | .bge => "bge"
  | .bltu => "bltu"
  | .bgeu => "bgeu"
  | .lb => "lb"
  | .lh => "lh"
  | .lw => "lw"
  | .lbu => "lbu"
  | .lhu => "lhu"
  | .sb => "sb"
  | .sh => "sh"
  | .sw => "sw"
  | .addi => "addi"
  | .slti => "slti"
  | .sltiu => "sltiu"
  | .xori => "xori"
  | .ori => "ori"
  | .andi => "andi"
  | .slli => "slli"
  | .srli => "srli"
  | .srai => "srai"
  | .add => "add"
  | .sub => "sub"
  | .sll => "sll"
  | .slt => "slt"
  | .sltu => "sltu"
  | .xor => "xor"
  | .srl => "srl"
  | .sra => "sra"
  | .or => "or"
  | .and => "and"
  | .mul => "mul"
  | .mulh => "mulh"
  | .mulhsu => "mulhsu"
  | .mulhu => "mulhu"
  | .div => "div"
  | .divu => "divu"
  | .rem => "rem"
  | .remu => "remu"
  | .fence => "fence"
  | .fenceTso => "fence.tso"
  | .pause => "pause"
  | .ecall => "ecall"
  | .ebreak => "ebreak"
  | .undef => ""

/-- The instruction a token names; there are no pseudo-instructions (R150). -/
def mnemonicId (tok : Text) : Option InstrId :=
  allInstrIds.find? fun id => id != .undef && (nameOf id).toList == tok

/-! ### Failures of the text software (R145, R149) -/

/-- Why a line does not assemble: "kind + offending value" (R145). R145 does not say which value each kind carries (log
entry 5): a wrong arity carries the mnemonic and how many operand tokens were given, the model's DESIGN CHOICE; an unknown mnemonic
and a bad operand carry the token, which is DEDUCED. -/
inductive AsmError where
  | unknownMnemonic (tok : Text)
  | arity (id : InstrId) (given : Nat)
  | badOperand (tok : Text)
  deriving DecidableEq, Repr

/-- Why a word does not render (R149): it decodes to UNDEF. -/
inductive RenderError where
  | unimplementedInstruction (w : Word)
  deriving DecidableEq, Repr

/-! ### Tokens (R140, R142, R143) -/

/-- A line split at each space. -/
def splitSpaces : Text → List Text
  | [] => [[]]
  | c :: rest =>
    if c = ' ' then [] :: splitSpaces rest
    else
      match splitSpaces rest with
      | t :: ts => (c :: t) :: ts
      | [] => [[c]]

/-- Decimal digits read on from a value; none at the first character that is no digit. -/
def digitsFrom : Nat → Text → Option Nat
  | n, [] => some n
  | n, c :: cs => if c.isDigit then digitsFrom (n * 10 + (c.toNat - 48)) cs else none

/-- One or more decimal digits. -/
def parseNat (t : Text) : Option Nat := if t = [] then none else digitsFrom 0 t

/-- A register number of at most 31 (R143, D16). -/
def parseIndex (t : Text) : Option RegIdx :=
  match parseNat t with
  | some n => if n < 32 then some (BitVec.ofNat 5 n) else none
  | none => none

/-- A register token: `x` and an index (R143). -/
def parseReg : Text → Option RegIdx
  | [] => none
  | c :: rest => if c = 'x' then parseIndex rest else none

/-- An immediate token: an optional `-` and decimal digits, from -2^31 to 2^32 - 1, as its two's-complement pattern (R142). -/
def parseImm : Text → Option Word
  | [] => none
  | c :: rest =>
    if c = '-' then
      match parseNat rest with
      | some n => if n ≤ 2147483648 then some (-BitVec.ofNat 32 n) else none
      | none => none
    else
      match parseNat (c :: rest) with
      | some n => if n < 4294967296 then some (BitVec.ofNat 32 n) else none
      | none => none

/-- A parse that fails becomes the failure that names the token (R145). -/
def operand {α : Type} (p : Text → Option α) (tok : Text) : Except AsmError α :=
  match p tok with
  | some v => .ok v
  | none => .error (.badOperand tok)

/-! ### Assembling (R140, R141, R144) -/

/-- The ports of a mnemonic from its operand tokens, in the order R141 gives its format, with the arity R144 gives it. Arity is
looked at before the operands, and the operands from left to right (log entry 5). FENCE's registers are plain numbers. -/
def parsePorts (id : InstrId) (toks : List Text) : Except AsmError Ports :=
  match formatOf id, toks with
  | .r, [a, b, c] => do
    let rd ← operand parseReg a
    let rs1 ← operand parseReg b
    let rs2 ← operand parseReg c
    return { rd, rs1, rs2 }
  | .i, [a, b, c] => do
    let rd ← operand parseReg a
    let rs1 ← operand parseReg b
    let imm ← operand parseImm c
    return { rd, rs1, imm }
  | .shift, [a, b, c] => do
    let rd ← operand parseReg a
    let rs1 ← operand parseReg b
    let imm ← operand parseImm c
    return { rd, rs1, imm }
  | .s, [a, b, c] => do
    let rs2 ← operand parseReg a
    let rs1 ← operand parseReg b
    let imm ← operand parseImm c
    return { rs2, rs1, imm }
  | .b, [a, b, c] => do
    let rs1 ← operand parseReg a
    let rs2 ← operand parseReg b
    let imm ← operand parseImm c
    return { rs1, rs2, imm }
  | .u, [a, b] => do
    let rd ← operand parseReg a
    let imm ← operand parseImm b
    return { rd, imm }
  | .j, [a, b] => do
    let rd ← operand parseReg a
    let imm ← operand parseImm b
    return { rd, imm }
  | .fence, [a, b, c, d, e] => do
    let rd ← operand parseIndex a
    let rs1 ← operand parseIndex b
    let succ ← operand parseImm c
    let pred ← operand parseImm d
    let fm ← operand parseImm e
    return { rd, rs1, succ, pred, fm }
  | .fixed, [] => return {}
  | _, _ => .error (.arity id toks.length)

/-- `assemble(text)`: the word the mnemonic's encoder gives for the parsed operands, or a failure and no word (R140, R145). -/
def assemble (line : Text) : Except AsmError Word :=
  match splitSpaces line with
  | [] => .error (.unknownMnemonic [])
  | m :: toks =>
    match mnemonicId m with
    | none => .error (.unknownMnemonic m)
    | some id =>
      match parsePorts id toks with
      | .ok p => .ok (encodePorts id p)
      | .error e => .error e

/-- `assemble_program(lines)`: each line in order; the first failure aborts the whole call (R146). -/
def assembleProgram : List Text → Except AsmError (List Word)
  | [] => .ok []
  | line :: rest =>
    match assemble line with
    | .error e => .error e
    | .ok w =>
      match assembleProgram rest with
      | .error e => .error e
      | .ok ws => .ok (w :: ws)

/-! ### Writing numbers and registers -/

/-- The decimal digits of n before acc, for a number of at most `fuel` digits. -/
def digitsBefore : Nat → Nat → Text → Text
  | 0, _, acc => acc
  | fuel + 1, n, acc =>
    if n / 10 = 0 then Char.ofNat (n % 10 + 48) :: acc
    else digitsBefore fuel (n / 10) (Char.ofNat (n % 10 + 48) :: acc)

/-- A number below 2^32 in decimal: at most ten digits. -/
def writeNat (n : Nat) : Text := digitsBefore 10 n []

/-- A 32-bit pattern in signed decimal (R147). -/
def writeSigned (v : Word) : Text := if v.msb then '-' :: writeNat (4294967296 - v.toNat) else writeNat v.toNat

/-- `x<digits>` (R22, R140). -/
def writeReg (r : RegIdx) : Text := 'x' :: writeNat r.toNat

/-- Tokens joined by single spaces (R140). -/
def joinSpaces : List Text → Text
  | [] => []
  | [t] => t
  | t :: u :: rest => t ++ ' ' :: joinSpaces (u :: rest)

/-! ### The normalized form of a word (R152, R141) -/

/-- The operand tokens of a word whose instruction is id, in the order of R141. -/
def operandTokens (id : InstrId) (w : Word) : List Text :=
  match formatOf id with
  | .r => [writeReg (rdOf w), writeReg (rs1Of w), writeReg (rs2Of w)]
  | .i => [writeReg (rdOf w), writeReg (rs1Of w), writeSigned (immI w)]
  | .shift => [writeReg (rdOf w), writeReg (rs1Of w), writeNat (shamtOf w).toNat]
  | .s => [writeReg (rs2Of w), writeReg (rs1Of w), writeSigned (immS w)]
  | .b => [writeReg (rs1Of w), writeReg (rs2Of w), writeSigned (immB w)]
  | .u => [writeReg (rdOf w), writeNat (fieldU w).toNat]
  | .j => [writeReg (rdOf w), writeSigned (immJ w)]
  | .fence =>
    [writeNat (rdOf w).toNat, writeNat (rs1Of w).toNat, writeNat (succOf w).toNat, writeNat (predOf w).toNat,
      writeNat (fmOf w).toNat]
  | .fixed | .none => []

/-- `disassemble_to_normalized`: a word in the input form of R141, so that it can be assembled again (R152). -/
def disassembleNormalized (w : Word) : Except RenderError Text :=
  match decodeId w with
  | .undef => .error (.unimplementedInstruction w)
  | id => .ok (joinSpaces ((nameOf id).toList :: operandTokens id w))

/-! ### The rendered form (R147, R148) -/

/-- The register file as a program sees it, x0 zero. -/
def State.regFile (s : State) : Vector Word 32 := s.regs.set 0 0#32

/-- A register in the rendered form; with a machine reference, `=<value>` follows (R148). -/
def renderReg (view : Option State) (r : RegIdx) : Text :=
  match view with
  | none => writeReg r
  | some s => writeReg r ++ '=' :: Config.traceValue (s.getReg r)

/-- The I-format instructions whose rendering the source shows: the register-immediate ones, not the loads or JALR (R147, U10). -/
def isAluImmediate : InstrId → Bool
  | .addi | .slti | .sltiu | .xori | .ori | .andi => true
  | .lui | .auipc | .jal | .jalr | .beq | .bne | .blt | .bge | .bltu | .bgeu | .lb | .lh | .lw | .lbu | .lhu
  | .sb | .sh | .sw | .slli | .srli | .srai
  | .add | .sub | .sll | .slt | .sltu | .xor | .srl | .sra | .or | .and
  | .mul | .mulh | .mulhsu | .mulhu | .div | .divu | .rem | .remu
  | .fence | .fenceTso | .pause | .ecall | .ebreak | .undef => false

/-- The operands of a rendered word, or none where only the mnemonic is rendered. A shape the source does not show is a free value
after the mnemonic (R147, U10, log entry 4). -/
def renderOperands (id : InstrId) (w : Word) (view : Option State) : Option Text :=
  let unshown := some (Config.unshownRendering w (view.map State.regFile))
  match formatOf id with
  | .s => some (renderReg view (rs2Of w) ++ ", ".toList ++ writeSigned (immS w) ++ "(".toList ++ renderReg view (rs1Of w) ++ ")".toList)
  | .j => some (renderReg view (rdOf w) ++ ", ".toList ++ writeSigned (immJ w))
  | .i =>
    if isAluImmediate id then
      some (renderReg view (rdOf w) ++ ", ".toList ++ renderReg view (rs1Of w) ++ ", ".toList ++ writeSigned (immI w))
    else unshown
  | .fence | .fixed | .none => none
  | .r | .b | .u | .shift => unshown

/-- `disassemble(w, machine?)`: `"<mnemonic> <operands...>"`; it reads registers and changes nothing (R147 to R149). -/
def disassemble (w : Word) (view : Option State) : Except RenderError Text :=
  match decodeId w with
  | .undef => .error (.unimplementedInstruction w)
  | id =>
    match renderOperands id w view with
    | none => .ok (nameOf id).toList
    | some ops => .ok ((nameOf id).toList ++ ' ' :: ops)

end Sys2Proof.Machine
end

