-- ==== Sys2Proof/Machine/Registry.lean ====
section
/-! DEFINITION. The instruction registry (30_encoding.md rule R120): "a fixed table mapping every decodable instruction to a
`(name, assembler, disassembler, executor)` quadruple", with the sentinel's entry. It is constant data, not state. -/

namespace Sys2Proof.Machine

/-- An entry of the registry (R120). -/
structure Entry where
  name : String
  assembler : Ports → Word
  disassembler : Word → Option State → Except RenderError Text
  executor : Word → State → Host.Outcome State Fault Refusal

/-- The executor a member of the enumeration stands for, on a word; the sentinel's raises UndefinedInstruction (R260). -/
def executorOf (id : InstrId) (w : Word) (s : State) : Host.Outcome State Fault Refusal :=
  match operandsOf id w with
  | some i => exec i s
  | none => execUndef w s

/-- The registry: a lookup never finds nothing (R120). -/
def registry (id : InstrId) : Entry :=
  { name := nameOf id, assembler := encodePorts id, disassembler := disassemble, executor := executorOf id }

end Sys2Proof.Machine
end

