-- ==== Sys2Proof/Safety.lean ====
section
/-! DEFINITION. The terms claims are stated in: the outcomes of a step, the invariant of the states a run reaches, and when a run is
over (70_reset_and_hazards.md rule R306). -/

namespace Sys2Proof

/-- The next state of an outcome, if it is one. -/
def nextOf : Host.Outcome Machine.State Machine.Fault Machine.Refusal → Option Machine.State
  | .next s => some s
  | .fault _ => none
  | .refused _ => none

/-- The failure of an outcome, if it is one. -/
def faultOf : Host.Outcome Machine.State Machine.Fault Machine.Refusal → Option Machine.Fault
  | .next _ => none
  | .fault f => some f
  | .refused _ => none

/-- What every state reached from reset meets: memory is in its canonical form, and slot 0 of the register file, which nothing
writes, is still zero. Both are the model's own choice of form (log entries 2 and 3, DEDUCED). -/
abbrev Inv (s : Machine.State) : Prop := s.mem.wf = true ∧ s.regs[0] = 0#32

/-- The byte of memory at a byte address of the machine. -/
def byteAt (s : Machine.State) (b : Word) : Byte := s.mem.read b.toNat

/-- The kinds of failure (60_exceptions.md rule R271), for an end condition that names one. -/
inductive FailureKind where
  | undefinedInstruction | fetchFault | memoryFault | environmentCall | breakpoint
  deriving DecidableEq, Repr

/-- The kind of a failure. -/
def kindOf : Machine.Fault → FailureKind
  | .undefinedInstruction _ => .undefinedInstruction
  | .fetchFault _ => .fetchFault
  | .memoryFault _ _ _ => .memoryFault
  | .environmentCall _ => .environmentCall
  | .breakpoint _ => .breakpoint

/-! ### The end of a run -/

/-- The state in which pc first is a, on the run of at most n steps from s; none if a step fails before that, or pc is a in none of
these states. The start counts: with pc at a, no step is made (log entry 10). -/
def reachPc (a : Word) : Nat → Machine.State → Option Machine.State
  | 0, s => if s.pc = a then some s else none
  | n + 1, s =>
    if s.pc = a then some s
    else
      match Machine.cycle s with
      | (t, none) => reachPc a n t
      | (_, some _) => none

/-- How a claim says that a run is over (R306): a step count, an address pc reaches, or a failure of a named kind. -/
inductive EndCondition where
  | afterSteps (n : Nat)
  | atPc (a : Word)
  | onFailure (k : FailureKind)
  deriving DecidableEq, Repr

/-- The state in which the run from s is over under an end condition, if it is over within n steps: after its count of steps, none
of which failed; at the first arrival of pc at its address; or at the first failure, if that is of its kind. -/
def runEnd (e : EndCondition) (n : Nat) (s : Machine.State) : Option Machine.State :=
  match e with
  | .afterSteps k =>
    if k ≤ n then
      match Machine.cycles k s with
      | (t, none) => some t
      | (_, some _) => none
    else none
  | .atPc a => reachPc a n s
  | .onFailure k =>
    match Machine.cycles n s with
    | (t, some (.failure f)) => if kindOf f = k then some t else none
    | (_, some (.refusal _)) => none
    | (_, none) => none

/-- Within n steps the run from s is over under the end condition (R306). -/
def endedBy (e : EndCondition) (n : Nat) (s : Machine.State) : Bool := (runEnd e n s).isSome

/-! ### What a step does, as a claim says it -/

/-- Every one of the n bytes at a is a byte of memory, each address modulo 2^32 (20_memory.md rule R51). -/
def InMemory (a : Word) (n : Nat) : Prop := ∀ i < n, (a + BitVec.ofNat 32 i).toNat < 16777216

/-- The halfword at a, the byte of the lowest address in its lowest place (R52). -/
def halfAt (s : Machine.State) (a : Word) : BitVec 16 := byteAt s (a + 1#32) ++ byteAt s a

/-- The word at a, the byte of the lowest address in its lowest place (R52). -/
def wordAt (s : Machine.State) (a : Word) : Word :=
  byteAt s (a + 3#32) ++ byteAt s (a + 2#32) ++ byteAt s (a + 1#32) ++ byteAt s a

/-- Two states are the same to every program and to the host: pc, every register read and every byte of memory. -/
def SameView (s t : Machine.State) : Prop :=
  s.pc = t.pc ∧ (∀ r, s.getReg r = t.getReg r) ∧ ∀ b : Word, b.toNat < 16777216 → byteAt s b = byteAt t b

/-- Two outcomes are the same to the host: next states of the same view, or the same stop. -/
def SameOutcome : (o p : Host.Outcome Machine.State Machine.Fault Machine.Refusal) → Prop
  | .next s, .next t => SameView s t
  | .fault f, .fault g => f = g
  | .refused r, .refused q => r = q
  | _, _ => False

/-- The outcome is a next state, with pc at `target`, in which a read of rd gives v (x0 still gives 0), every other register reads
as in s, and every byte of memory is as in s. -/
def WritesReg (o : Host.Outcome Machine.State Machine.Fault Machine.Refusal) (s : Machine.State) (rd : RegIdx) (v target : Word) :
    Prop :=
  ∃ t, o = .next t ∧ t.pc = target ∧ (∀ r, t.getReg r = if r = rd ∧ r ≠ 0#5 then v else s.getReg r) ∧
    ∀ b, byteAt t b = byteAt s b

/-- The outcome is a next state, with pc at `target`, in which every register and every byte of memory is as in s. -/
def MovesPc (o : Host.Outcome Machine.State Machine.Fault Machine.Refusal) (s : Machine.State) (target : Word) : Prop :=
  ∃ t, o = .next t ∧ t.pc = target ∧ (∀ r, t.getReg r = s.getReg r) ∧ ∀ b, byteAt t b = byteAt s b

/-- The outcome is a next state, with pc moved on by 4, in which byte i of v stands at a + i for each i below n, every other byte
of memory is as in s, and every register is as in s. -/
def StoresBytes (o : Host.Outcome Machine.State Machine.Fault Machine.Refusal) (s : Machine.State) (a : Word) (n : Nat) (v : Word) :
    Prop :=
  ∃ t, o = .next t ∧ t.pc = s.pc + 4#32 ∧ (∀ r, t.getReg r = s.getReg r) ∧
    (∀ i < n, byteAt t (a + BitVec.ofNat 32 i) = v.extractLsb' (8 * i) 8) ∧
    ∀ b, (∀ i < n, b ≠ a + BitVec.ofNat 32 i) → byteAt t b = byteAt s b

end Sys2Proof
end

