-- ==== Sys2Proof/Certificates/Slice0/Obligations.lean ====
section
/-! DEFINITION. The statements for the provers, each from the numbered rules of spec/ that its docstring names. Where a docstring
says "decision D<n>", the clause is the specification's own decision (92_eei_decisions.md), not the source's. -/

open Sys2Proof Sys2Proof.Machine

/-! ### The bit-field codec -/

/-- Rule R80: the result is the masked word shifted right logically; with a mask of ones from bit lo up it is that field,
zero-extended. -/
def Obligations.GetSliceReadsField : Prop :=
  (∀ (word mask : Word) (offset : Nat), getSlice word mask offset = (word &&& mask) >>> offset) ∧
  ∀ (word : Word) (lo n : Nat), lo + n ≤ 32 →
    getSlice word (BitVec.ofNat 32 ((2 ^ n - 1) * 2 ^ lo)) lo = (word.extractLsb' lo n).setWidth 32

/-- Rule R81: masked bits come from the shifted value, the others are kept, and no more bits than the mask selects are read back;
with the rule's example of a pre-shifted part. -/
def Obligations.SetSliceWritesMaskedBits : Prop :=
  (∀ (word value mask : Word) (offset : Nat),
    setSlice word value mask offset = (word &&& ~~~mask) ||| ((value <<< offset) &&& mask) ∧
    (∀ i, mask.getLsbD i = false → (setSlice word value mask offset).getLsbD i = word.getLsbD i) ∧
    (∀ i, mask.getLsbD i = true →
      (setSlice word value mask offset).getLsbD i = (decide (offset ≤ i) && value.getLsbD (i - offset))) ∧
    getSlice (setSlice word value mask offset) mask offset = value &&& (mask >>> offset)) ∧
  ∀ word imm : Word, (setSlice word (imm >>> 5) 0xFE000000#32 25).extractLsb' 25 7 = imm.extractLsb' 5 7

/-- 30_encoding.md on sign_extend with decision D25 (bit `bit` is the sign bit): the low bits are kept, each bit from the sign bit
up is a copy of it, and the value is the field read as two's complement. -/
def Obligations.SignExtendCopiesSignBit : Prop :=
  ∀ (x : Word) (bit : Nat), bit < 32 →
    (∀ i < 32, (signExtendAt x bit).getLsbD i = x.getLsbD (min i bit)) ∧
    (signExtendAt x bit).toInt =
      if x.getLsbD bit then ((x.toNat % 2 ^ (bit + 1) : Nat) : Int) - 2 ^ (bit + 1)
      else ((x.toNat % 2 ^ (bit + 1) : Nat) : Int)

/-- Rules R90, R91, R92, R94: each immediate getter as a concatenation of word fields, its range and parity, each setter as its
slices and where every immediate bit goes, and the rules' examples. -/
def Obligations.ImmediateFieldsAsStated : Prop :=
  (∀ w imm : Word,
    immI w = (w.extractLsb' 20 12).signExtend 32 ∧ -2048 ≤ (immI w).toInt ∧ (immI w).toInt ≤ 2047 ∧
    setImmI w imm = setSlice w imm 0xFFF00000#32 20 ∧ (setImmI w imm).extractLsb' 20 12 = imm.extractLsb' 0 12) ∧
  (∀ w imm : Word,
    immS w = (w.extractLsb' 25 7 ++ w.extractLsb' 7 5).signExtend 32 ∧ -2048 ≤ (immS w).toInt ∧ (immS w).toInt ≤ 2047 ∧
    setImmS w imm = setSlice (setSlice w imm 0x00000F80#32 7) (imm >>> 5) 0xFE000000#32 25 ∧
    (setImmS w imm).extractLsb' 7 5 = imm.extractLsb' 0 5 ∧ (setImmS w imm).extractLsb' 25 7 = imm.extractLsb' 5 7) ∧
  (∀ w imm : Word,
    immB w =
      (w.extractLsb' 31 1 ++ w.extractLsb' 7 1 ++ w.extractLsb' 25 6 ++ w.extractLsb' 8 4 ++ 0#1).signExtend 32 ∧
    (immB w).getLsbD 0 = false ∧ -4096 ≤ (immB w).toInt ∧ (immB w).toInt ≤ 4094 ∧
    setImmB w imm =
      setSlice
        (setSlice (setSlice (setSlice w (imm >>> 11) 0x00000080#32 7) (imm >>> 1) 0x00000F00#32 8) (imm >>> 5)
          0x7E000000#32 25)
        (imm >>> 12) 0x80000000#32 31 ∧
    (setImmB w imm).extractLsb' 7 1 = imm.extractLsb' 11 1 ∧ (setImmB w imm).extractLsb' 8 4 = imm.extractLsb' 1 4 ∧
    (setImmB w imm).extractLsb' 25 6 = imm.extractLsb' 5 6 ∧ (setImmB w imm).extractLsb' 31 1 = imm.extractLsb' 12 1) ∧
  (∀ w imm : Word,
    immJ w =
      (w.extractLsb' 31 1 ++ w.extractLsb' 12 8 ++ w.extractLsb' 20 1 ++ w.extractLsb' 21 10 ++ 0#1).signExtend 32 ∧
    (immJ w).getLsbD 0 = false ∧ -1048576 ≤ (immJ w).toInt ∧ (immJ w).toInt ≤ 1048574 ∧
    setImmJ w imm =
      setSlice
        (setSlice (setSlice (setSlice w (imm >>> 1) 0x7FE00000#32 21) (imm >>> 11) 0x00100000#32 20) (imm >>> 12)
          0x000FF000#32 12)
        (imm >>> 20) 0x80000000#32 31 ∧
    (setImmJ w imm).extractLsb' 21 10 = imm.extractLsb' 1 10 ∧ (setImmJ w imm).extractLsb' 20 1 = imm.extractLsb' 11 1 ∧
    (setImmJ w imm).extractLsb' 12 8 = imm.extractLsb' 12 8 ∧ (setImmJ w imm).extractLsb' 31 1 = imm.extractLsb' 20 1) ∧
  immI 0x07B00513#32 = 123#32 ∧ immJ 0x0A400F6F#32 = 164#32 ∧ encode (.jal 30#5 164#21) = 0x0A400F6F#32

/-- 30_encoding.md section 3 (R93, R96): what a setter puts in range comes back (B and J with bit 0 cleared), what is out of range
comes back as the sign extension of its low bits, and each setter leaves the rest of the word alone. That a U value out of range
comes back as its low twenty bits, not sign-extended, is the model's reading of R93 and of the range R96 gives U, against R96's
words on what is out of range (log entry 11, DEDUCED). -/
def Obligations.SplitImmediatesComeBack : Prop :=
  ∀ w imm : Word,
    (-2048 ≤ imm.toInt → imm.toInt ≤ 2047 → immI (setImmI w imm) = imm ∧ immS (setImmS w imm) = imm) ∧
    (-4096 ≤ imm.toInt → imm.toInt ≤ 4095 → immB (setImmB w imm) = imm &&& 0xFFFFFFFE#32) ∧
    (-1048576 ≤ imm.toInt → imm.toInt ≤ 1048575 → immJ (setImmJ w imm) = imm &&& 0xFFFFFFFE#32) ∧
    (imm.toNat ≤ 1048575 → fieldU (setImmU w imm) = imm) ∧ fieldU (setImmU w imm) = imm &&& 0x000FFFFF#32 ∧
    immI (setImmI w imm) = (imm.setWidth 12).signExtend 32 ∧ immS (setImmS w imm) = (imm.setWidth 12).signExtend 32 ∧
    immB (setImmB w imm) = ((imm &&& 0xFFFFFFFE#32).setWidth 13).signExtend 32 ∧
    immJ (setImmJ w imm) = ((imm &&& 0xFFFFFFFE#32).setWidth 21).signExtend 32 ∧
    setImmI w imm &&& 0x000FFFFF#32 = w &&& 0x000FFFFF#32 ∧ setImmS w imm &&& 0x01FFF07F#32 = w &&& 0x01FFF07F#32 ∧
    setImmB w imm &&& 0x01FFF07F#32 = w &&& 0x01FFF07F#32 ∧ setImmU w imm &&& 0x00000FFF#32 = w &&& 0x00000FFF#32 ∧
    setImmJ w imm &&& 0x00000FFF#32 = w &&& 0x00000FFF#32

/-! ### Encoders -/

/-- Rules R101, R102, R103, R104, R106: the word of each format, field by field from bit 31 down, exactly which instructions have
the format, that they use its encoder with their constants and operands, and the rules' examples. -/
def Obligations.EncodersLayFieldsOut : Prop :=
  (∀ (op : BitVec 7) (f3 : BitVec 3) (f7 : BitVec 7) (rd rs1 rs2 : RegIdx) (imm : Word),
    encR op f3 f7 rd rs1 rs2 = f7 ++ rs2 ++ rs1 ++ f3 ++ rd ++ op ∧
    encI op f3 rd rs1 imm = imm.extractLsb' 0 12 ++ rs1 ++ f3 ++ rd ++ op ∧
    encS op f3 rs2 rs1 imm = imm.extractLsb' 5 7 ++ rs2 ++ rs1 ++ f3 ++ imm.extractLsb' 0 5 ++ op ∧
    encB op f3 rs1 rs2 imm =
      imm.extractLsb' 12 1 ++ imm.extractLsb' 5 6 ++ rs2 ++ rs1 ++ f3 ++ imm.extractLsb' 1 4 ++ imm.extractLsb' 11 1 ++ op ∧
    encJ op rd imm =
      imm.extractLsb' 20 1 ++ imm.extractLsb' 1 10 ++ imm.extractLsb' 11 1 ++ imm.extractLsb' 12 8 ++ rd ++ op) ∧
  (∀ id : InstrId,
    (formatOf id = .r ↔ id ∈ [InstrId.add, .sub, .sll, .slt, .sltu, .xor, .srl, .sra, .or, .and, .mul, .mulh, .mulhsu, .mulhu,
      .div, .divu, .rem, .remu]) ∧
    (formatOf id = .i ↔ id ∈ [InstrId.jalr, .lb, .lh, .lw, .lbu, .lhu, .addi, .slti, .sltiu, .xori, .ori, .andi]) ∧
    (formatOf id = .s ↔ id ∈ [InstrId.sb, .sh, .sw]) ∧
    (formatOf id = .b ↔ id ∈ [InstrId.beq, .bne, .blt, .bge, .bltu, .bgeu]) ∧ (formatOf id = .j ↔ id = .jal)) ∧
  (∀ p : Ports,
    (∀ id ∈ [InstrId.add, .sub, .sll, .slt, .sltu, .xor, .srl, .sra, .or, .and, .mul, .mulh, .mulhsu, .mulhu, .div, .divu,
        .rem, .remu],
      encodePorts id p = encR (opcodeConst id) (funct3Const id) (funct7Const id) p.rd p.rs1 p.rs2) ∧
    (∀ id ∈ [InstrId.jalr, .lb, .lh, .lw, .lbu, .lhu, .addi, .slti, .sltiu, .xori, .ori, .andi],
      encodePorts id p = encI (opcodeConst id) (funct3Const id) p.rd p.rs1 p.imm) ∧
    (∀ id ∈ [InstrId.sb, .sh, .sw], encodePorts id p = encS (opcodeConst id) (funct3Const id) p.rs2 p.rs1 p.imm) ∧
    (∀ id ∈ [InstrId.beq, .bne, .blt, .bge, .bltu, .bgeu],
      encodePorts id p = encB (opcodeConst id) (funct3Const id) p.rs1 p.rs2 p.imm) ∧
    encodePorts .jal p = encJ (opcodeConst .jal) p.rd p.imm) ∧
  encode (.add 7#5 5#5 6#5) = 0x006283B3#32 ∧ encode (.addi 10#5 0#5 123#12) = 0x07B00513#32 ∧
  encode (.sb 11#5 12#5 9#12) = 0x00B604A3#32 ∧ encode (.bne 5#5 0#5 (-8#13)) = 0xFE029CE3#32 ∧
  encode (.jal 30#5 164#21) = 0x0A400F6F#32

/-- 30_encoding.md section on encoders with decisions D15 (U takes the field value), D14 (funct7 overwrites the top of a shift
immediate), D18 (FENCE's fields), D4 and D19: the layouts that are the specification's own decisions, exactly which instructions
have these formats, their words and the four fixed words, and the rules' examples. -/
def Obligations.DecidedEncodersLayFieldsOut : Prop :=
  (∀ (op : BitVec 7) (f3 : BitVec 3) (f7 : BitVec 7) (rd rs1 : RegIdx) (imm succ pred fm : Word),
    encU op rd imm = imm.extractLsb' 0 20 ++ rd ++ op ∧
    encShift op f3 f7 rd rs1 imm = f7 ++ imm.extractLsb' 0 5 ++ rs1 ++ f3 ++ rd ++ op ∧
    encFence op f3 rd rs1 succ pred fm =
      fm.extractLsb' 0 4 ++ pred.extractLsb' 0 4 ++ succ.extractLsb' 0 4 ++ rs1 ++ f3 ++ rd ++ op) ∧
  (∀ id : InstrId,
    (formatOf id = .u ↔ id ∈ [InstrId.lui, .auipc]) ∧ (formatOf id = .shift ↔ id ∈ [InstrId.slli, .srli, .srai]) ∧
    (formatOf id = .fence ↔ id = .fence) ∧ (formatOf id = .fixed ↔ id ∈ [InstrId.ecall, .ebreak, .fenceTso, .pause])) ∧
  (∀ p : Ports,
    encodePorts .lui p = encU 0x37#7 p.rd p.imm ∧ encodePorts .auipc p = encU 0x17#7 p.rd p.imm ∧
    encodePorts .slli p = encShift 0x13#7 1#3 0x00#7 p.rd p.rs1 p.imm ∧
    encodePorts .srli p = encShift 0x13#7 5#3 0x00#7 p.rd p.rs1 p.imm ∧
    encodePorts .srai p = encShift 0x13#7 5#3 0x20#7 p.rd p.rs1 p.imm ∧
    encodePorts .fence p = encFence 0x0F#7 0#3 p.rd p.rs1 p.succ p.pred p.fm ∧
    encodePorts .ecall p = 0x00000073#32 ∧ encodePorts .ebreak p = 0x00100073#32 ∧
    encodePorts .fenceTso p = 0x8330000F#32 ∧ encodePorts .pause p = 0x0100000F#32) ∧
  encodePorts .lui { rd := 5#5, imm := 0x12345#32 } = 0x123452B7#32 ∧
  encodePorts .srai { rd := 6#5, rs1 := 5#5, imm := 4#32 } = 0x4042D313#32 ∧
  encodePorts .srai { rd := 6#5, rs1 := 5#5, imm := -1#32 } = 0x41F2D313#32 ∧
  encodePorts .fence { succ := 15#32, pred := 15#32 } = 0x0FF0000F#32 ∧
  encode .ecall = 0x00000073#32 ∧ encode .ebreak = 0x00100073#32 ∧ encode .fenceTso = 0x8330000F#32 ∧
  encode .pause = 0x0100000F#32

/-! ### The decoder -/

/-- Rules R123, R124, R132: the arms of the tree that opcode alone, funct3 0 or the whole word decides, with their matches and
masks. -/
def Obligations.DecodeFixedArms : Prop :=
  ∀ w : Word,
    (w.extractLsb' 0 7 = 0x37#7 → decodeId w = .lui) ∧ (w.extractLsb' 0 7 = 0x17#7 → decodeId w = .auipc) ∧
    (w.extractLsb' 0 7 = 0x6F#7 → decodeId w = .jal) ∧
    (w.extractLsb' 0 7 = 0x67#7 → decodeId w = if w.extractLsb' 12 3 = 0#3 then .jalr else .undef) ∧
    (w.extractLsb' 0 7 = 0x73#7 →
      decodeId w = if w = 0x00000073#32 then .ecall else if w = 0x00100073#32 then .ebreak else .undef) ∧
    (decodeId w = .lui ↔ w &&& 0x0000007F#32 = 0x00000037#32) ∧ (decodeId w = .auipc ↔ w &&& 0x0000007F#32 = 0x00000017#32) ∧
    (decodeId w = .jal ↔ w &&& 0x0000007F#32 = 0x0000006F#32) ∧ (decodeId w = .jalr ↔ w &&& 0x0000707F#32 = 0x00000067#32) ∧
    (decodeId w = .ecall ↔ w &&& 0xFFFFFFFF#32 = 0x00000073#32) ∧ (decodeId w = .ebreak ↔ w &&& 0xFFFFFFFF#32 = 0x00100073#32)

/-- Rule R136: exactly which words are UNDEF; decoding one is no error; a step on one raises UndefinedInstruction with the word and
changes no state; rendering one fails. -/
def Obligations.UndefWordsAreTheListedOnes : Prop :=
  ∀ w : Word,
    (decode w = none ↔ decodeId w = .undef) ∧
    (decode w = none ↔
      w.extractLsb' 0 7 ∉ [0x37#7, 0x17#7, 0x6F#7, 0x67#7, 0x63#7, 0x03#7, 0x23#7, 0x13#7, 0x33#7, 0x73#7, 0x0F#7] ∨
      (w.extractLsb' 0 7 = 0x67#7 ∧ w.extractLsb' 12 3 ≠ 0#3) ∨
      (w.extractLsb' 0 7 = 0x63#7 ∧ w.extractLsb' 12 3 ∈ [2#3, 3#3]) ∨
      (w.extractLsb' 0 7 = 0x03#7 ∧ w.extractLsb' 12 3 ∈ [3#3, 6#3, 7#3]) ∨
      (w.extractLsb' 0 7 = 0x23#7 ∧ w.extractLsb' 12 3 ∉ [0#3, 1#3, 2#3]) ∨
      (w.extractLsb' 0 7 = 0x13#7 ∧ w.extractLsb' 12 3 = 5#3 ∧ w.extractLsb' 25 7 ∉ [0x00#7, 0x20#7]) ∨
      (w.extractLsb' 0 7 = 0x33#7 ∧ w.extractLsb' 25 7 ∉ [0x00#7, 0x01#7] ∧
        ¬ (w.extractLsb' 25 7 = 0x20#7 ∧ w.extractLsb' 12 3 ∈ [0#3, 5#3])) ∨
      (w.extractLsb' 0 7 = 0x73#7 ∧ w ≠ 0x00000073#32 ∧ w ≠ 0x00100073#32) ∨
      (w.extractLsb' 0 7 = 0x0F#7 ∧ w.extractLsb' 12 3 ≠ 0#3)) ∧
    (w.extractLsb' 0 2 ≠ 3#2 → decode w = none) ∧
    (decode w = none →
      (∀ s : State, InMemory s.pc 4 → wordAt s s.pc = w →
        step s = .fault (.undefinedInstruction w) ∧ cycle s = (s, some (.failure (.undefinedInstruction w)))) ∧
      ∀ view, disassemble w view = .error (.unimplementedInstruction w)) ∧
    decode 0x00000000#32 = none ∧ decode 0xFFFFFFFF#32 = none

/-- spec/opcode_table.json and the header of 30_encoding.md (the row with the larger mask first): the tree and the table decode
every word alike. -/
def Obligations.TreeAgreesWithTable : Prop := ∀ w : Word, decodeId w = decodeByTable w

/-- 30_encoding.md section on the round trip, with decisions D4, D14 and D15: every well-formed instruction, with every operand at
every value its encoding admits, is read back from its word. -/
def Obligations.DecodeOfEncode : Prop := ∀ i : Instr, i.wellFormed = true → decode (encode i) = some i

/-- The other direction: a decoded instruction is well formed and its word is the one decoded, bit for bit; only SLLI forgets the
seven bits the tree does not look at (decision D14), which its encoder writes as zero. -/
def Obligations.EncodeOfDecode : Prop :=
  ∀ (w : Word) (i : Instr), decode w = some i →
    i.wellFormed = true ∧ encode i = if idOf i = .slli then w &&& 0x01FFFFFF#32 else w

/-- 20_memory.md (little-endian fetch) and 30_encoding.md: an encoded instruction laid out as four bytes, the lowest first, is read
back with the bytes after it left over; fewer than four bytes are refused. -/
def Obligations.DecodeBytesOfEncode : Prop :=
  (∀ (i : Instr) (rest : List Byte), i.wellFormed = true →
    decodeBytes ((encode i).extractLsb' 0 8 :: (encode i).extractLsb' 8 8 :: (encode i).extractLsb' 16 8 ::
      (encode i).extractLsb' 24 8 :: rest) = .ok (i, rest) ∧ decodeTableWord 32 (encode i).toNat = some i) ∧
  ∀ bytes : List Byte, bytes.length < 4 → decodeBytes bytes = .error (.tooShort bytes.length)

/-- 95_test_vectors.md section 2.3: one word of each family, with its operands. -/
def Obligations.KnownWordsDecode : Prop :=
  decode 0x123452B7#32 = some (.lui 5#5 0x12345#20) ∧ decode 0xFF9FF0EF#32 = some (.jal 1#5 (-8#21)) ∧
  decode 0x004280E7#32 = some (.jalr 1#5 5#5 4#12) ∧ decode 0x0062D863#32 = some (.bge 5#5 6#5 16#13) ∧
  decode 0x0082D383#32 = some (.lhu 7#5 5#5 8#12) ∧ decode 0x0062A423#32 = some (.sw 6#5 5#5 8#12) ∧
  decode 0xFFF28313#32 = some (.addi 6#5 5#5 (-1#12)) ∧ decode 0x4042D313#32 = some (.srai 6#5 5#5 4#5) ∧
  decode 0x406283B3#32 = some (.sub 7#5 5#5 6#5) ∧ decode 0x0262A3B3#32 = some (.mulhsu 7#5 5#5 6#5) ∧
  decode 0x0FF1008F#32 = some (.fence 1#5 2#5 15#4 15#4 0#4) ∧ decode 0x00100073#32 = some .ebreak

/-! ### The step -/

/-- 60_exceptions.md section 1, 20_memory.md on the fetch, decision D7: a step fetches the word at pc and runs the instruction it
decodes to, with nothing added around it; a word that is UNDEF, or a pc outside memory, raises its failure. -/
def Obligations.StepRunsDecodedInstruction : Prop :=
  ∀ s : State,
    (∀ i, InMemory s.pc 4 → decode (wordAt s s.pc) = some i → step s = exec i s) ∧
    (InMemory s.pc 4 → decode (wordAt s s.pc) = none → step s = .fault (.undefinedInstruction (wordAt s s.pc))) ∧
    (¬ InMemory s.pc 4 → step s = .fault (.fetchFault s.pc))

/-- Decision D7 (20_memory.md, 60_exceptions.md): the fetch fails exactly when a byte of the word at pc lies at or above 2^24, and
the failure names pc. -/
def Obligations.FetchFaultsExactlyOutsideMemory : Prop :=
  ∀ (s : State) (p : Word), step s = .fault (.fetchFault p) ↔ p = s.pc ∧ 16777216 < s.pc.toNat + 4

/-- The model's own (log entry 7): a word placed with withFetchWord is the one the next step runs, and only its four bytes
change. -/
def Obligations.PlacedWordRunsNext : Prop :=
  ∀ (s : State) (w : Word), InMemory s.pc 4 →
    step (s.withFetchWord 32 w.toNat) = execWord w (s.withFetchWord 32 w.toNat) ∧
    (s.withFetchWord 32 w.toNat).pc = s.pc ∧ (∀ r, (s.withFetchWord 32 w.toNat).getReg r = s.getReg r) ∧
    ∀ b : Word, (∀ i < 4, b ≠ s.pc + BitVec.ofNat 32 i) → byteAt (s.withFetchWord 32 w.toNat) b = byteAt s b

/-- Decision D30 (20_memory.md on fetch coherence): a word stored at pc + 4 is the one the very next step executes. -/
def Obligations.StoredWordRunsNext : Prop :=
  ∀ (s t : State) (rs2 rs1 : RegIdx) (imm : BitVec 12), exec (.sw rs2 rs1 imm) s = .next t →
    effectiveAddr s rs1 imm = s.pc + 4#32 → step t = execWord (s.getReg rs2) t

/-- 60_exceptions.md section 2, decisions D7 and D11: an instruction fails only as its row of the failure table says, and the
failure carries what the table gives it. -/
def Obligations.EachFailureHasItsInstruction : Prop :=
  ∀ (i : Instr) (s : State) (f : Fault), exec i s = .fault f →
    (i = .ecall ∧ f = .environmentCall s.pc) ∨ (i = .ebreak ∧ f = .breakpoint s.pc) ∨
    (∃ rd rs1 imm n,
      (i, n) ∈ [(Instr.lb rd rs1 imm, 1), (.lh rd rs1 imm, 2), (.lw rd rs1 imm, 4), (.lbu rd rs1 imm, 1),
        (.lhu rd rs1 imm, 2)] ∧
      f = .memoryFault .load (s.getReg rs1 + imm.signExtend 32) n ∧ ¬ InMemory (s.getReg rs1 + imm.signExtend 32) n) ∨
    ∃ rs2 rs1 imm n,
      (i, n) ∈ [(Instr.sb rs2 rs1 imm, 1), (.sh rs2 rs1 imm, 2), (.sw rs2 rs1 imm, 4)] ∧
      f = .memoryFault .store (s.getReg rs1 + imm.signExtend 32) n ∧ ¬ InMemory (s.getReg rs1 + imm.signExtend 32) n

/-- 60_exceptions.md section 1: the result of a step is either the next state or one failure; the model never refuses an
instruction. -/
def Obligations.NothingIsRefused : Prop :=
  (∀ (i : Instr) (s : State) (r : Refusal), exec i s ≠ .refused r) ∧ ∀ (s : State) (r : Refusal), step s ≠ .refused r

/-! ### Invariants and reset -/

/-- Every step keeps memory in its canonical form and slot 0 of the register file at zero, from every state that has them. Both are
the model's own choice of form, no rule of the spec: the list of nonzero bytes for the memory that 10_state.md section 5 has zeroed
at reset is log entry 2 (DEDUCED), the stored slot 0 that 10_state.md section 2 lets a model keep is log entry 3 (DEDUCED). -/
def Obligations.StepKeepsInv : Prop := ∀ s t : State, Inv s → step s = .next t → Inv t

/-- The reset state has the invariant: its zeroed memory (10_state.md section 5) in canonical form, and slot 0 at zero. The form and
the slot are the model's own choice, log entries 2 and 3 (DEDUCED). -/
def Obligations.ResetHasInv : Prop := Inv State.reset

/-- Rule R33: pc, every register and every byte of memory are zero after reset, and the first step fetches the word at bytes 0
to 3. -/
def Obligations.ResetZeroesEverything : Prop :=
  State.reset.pc = 0#32 ∧ (∀ r, State.reset.getReg r = 0#32) ∧ (∀ b, byteAt State.reset b = 0#8) ∧
  ∀ s : State, s.pc = State.reset.pc → fetch s = .ok (byteAt s 3#32 ++ byteAt s 2#32 ++ byteAt s 1#32 ++ byteAt s 0#32)

/-- Rule R21: x0 reads as zero whatever was written, a write to it changes nothing, it reads as zero after every instruction, an
instruction whose rd is x0 still reads memory, moves pc and fails, and the stored word of index 0 is never observable. -/
def Obligations.RegisterZeroIsHardwired : Prop :=
  (∀ (s : State) (v : Word), s.getReg 0#5 = 0#32 ∧ s.setReg 0#5 v = s ∧ (s.setReg 0#5 v).getReg 0#5 = 0#32) ∧
  (∀ (i : Instr) (s t : State), exec i s = .next t → t.getReg 0#5 = 0#32) ∧
  (∀ (s : State) (rs1 : RegIdx) (imm : BitVec 12),
    ∀ p ∈ [(Instr.lb 0#5 rs1 imm, 1), (.lh 0#5 rs1 imm, 2), (.lw 0#5 rs1 imm, 4), (.lbu 0#5 rs1 imm, 1),
        (.lhu 0#5 rs1 imm, 2)],
      (InMemory (effectiveAddr s rs1 imm) p.2 → MovesPc (exec p.1 s) s (s.pc + 4#32)) ∧
      (¬ InMemory (effectiveAddr s rs1 imm) p.2 →
        exec p.1 s = .fault (.memoryFault .load (effectiveAddr s rs1 imm) p.2))) ∧
  (∀ (s : State) (rs1 : RegIdx) (imm : BitVec 12) (off : BitVec 21),
    MovesPc (exec (.jal 0#5 off) s) s (s.pc + off.signExtend 32) ∧
    MovesPc (exec (.jalr 0#5 rs1 imm) s) s (jalrTarget Config.jalrClearBit0 (s.getReg rs1 + imm.signExtend 32))) ∧
  ∀ (s : State) (v : Word), SameOutcome (step s) (step { s with regs := s.regs.set 0 v })

/-- 10_state.md section 1 (the machine has no states beyond pc, registers and memory): a step is a function of those three, so two
states that agree on them step alike. -/
def Obligations.StepSeesOnlyPcRegistersMemory : Prop := ∀ s t : State, SameView s t → SameOutcome (step s) (step t)

/-! ### Rules over all instructions -/

/-- 20_memory.md section 1 (only stores write memory): a byte that an instruction changes lies inside the bytes of a store. -/
def Obligations.OnlyStoresChangeMemory : Prop :=
  ∀ (i : Instr) (s t : State) (b : Word), exec i s = .next t → byteAt t b ≠ byteAt s b →
    ∃ rs2 rs1 imm n,
      (i, n) ∈ [(Instr.sb rs2 rs1 imm, 1), (.sh rs2 rs1 imm, 2), (.sw rs2 rs1 imm, 4)] ∧
      ∃ k < n, b = effectiveAddr s rs1 imm + BitVec.ofNat 32 k

/-- 10_state.md section 3, decision D8: every instruction but a jump or a branch moves pc on by 4, and no well-formed instruction
but JALR changes the parity of pc. -/
def Obligations.PcAdvancesByFour : Prop :=
  ∀ (i : Instr) (s t : State), exec i s = .next t →
    (idOf i ∉ [InstrId.jal, .jalr, .beq, .bne, .blt, .bge, .bltu, .bgeu] → t.pc = s.pc + 4#32) ∧
    (i.wellFormed = true → idOf i ≠ .jalr → t.pc.getLsbD 0 = s.pc.getLsbD 0)

/-- 10_state.md section 6 and 60_exceptions.md section 1 on cycle and cycles, decisions D13 (a failing step leaves the state) and
D23 (a failure ends the call): cycle is one step; no steps change nothing, one step is a cycle, a run of m + n steps is a run of m
and then, unless that one was cut short, a run of n; and a cycle that fails after k steps ends every longer run. -/
def Obligations.CyclesCompose : Prop :=
  (∀ s t : State, step s = .next t → cycle s = (t, none)) ∧
  (∀ (s : State) (f : Fault), step s = .fault f → cycle s = (s, some (.failure f))) ∧
  (∀ s : State, cycles 0 s = (s, none) ∧ cycles 1 s = cycle s) ∧
  (∀ (k n : Nat) (s t u : State) (x : Stop), cycles k s = (t, none) → cycle t = (u, some x) → k < n →
    cycles n s = (u, some x)) ∧
  ∀ (m n : Nat) (s : State), cycles (m + n) s =
    match cycles m s with
    | (t, none) => cycles n t
    | (t, some x) => (t, some x)

/-- Decisions D13 and D23 (60_exceptions.md section 2): a failing cycle leaves the state as it was and fails again the same way; a
call of cycles that fails did so at one step, every earlier one complete and no later one begun. -/
def Obligations.FailureIsPrecise : Prop :=
  (∀ (s t : State) (x : Stop), cycle s = (t, some x) → t = s ∧ cycle t = (t, some x)) ∧
  ∀ (n : Nat) (s t : State) (x : Stop), cycles n s = (t, some x) →
    ∃ k < n, cycles k s = (t, none) ∧ cycle t = (t, some x)

/-! ### Memory -/

/-- Rule R52: byte order of stores, loads and the fetch, each width, with the rule's example. -/
def Obligations.MemoryIsLittleEndian : Prop :=
  (∀ (s t : State) (a v : Word), memWrite s a 4 v = .ok t →
    byteAt t a = v.extractLsb' 0 8 ∧ byteAt t (a + 1#32) = v.extractLsb' 8 8 ∧ byteAt t (a + 2#32) = v.extractLsb' 16 8 ∧
    byteAt t (a + 3#32) = v.extractLsb' 24 8) ∧
  (∀ (s t : State) (a v : Word), memWrite s a 2 v = .ok t →
    byteAt t a = v.extractLsb' 0 8 ∧ byteAt t (a + 1#32) = v.extractLsb' 8 8) ∧
  (∀ (s t : State) (a v : Word), memWrite s a 1 v = .ok t → byteAt t a = v.extractLsb' 0 8) ∧
  (∀ (s : State) (a : Word),
    (InMemory a 4 → memRead s a 4 = .ok (wordAt s a)) ∧ (InMemory a 2 → memRead s a 2 = .ok ((halfAt s a).setWidth 32)) ∧
    (InMemory a 1 → memRead s a 1 = .ok ((byteAt s a).setWidth 32))) ∧
  (∀ s : State, InMemory s.pc 4 → fetch s = .ok (wordAt s s.pc)) ∧
  ∀ (s t : State) (a : Word), memWrite s a 4 0x11223344#32 = .ok t →
    memRead t a 1 = .ok 0x44#32 ∧ memRead t (a + 3#32) 1 = .ok 0x11#32 ∧ memRead t (a + 2#32) 2 = .ok 0x1122#32

/-- 20_memory.md on mixed widths and decision D27: a load at the address and width of a store gives the low bytes stored, and a
load apart from the store gives what it gave before. -/
def Obligations.LoadAfterStore : Prop :=
  ∀ (s t : State) (a v : Word) (n : Nat), n ∈ [1, 2, 4] → memWrite s a n v = .ok t →
    memRead t a n = .ok (v &&& BitVec.ofNat 32 (2 ^ (8 * n) - 1)) ∧
    ∀ (b : Word) (m : Nat), m ∈ [1, 2, 4] →
      (∀ i < n, ∀ j < m, a + BitVec.ofNat 32 i ≠ b + BitVec.ofNat 32 j) → memRead t b m = memRead s b m

/-- Decision D22 (10_state.md and 70_reset_and_hazards.md on loading): word i of a loaded program stands at base + 4i and is what a
step there fetches, pc and registers are untouched, and every byte outside the program is as before. -/
def Obligations.LoadedProgramIsFetched : Prop :=
  ∀ (s t : State) (base : Word) (ws : List Word), loadProgram s base ws = some t →
    (∀ (i : Nat) (h : i < ws.length), fetch (t.setPc (base + BitVec.ofNat 32 (4 * i))) = .ok (ws[i]'h)) ∧
    t.pc = s.pc ∧ (∀ r, t.getReg r = s.getReg r) ∧
    ∀ b : Word, (∀ k < 4 * ws.length, b ≠ base + BitVec.ofNat 32 k) → byteAt t b = byteAt s b

/-! ### Register-immediate instructions -/

/-- Rule R211: ADDI, for every operand, and its encoding, with the rule's examples. -/
def Obligations.AddiAddsImmediate : Prop :=
  (∀ (rd rs1 : RegIdx) (imm : BitVec 12) (s : State),
    WritesReg (exec (.addi rd rs1 imm) s) s rd (s.getReg rs1 + imm.signExtend 32) (s.pc + 4#32)) ∧
  (∀ w : Word, w &&& 0x0000707F#32 = 0x00000013#32 →
    decode w = some (.addi (w.extractLsb' 7 5) (w.extractLsb' 15 5) (w.extractLsb' 20 12))) ∧
  (∀ rd rs1 imm, encode (.addi rd rs1 imm) &&& 0x0000707F#32 = 0x00000013#32) ∧
  decode 0x07B00513#32 = some (.addi 10#5 0#5 123#12) ∧ decode 0x00500293#32 = some (.addi 5#5 0#5 5#12) ∧
  (decode 0x00000013#32 = some (.addi 0#5 0#5 0#12) ∧ ∀ s : State, MovesPc (exec (.addi 0#5 0#5 0#12) s) s (s.pc + 4#32))

/-- Rules R214, R215, R216: XORI, ORI and ANDI, for every operand, and their encodings, with the rules' corner cases and
examples. -/
def Obligations.LogicalImmediates : Prop :=
  (∀ (rd rs1 : RegIdx) (imm : BitVec 12) (s : State),
    WritesReg (exec (.xori rd rs1 imm) s) s rd (s.getReg rs1 ^^^ imm.signExtend 32) (s.pc + 4#32) ∧
    WritesReg (exec (.ori rd rs1 imm) s) s rd (s.getReg rs1 ||| imm.signExtend 32) (s.pc + 4#32) ∧
    WritesReg (exec (.andi rd rs1 imm) s) s rd (s.getReg rs1 &&& imm.signExtend 32) (s.pc + 4#32)) ∧
  (∀ w : Word,
    (w &&& 0x0000707F#32 = 0x00004013#32 →
      decode w = some (.xori (w.extractLsb' 7 5) (w.extractLsb' 15 5) (w.extractLsb' 20 12))) ∧
    (w &&& 0x0000707F#32 = 0x00006013#32 →
      decode w = some (.ori (w.extractLsb' 7 5) (w.extractLsb' 15 5) (w.extractLsb' 20 12))) ∧
    (w &&& 0x0000707F#32 = 0x00007013#32 →
      decode w = some (.andi (w.extractLsb' 7 5) (w.extractLsb' 15 5) (w.extractLsb' 20 12)))) ∧
  (∀ rd rs1 imm,
    encode (.xori rd rs1 imm) &&& 0x0000707F#32 = 0x00004013#32 ∧ encode (.ori rd rs1 imm) &&& 0x0000707F#32 = 0x00006013#32 ∧
    encode (.andi rd rs1 imm) &&& 0x0000707F#32 = 0x00007013#32) ∧
  (∀ (rd rs1 : RegIdx) (s : State),
    WritesReg (exec (.xori rd rs1 (-1#12)) s) s rd (~~~ s.getReg rs1) (s.pc + 4#32) ∧
    WritesReg (exec (.andi rd rs1 (-1#12)) s) s rd (s.getReg rs1) (s.pc + 4#32)) ∧
  (∀ (imm : BitVec 12) (v : Word),
    (imm.msb = true → (v ||| imm.signExtend 32).extractLsb' 11 21 = -1#21) ∧
    (imm.msb = false → (v &&& imm.signExtend 32).extractLsb' 11 21 = 0#21)) ∧
  decode 0xFFF2C313#32 = some (.xori 6#5 5#5 (-1#12)) ∧ decode 0x0052E313#32 = some (.ori 6#5 5#5 5#12) ∧
  decode 0x0052F313#32 = some (.andi 6#5 5#5 5#12)

/-- SLTI, SLTIU, SLT and SLTU (45_op_imm.md, 46_op.md), whose result values are decision D26, and their encodings. -/
def Obligations.SetLessThanWritesZeroOrOne : Prop :=
  (∀ (rd rs1 : RegIdx) (imm : BitVec 12) (s : State),
    WritesReg (exec (.slti rd rs1 imm) s) s rd (if (s.getReg rs1).toInt < imm.toInt then 1#32 else 0#32) (s.pc + 4#32) ∧
    WritesReg (exec (.sltiu rd rs1 imm) s) s rd
      (if (s.getReg rs1).toNat < (imm.signExtend 32).toNat then 1#32 else 0#32) (s.pc + 4#32)) ∧
  (∀ (rd rs1 rs2 : RegIdx) (s : State),
    WritesReg (exec (.slt rd rs1 rs2) s) s rd (if (s.getReg rs1).toInt < (s.getReg rs2).toInt then 1#32 else 0#32)
      (s.pc + 4#32) ∧
    WritesReg (exec (.sltu rd rs1 rs2) s) s rd (if (s.getReg rs1).toNat < (s.getReg rs2).toNat then 1#32 else 0#32)
      (s.pc + 4#32)) ∧
  ∀ w : Word,
    (w &&& 0x0000707F#32 = 0x00002013#32 →
      decode w = some (.slti (w.extractLsb' 7 5) (w.extractLsb' 15 5) (w.extractLsb' 20 12))) ∧
    (w &&& 0x0000707F#32 = 0x00003013#32 →
      decode w = some (.sltiu (w.extractLsb' 7 5) (w.extractLsb' 15 5) (w.extractLsb' 20 12))) ∧
    (w &&& 0xFE00707F#32 = 0x00002033#32 →
      decode w = some (.slt (w.extractLsb' 7 5) (w.extractLsb' 15 5) (w.extractLsb' 20 5))) ∧
    (w &&& 0xFE00707F#32 = 0x00003033#32 →
      decode w = some (.sltu (w.extractLsb' 7 5) (w.extractLsb' 15 5) (w.extractLsb' 20 5)))

/-- SLLI, SRLI and SRAI (45_op_imm.md), whose five-bit amount is decision D14: each result bit, and the encodings; the decoder
looks at funct7 for the right shifts only. -/
def Obligations.ShiftImmediatesMoveBits : Prop :=
  (∀ (rd rs1 : RegIdx) (shamt : BitVec 5) (s : State),
    WritesReg (exec (.slli rd rs1 shamt) s) s rd (s.getReg rs1 <<< shamt.toNat) (s.pc + 4#32) ∧
    WritesReg (exec (.srli rd rs1 shamt) s) s rd (s.getReg rs1 >>> shamt.toNat) (s.pc + 4#32) ∧
    ∃ v : Word, WritesReg (exec (.srai rd rs1 shamt) s) s rd v (s.pc + 4#32) ∧
      ∀ i < 32, v.getLsbD i = (s.getReg rs1).getLsbD (min (i + shamt.toNat) 31)) ∧
  ∀ w : Word,
    (w &&& 0x0000707F#32 = 0x00001013#32 →
      decode w = some (.slli (w.extractLsb' 7 5) (w.extractLsb' 15 5) (w.extractLsb' 20 5))) ∧
    (w &&& 0xFE00707F#32 = 0x00005013#32 →
      decode w = some (.srli (w.extractLsb' 7 5) (w.extractLsb' 15 5) (w.extractLsb' 20 5))) ∧
    (w &&& 0xFE00707F#32 = 0x40005013#32 →
      decode w = some (.srai (w.extractLsb' 7 5) (w.extractLsb' 15 5) (w.extractLsb' 20 5)))

/-! ### Register-register instructions -/

/-- Rules R226, R227: ADD and SUB, for every operand, and their encodings, with the rules' corner cases and examples. -/
def Obligations.AddAndSubtract : Prop :=
  (∀ (rd rs1 rs2 : RegIdx) (s : State),
    WritesReg (exec (.add rd rs1 rs2) s) s rd (s.getReg rs1 + s.getReg rs2) (s.pc + 4#32) ∧
    WritesReg (exec (.sub rd rs1 rs2) s) s rd (s.getReg rs1 - s.getReg rs2) (s.pc + 4#32)) ∧
  (∀ w : Word,
    (w &&& 0xFE00707F#32 = 0x00000033#32 →
      decode w = some (.add (w.extractLsb' 7 5) (w.extractLsb' 15 5) (w.extractLsb' 20 5))) ∧
    (w &&& 0xFE00707F#32 = 0x40000033#32 →
      decode w = some (.sub (w.extractLsb' 7 5) (w.extractLsb' 15 5) (w.extractLsb' 20 5)))) ∧
  (∀ rd rs1 rs2,
    encode (.add rd rs1 rs2) &&& 0xFE00707F#32 = 0x00000033#32 ∧ encode (.sub rd rs1 rs2) &&& 0xFE00707F#32 = 0x40000033#32) ∧
  (∀ (rd rs : RegIdx) (s : State),
    WritesReg (exec (.sub rd rs rs) s) s rd 0#32 (s.pc + 4#32) ∧
    WritesReg (exec (.sub rd 0#5 rs) s) s rd (-(s.getReg rs)) (s.pc + 4#32)) ∧
  decode 0x006283B3#32 = some (.add 7#5 5#5 6#5) ∧ decode 0x406283B3#32 = some (.sub 7#5 5#5 6#5)

/-- Rules R231, R234, R235: XOR, OR and AND, for every operand, and their encodings, with the rules' corner cases and examples. -/
def Obligations.LogicalRegisters : Prop :=
  (∀ (rd rs1 rs2 : RegIdx) (s : State),
    WritesReg (exec (.xor rd rs1 rs2) s) s rd (s.getReg rs1 ^^^ s.getReg rs2) (s.pc + 4#32) ∧
    WritesReg (exec (.or rd rs1 rs2) s) s rd (s.getReg rs1 ||| s.getReg rs2) (s.pc + 4#32) ∧
    WritesReg (exec (.and rd rs1 rs2) s) s rd (s.getReg rs1 &&& s.getReg rs2) (s.pc + 4#32)) ∧
  (∀ w : Word,
    (w &&& 0xFE00707F#32 = 0x00004033#32 →
      decode w = some (.xor (w.extractLsb' 7 5) (w.extractLsb' 15 5) (w.extractLsb' 20 5))) ∧
    (w &&& 0xFE00707F#32 = 0x00006033#32 →
      decode w = some (.or (w.extractLsb' 7 5) (w.extractLsb' 15 5) (w.extractLsb' 20 5))) ∧
    (w &&& 0xFE00707F#32 = 0x00007033#32 →
      decode w = some (.and (w.extractLsb' 7 5) (w.extractLsb' 15 5) (w.extractLsb' 20 5)))) ∧
  (∀ rd rs1 rs2,
    encode (.xor rd rs1 rs2) &&& 0xFE00707F#32 = 0x00004033#32 ∧ encode (.or rd rs1 rs2) &&& 0xFE00707F#32 = 0x00006033#32 ∧
    encode (.and rd rs1 rs2) &&& 0xFE00707F#32 = 0x00007033#32) ∧
  (∀ (rd rs : RegIdx) (s : State),
    WritesReg (exec (.xor rd rs rs) s) s rd 0#32 (s.pc + 4#32) ∧
    WritesReg (exec (.or rd rs rs) s) s rd (s.getReg rs) (s.pc + 4#32) ∧
    WritesReg (exec (.and rd rs rs) s) s rd (s.getReg rs) (s.pc + 4#32) ∧
    WritesReg (exec (.and rd rs 0#5) s) s rd 0#32 (s.pc + 4#32)) ∧
  decode 0x0062C3B3#32 = some (.xor 7#5 5#5 6#5) ∧ decode 0x0062E3B3#32 = some (.or 7#5 5#5 6#5) ∧
  decode 0x0062F3B3#32 = some (.and 7#5 5#5 6#5)

/-- SLL, SRL and SRA (46_op.md), whose amount is the low five bits of rs2 (decision D14), and their encodings. -/
def Obligations.ShiftRegistersMoveBits : Prop :=
  (∀ (rd rs1 rs2 : RegIdx) (s : State),
    WritesReg (exec (.sll rd rs1 rs2) s) s rd (s.getReg rs1 <<< ((s.getReg rs2).toNat % 32)) (s.pc + 4#32) ∧
    WritesReg (exec (.srl rd rs1 rs2) s) s rd (s.getReg rs1 >>> ((s.getReg rs2).toNat % 32)) (s.pc + 4#32) ∧
    ∃ v : Word, WritesReg (exec (.sra rd rs1 rs2) s) s rd v (s.pc + 4#32) ∧
      ∀ i < 32, v.getLsbD i = (s.getReg rs1).getLsbD (min (i + (s.getReg rs2).toNat % 32) 31)) ∧
  ∀ w : Word,
    (w &&& 0xFE00707F#32 = 0x00001033#32 →
      decode w = some (.sll (w.extractLsb' 7 5) (w.extractLsb' 15 5) (w.extractLsb' 20 5))) ∧
    (w &&& 0xFE00707F#32 = 0x00005033#32 →
      decode w = some (.srl (w.extractLsb' 7 5) (w.extractLsb' 15 5) (w.extractLsb' 20 5))) ∧
    (w &&& 0xFE00707F#32 = 0x40005033#32 →
      decode w = some (.sra (w.extractLsb' 7 5) (w.extractLsb' 15 5) (w.extractLsb' 20 5)))

/-- The corner cases of 45_op_imm.md (SRAI is floor division by a power of two) with decision D14, said of all six shifts: what a
shift makes of the number in its register. -/
def Obligations.ShiftsAsArithmetic : Prop :=
  ∀ (rd rs1 rs2 : RegIdx) (shamt : BitVec 5) (s t : State), rd ≠ 0#5 →
    (exec (.slli rd rs1 shamt) s = .next t → (t.getReg rd).toNat = (s.getReg rs1).toNat * 2 ^ shamt.toNat % 2 ^ 32) ∧
    (exec (.srli rd rs1 shamt) s = .next t → (t.getReg rd).toNat = (s.getReg rs1).toNat / 2 ^ shamt.toNat) ∧
    (exec (.srai rd rs1 shamt) s = .next t → (t.getReg rd).toInt = (s.getReg rs1).toInt.fdiv (2 ^ shamt.toNat)) ∧
    (exec (.sll rd rs1 rs2) s = .next t →
      (t.getReg rd).toNat = (s.getReg rs1).toNat * 2 ^ ((s.getReg rs2).toNat % 32) % 2 ^ 32) ∧
    (exec (.srl rd rs1 rs2) s = .next t →
      (t.getReg rd).toNat = (s.getReg rs1).toNat / 2 ^ ((s.getReg rs2).toNat % 32)) ∧
    (exec (.sra rd rs1 rs2) s = .next t →
      (t.getReg rd).toInt = (s.getReg rs1).toInt.fdiv (2 ^ ((s.getReg rs2).toNat % 32)))

/-! ### Upper immediates, jumps and branches -/

/-- LUI and AUIPC (40_upper_immediate.md), whose operation is decision D26 and whose operand is decision D15, and their
encodings. -/
def Obligations.UpperImmediates : Prop :=
  (∀ (rd : RegIdx) (imm : BitVec 20) (s : State),
    WritesReg (exec (.lui rd imm) s) s rd (imm ++ 0#12) (s.pc + 4#32) ∧
    WritesReg (exec (.auipc rd imm) s) s rd (s.pc + (imm ++ 0#12)) (s.pc + 4#32)) ∧
  ∀ w : Word,
    (w &&& 0x0000007F#32 = 0x00000037#32 → decode w = some (.lui (w.extractLsb' 7 5) (w.extractLsb' 12 20))) ∧
    (w &&& 0x0000007F#32 = 0x00000017#32 → decode w = some (.auipc (w.extractLsb' 7 5) (w.extractLsb' 12 20)))

/-- JAL (41_jumps.md), with decisions D8 and D9: link and target both from the address of the JAL, no check of the target, and the
encoding. -/
def Obligations.JalLinksAndJumps : Prop :=
  (∀ (rd : RegIdx) (imm : BitVec 21) (s : State),
    WritesReg (exec (.jal rd imm) s) s rd (s.pc + 4#32) (s.pc + imm.signExtend 32)) ∧
  ∀ w : Word, w &&& 0x0000007F#32 = 0x0000006F#32 →
    decode w = some (.jal (w.extractLsb' 7 5)
      (w.extractLsb' 31 1 ++ w.extractLsb' 12 8 ++ w.extractLsb' 20 1 ++ w.extractLsb' 21 10 ++ 0#1))

/-- JALR (41_jumps.md), with decisions D5, D6, D8 and D9: the target is the sum of the old rs1 and the immediate, bit 0 cleared
exactly on a build that clears it, whichever build this is; the two builds differ only for an odd sum; and the encoding. -/
def Obligations.JalrLinksAndJumps : Prop :=
  (∀ (rd rs1 : RegIdx) (imm : BitVec 12) (s : State),
    WritesReg (exec (.jalr rd rs1 imm) s) s rd (s.pc + 4#32)
      (if Config.jalrClearBit0 then (s.getReg rs1 + imm.signExtend 32) &&& 0xFFFFFFFE#32
        else s.getReg rs1 + imm.signExtend 32) ∧
    WritesReg (execJalrWith false rd rs1 imm s) s rd (s.pc + 4#32) (s.getReg rs1 + imm.signExtend 32) ∧
    WritesReg (execJalrWith true rd rs1 imm s) s rd (s.pc + 4#32) ((s.getReg rs1 + imm.signExtend 32) &&& 0xFFFFFFFE#32) ∧
    (execJalrWith true rd rs1 imm s = execJalrWith false rd rs1 imm s ↔
      (s.getReg rs1 + imm.signExtend 32).getLsbD 0 = false)) ∧
  ∀ w : Word, w &&& 0x0000707F#32 = 0x00000067#32 →
    decode w = some (.jalr (w.extractLsb' 7 5) (w.extractLsb' 15 5) (w.extractLsb' 20 12))

/-- The six branches (42_branches.md), with decisions D8, D9 and D26 (the predicates): where pc goes, taken or not; nothing else
changes. -/
def Obligations.BranchesMovePcOnly : Prop :=
  ∀ (rs1 rs2 : RegIdx) (imm : BitVec 13) (s : State),
    MovesPc (exec (.beq rs1 rs2 imm) s) s
      (if s.getReg rs1 = s.getReg rs2 then s.pc + imm.signExtend 32 else s.pc + 4#32) ∧
    MovesPc (exec (.bne rs1 rs2 imm) s) s
      (if s.getReg rs1 ≠ s.getReg rs2 then s.pc + imm.signExtend 32 else s.pc + 4#32) ∧
    MovesPc (exec (.blt rs1 rs2 imm) s) s
      (if (s.getReg rs1).toInt < (s.getReg rs2).toInt then s.pc + imm.signExtend 32 else s.pc + 4#32) ∧
    MovesPc (exec (.bge rs1 rs2 imm) s) s
      (if (s.getReg rs1).toInt ≥ (s.getReg rs2).toInt then s.pc + imm.signExtend 32 else s.pc + 4#32) ∧
    MovesPc (exec (.bltu rs1 rs2 imm) s) s
      (if (s.getReg rs1).toNat < (s.getReg rs2).toNat then s.pc + imm.signExtend 32 else s.pc + 4#32) ∧
    MovesPc (exec (.bgeu rs1 rs2 imm) s) s
      (if (s.getReg rs1).toNat ≥ (s.getReg rs2).toNat then s.pc + imm.signExtend 32 else s.pc + 4#32)

/-- The encodings of the six branches (30_encoding.md and 42_branches.md, decision D2): which words they are, and how the offset is
put together from the word, bit 0 zero. -/
def Obligations.BranchWordsDecode : Prop :=
  ∀ w : Word,
    let imm : BitVec 13 := w.extractLsb' 31 1 ++ w.extractLsb' 7 1 ++ w.extractLsb' 25 6 ++ w.extractLsb' 8 4 ++ 0#1
    (w &&& 0x0000707F#32 = 0x00000063#32 → decode w = some (.beq (w.extractLsb' 15 5) (w.extractLsb' 20 5) imm)) ∧
    (w &&& 0x0000707F#32 = 0x00001063#32 → decode w = some (.bne (w.extractLsb' 15 5) (w.extractLsb' 20 5) imm)) ∧
    (w &&& 0x0000707F#32 = 0x00004063#32 → decode w = some (.blt (w.extractLsb' 15 5) (w.extractLsb' 20 5) imm)) ∧
    (w &&& 0x0000707F#32 = 0x00005063#32 → decode w = some (.bge (w.extractLsb' 15 5) (w.extractLsb' 20 5) imm)) ∧
    (w &&& 0x0000707F#32 = 0x00006063#32 → decode w = some (.bltu (w.extractLsb' 15 5) (w.extractLsb' 20 5) imm)) ∧
    (w &&& 0x0000707F#32 = 0x00007063#32 → decode w = some (.bgeu (w.extractLsb' 15 5) (w.extractLsb' 20 5) imm))

/-! ### Loads and stores -/

/-- The five loads (43_loads.md), with decisions D7, D8 and D9: for every address whose bytes are in memory, aligned or not, the
value loaded, and nothing else changes. -/
def Obligations.LoadsExtendMemory : Prop :=
  ∀ (rd rs1 : RegIdx) (imm : BitVec 12) (s : State),
    let a : Word := s.getReg rs1 + imm.signExtend 32
    (InMemory a 1 →
      WritesReg (exec (.lb rd rs1 imm) s) s rd ((byteAt s a).signExtend 32) (s.pc + 4#32) ∧
      WritesReg (exec (.lbu rd rs1 imm) s) s rd ((byteAt s a).setWidth 32) (s.pc + 4#32)) ∧
    (InMemory a 2 →
      WritesReg (exec (.lh rd rs1 imm) s) s rd ((halfAt s a).signExtend 32) (s.pc + 4#32) ∧
      WritesReg (exec (.lhu rd rs1 imm) s) s rd ((halfAt s a).setWidth 32) (s.pc + 4#32)) ∧
    (InMemory a 4 → WritesReg (exec (.lw rd rs1 imm) s) s rd (wordAt s a) (s.pc + 4#32))

/-- The three stores (44_stores.md), with decisions D7, D8 and D9: for every address whose bytes are in memory, aligned or not, the
low bytes of rs2 at the address the meaning computes, and nothing else changes. -/
def Obligations.StoresWriteLowBytes : Prop :=
  ∀ (rs2 rs1 : RegIdx) (imm : BitVec 12) (s : State),
    effectiveAddr s rs1 imm = s.getReg rs1 + imm.signExtend 32 ∧
    (InMemory (effectiveAddr s rs1 imm) 1 →
      StoresBytes (exec (.sb rs2 rs1 imm) s) s (effectiveAddr s rs1 imm) 1 (s.getReg rs2)) ∧
    (InMemory (effectiveAddr s rs1 imm) 2 →
      StoresBytes (exec (.sh rs2 rs1 imm) s) s (effectiveAddr s rs1 imm) 2 (s.getReg rs2)) ∧
    (InMemory (effectiveAddr s rs1 imm) 4 →
      StoresBytes (exec (.sw rs2 rs1 imm) s) s (effectiveAddr s rs1 imm) 4 (s.getReg rs2))

/-- Decision D7 (43_loads.md, 44_stores.md, 60_exceptions.md): a load or store fails exactly when one of its bytes lies at or above
2^24, and the failure carries its kind, its address and its width. -/
def Obligations.AccessOutsideMemoryFails : Prop :=
  ∀ (rd rs1 rs2 : RegIdx) (imm : BitVec 12) (s : State),
    let a : Word := s.getReg rs1 + imm.signExtend 32
    (exec (.lb rd rs1 imm) s = .fault (.memoryFault .load a 1) ↔ 16777216 < a.toNat + 1) ∧
    (exec (.lbu rd rs1 imm) s = .fault (.memoryFault .load a 1) ↔ 16777216 < a.toNat + 1) ∧
    (exec (.lh rd rs1 imm) s = .fault (.memoryFault .load a 2) ↔ 16777216 < a.toNat + 2) ∧
    (exec (.lhu rd rs1 imm) s = .fault (.memoryFault .load a 2) ↔ 16777216 < a.toNat + 2) ∧
    (exec (.lw rd rs1 imm) s = .fault (.memoryFault .load a 4) ↔ 16777216 < a.toNat + 4) ∧
    (exec (.sb rs2 rs1 imm) s = .fault (.memoryFault .store a 1) ↔ 16777216 < a.toNat + 1) ∧
    (exec (.sh rs2 rs1 imm) s = .fault (.memoryFault .store a 2) ↔ 16777216 < a.toNat + 2) ∧
    (exec (.sw rs2 rs1 imm) s = .fault (.memoryFault .store a 4) ↔ 16777216 < a.toNat + 4)

/-- The encodings of the loads and stores (30_encoding.md, 43_loads.md, 44_stores.md, decision D2): which words they are, and where
their operands stand. -/
def Obligations.LoadAndStoreWordsDecode : Prop :=
  ∀ w : Word,
    let rd : RegIdx := w.extractLsb' 7 5
    let rs1 : RegIdx := w.extractLsb' 15 5
    let rs2 : RegIdx := w.extractLsb' 20 5
    let immL : BitVec 12 := w.extractLsb' 20 12
    let immT : BitVec 12 := w.extractLsb' 25 7 ++ w.extractLsb' 7 5
    (w &&& 0x0000707F#32 = 0x00000003#32 → decode w = some (.lb rd rs1 immL)) ∧
    (w &&& 0x0000707F#32 = 0x00001003#32 → decode w = some (.lh rd rs1 immL)) ∧
    (w &&& 0x0000707F#32 = 0x00002003#32 → decode w = some (.lw rd rs1 immL)) ∧
    (w &&& 0x0000707F#32 = 0x00004003#32 → decode w = some (.lbu rd rs1 immL)) ∧
    (w &&& 0x0000707F#32 = 0x00005003#32 → decode w = some (.lhu rd rs1 immL)) ∧
    (w &&& 0x0000707F#32 = 0x00000023#32 → decode w = some (.sb rs2 rs1 immT)) ∧
    (w &&& 0x0000707F#32 = 0x00001023#32 → decode w = some (.sh rs2 rs1 immT)) ∧
    (w &&& 0x0000707F#32 = 0x00002023#32 → decode w = some (.sw rs2 rs1 immT))

/-! ### Multiply and divide -/

/-- MUL, MULH, MULHSU and MULHU (47_muldiv.md, decision D10): the value written is bits 31:0 or 63:32 of the exact product, and
nothing else changes. -/
def Obligations.MultipliesWriteProductHalves : Prop :=
  ∀ (rd rs1 rs2 : RegIdx) (s : State),
    let a : Word := s.getReg rs1
    let b : Word := s.getReg rs2
    WritesReg (exec (.mul rd rs1 rs2) s) s rd (a * b) (s.pc + 4#32) ∧
    WritesReg (exec (.mulh rd rs1 rs2) s) s rd (BitVec.ofInt 32 ((a.toInt * b.toInt).fdiv (2 ^ 32))) (s.pc + 4#32) ∧
    WritesReg (exec (.mulhsu rd rs1 rs2) s) s rd (BitVec.ofInt 32 ((a.toInt * b.toNat).fdiv (2 ^ 32))) (s.pc + 4#32) ∧
    WritesReg (exec (.mulhu rd rs1 rs2) s) s rd (BitVec.ofNat 32 (a.toNat * b.toNat / 2 ^ 32)) (s.pc + 4#32)

/-- 47_muldiv.md, decision D10: the high and the low word of a product together are the exact product, in each reading of the
operands. -/
def Obligations.HighAndLowWordMakeProduct : Prop :=
  ∀ (rd rs1 rs2 : RegIdx) (s lo hi : State), rd ≠ 0#5 → exec (.mul rd rs1 rs2) s = .next lo →
    (exec (.mulh rd rs1 rs2) s = .next hi →
      (hi.getReg rd).toInt * 2 ^ 32 + (lo.getReg rd).toNat = (s.getReg rs1).toInt * (s.getReg rs2).toInt) ∧
    (exec (.mulhsu rd rs1 rs2) s = .next hi →
      (hi.getReg rd).toInt * 2 ^ 32 + (lo.getReg rd).toNat = (s.getReg rs1).toInt * (s.getReg rs2).toNat) ∧
    (exec (.mulhu rd rs1 rs2) s = .next hi →
      (hi.getReg rd).toNat * 2 ^ 32 + (lo.getReg rd).toNat = (s.getReg rs1).toNat * (s.getReg rs2).toNat)

/-- DIV, DIVU, REM and REMU (47_muldiv.md, decision D10): the value written in every case, division by zero and the signed overflow
among them, and nothing else changes; none fails. -/
def Obligations.DividesWriteQuotientOrRemainder : Prop :=
  ∀ (rd rs1 rs2 : RegIdx) (s : State),
    let a : Word := s.getReg rs1
    let b : Word := s.getReg rs2
    WritesReg (exec (.div rd rs1 rs2) s) s rd
      (if b = 0#32 then 0xFFFFFFFF#32 else if a = 0x80000000#32 ∧ b = 0xFFFFFFFF#32 then 0x80000000#32
        else BitVec.ofInt 32 (a.toInt.tdiv b.toInt)) (s.pc + 4#32) ∧
    WritesReg (exec (.divu rd rs1 rs2) s) s rd
      (if b = 0#32 then 0xFFFFFFFF#32 else BitVec.ofNat 32 (a.toNat / b.toNat)) (s.pc + 4#32) ∧
    WritesReg (exec (.rem rd rs1 rs2) s) s rd
      (if b = 0#32 then a else if a = 0x80000000#32 ∧ b = 0xFFFFFFFF#32 then 0#32
        else BitVec.ofInt 32 (a.toInt.tmod b.toInt)) (s.pc + 4#32) ∧
    WritesReg (exec (.remu rd rs1 rs2) s) s rd (if b = 0#32 then a else BitVec.ofNat 32 (a.toNat % b.toNat)) (s.pc + 4#32)

/-- 47_muldiv.md, decision D10: quotient and remainder fit together for every pair of operands; the remainder is smaller than the
divisor and takes the sign of the dividend. -/
def Obligations.QuotientTimesDivisorPlusRemainder : Prop :=
  ∀ (rd rs1 rs2 : RegIdx) (s q r : State), rd ≠ 0#5 →
    (exec (.div rd rs1 rs2) s = .next q → exec (.rem rd rs1 rs2) s = .next r →
      s.getReg rs1 = s.getReg rs2 * q.getReg rd + r.getReg rd ∧
      (s.getReg rs2 ≠ 0#32 → (r.getReg rd).toInt.natAbs < (s.getReg rs2).toInt.natAbs) ∧
      (r.getReg rd ≠ 0#32 → (r.getReg rd).msb = (s.getReg rs1).msb)) ∧
    (exec (.divu rd rs1 rs2) s = .next q → exec (.remu rd rs1 rs2) s = .next r →
      s.getReg rs1 = s.getReg rs2 * q.getReg rd + r.getReg rd ∧
      (s.getReg rs2 ≠ 0#32 → (r.getReg rd).toNat < (s.getReg rs2).toNat ∧
        (s.getReg rs1).toNat = (s.getReg rs2).toNat * (q.getReg rd).toNat + (r.getReg rd).toNat))

/-- The encodings of the eight multiply and divide instructions (30_encoding.md, 47_muldiv.md, decision D2): which words they
are. -/
def Obligations.MulDivWordsDecode : Prop :=
  ∀ w : Word,
    let rd : RegIdx := w.extractLsb' 7 5
    let rs1 : RegIdx := w.extractLsb' 15 5
    let rs2 : RegIdx := w.extractLsb' 20 5
    (w &&& 0xFE00707F#32 = 0x02000033#32 → decode w = some (.mul rd rs1 rs2)) ∧
    (w &&& 0xFE00707F#32 = 0x02001033#32 → decode w = some (.mulh rd rs1 rs2)) ∧
    (w &&& 0xFE00707F#32 = 0x02002033#32 → decode w = some (.mulhsu rd rs1 rs2)) ∧
    (w &&& 0xFE00707F#32 = 0x02003033#32 → decode w = some (.mulhu rd rs1 rs2)) ∧
    (w &&& 0xFE00707F#32 = 0x02004033#32 → decode w = some (.div rd rs1 rs2)) ∧
    (w &&& 0xFE00707F#32 = 0x02005033#32 → decode w = some (.divu rd rs1 rs2)) ∧
    (w &&& 0xFE00707F#32 = 0x02006033#32 → decode w = some (.rem rd rs1 rs2)) ∧
    (w &&& 0xFE00707F#32 = 0x02007033#32 → decode w = some (.remu rd rs1 rs2))

/-! ### Fences and environment instructions -/

/-- FENCE, FENCE_TSO and PAUSE (48_system_fence.md), with decisions D4, D12 and D18: each only moves pc on by 4, whatever FENCE's
fields are; and the encodings. -/
def Obligations.FencesOnlyAdvancePc : Prop :=
  (∀ (rd rs1 : RegIdx) (succ pred fm : BitVec 4) (s : State),
    MovesPc (exec (.fence rd rs1 succ pred fm) s) s (s.pc + 4#32) ∧ MovesPc (exec .fenceTso s) s (s.pc + 4#32) ∧
    MovesPc (exec .pause s) s (s.pc + 4#32)) ∧
  ∀ w : Word,
    (w &&& 0x0000707F#32 = 0x0000000F#32 → w ≠ 0x8330000F#32 → w ≠ 0x0100000F#32 →
      decode w = some (.fence (w.extractLsb' 7 5) (w.extractLsb' 15 5) (w.extractLsb' 20 4) (w.extractLsb' 24 4)
        (w.extractLsb' 28 4))) ∧
    (decode w = some .fenceTso ↔ w = 0x8330000F#32) ∧ (decode w = some .pause ↔ w = 0x0100000F#32)

/-- ECALL and EBREAK (48_system_fence.md, decision D11): each always ends the step in its own failure, which carries pc, and
changes no state; and the encodings. -/
def Obligations.EcallAndEbreakAlwaysStop : Prop :=
  (∀ s : State,
    exec .ecall s = .fault (.environmentCall s.pc) ∧ exec .ebreak s = .fault (.breakpoint s.pc) ∧
    (InMemory s.pc 4 → wordAt s s.pc = 0x00000073#32 → cycle s = (s, some (.failure (.environmentCall s.pc)))) ∧
    (InMemory s.pc 4 → wordAt s s.pc = 0x00100073#32 → cycle s = (s, some (.failure (.breakpoint s.pc))))) ∧
  ∀ w : Word, (decode w = some .ecall ↔ w = 0x00000073#32) ∧ (decode w = some .ebreak ↔ w = 0x00100073#32)

/-! ### Text -/

/-- Rule R149: rendering fails exactly for a word that decodes to the undefined sentinel, with or without a machine, and the
failure carries the word. -/
def Obligations.RenderingFailsExactlyOnUndef : Prop :=
  ∀ (w : Word) (view : Option State),
    (decodeId w = .undef → disassemble w view = .error (.unimplementedInstruction w)) ∧
    (decodeId w ≠ .undef → ∃ text, disassemble w view = .ok text)

/-- 30_encoding.md on pseudo-instructions (R150) and failing lines (R145): a line whose first token is no mnemonic of the registry
fails as an unknown mnemonic; the RISC-V pseudo-instructions are such tokens; a NOP is written as an ADDI. That the failure carries
the token as its offending value is the model's reading of R145 (log entry 5, DEDUCED). -/
def Obligations.PseudoInstructionsAreUnknown : Prop :=
  (∀ (line m : Text) (toks : List Text), splitSpaces line = m :: toks →
    (∀ id : InstrId, id ≠ .undef → (nameOf id).toList ≠ m) → assemble line = .error (.unknownMnemonic m)) ∧
  (∀ m ∈ ["nop", "li", "mv", "j", "ret", "call"], ∀ rest : Text,
    assemble (m.toList ++ ' ' :: rest) = .error (.unknownMnemonic m.toList) ∧
    assemble m.toList = .error (.unknownMnemonic m.toList)) ∧
  assemble "addi x0 x0 0".toList = .ok 0x00000013#32

/-- Rule R152: the word of every line that assembles can be written in the normalized form, and that form assembles to the same
word; with the rule's example. -/
def Obligations.NormalizedTextRoundTrips : Prop :=
  (∀ (line : Text) (w : Word), assemble line = .ok w →
    ∃ text, disassembleNormalized w = .ok text ∧ assemble text = .ok w) ∧
  disassemble 0x00B604A3#32 none = .ok "sb x11, 9(x12)".toList ∧
  disassembleNormalized 0x00B604A3#32 = .ok "sb x11 x12 9".toList ∧ assemble "sb x11 x12 9".toList = .ok 0x00B604A3#32

/-! ### The end of a run -/

/-- Decision D28 (70_reset_and_hazards.md section 3): a run is over by its end condition: in the first state with pc at the address,
after the count of steps, or at a failure of the kind, and it stays over however many steps are allowed; `jal x0 0` runs for ever.
That the start of a run counts as reaching its address is the model's choice (log entry 10). -/
def Obligations.RunEndsWhereItsConditionIsMet : Prop :=
  (∀ (a : Word) (n : Nat) (s t : State), runEnd (.atPc a) n s = some t ↔
    ∃ k ≤ n, cycles k s = (t, none) ∧ t.pc = a ∧ ∀ j < k, (cycles j s).1.pc ≠ a) ∧
  (∀ (k n : Nat) (s t : State), runEnd (.afterSteps k) n s = some t ↔ k ≤ n ∧ cycles k s = (t, none)) ∧
  (∀ (k : FailureKind) (n : Nat) (s t : State), runEnd (.onFailure k) n s = some t ↔
    ∃ f, cycles n s = (t, some (.failure f)) ∧ kindOf f = k) ∧
  (∀ (e : EndCondition) (m n : Nat) (s t : State), m ≤ n → runEnd e m s = some t → runEnd e n s = some t) ∧
  (∀ (e : EndCondition) (n : Nat) (s : State), endedBy e n s = true ↔ ∃ t, runEnd e n s = some t) ∧
  ∀ (n : Nat) (s : State), InMemory s.pc 4 → wordAt s s.pc = 0x0000006F#32 → cycles n s = (s, none)
end

