-- ==== Sys2Proof/Laws/Codec.lean ====
section
/-! SUPPORT. The laws of the bit-field codec that hold of every slice (30_encoding.md rules R80, R81): a read of the slice set, of a
slice apart from it, and of a slice inside it. -/

namespace Sys2Proof

/-- A slice read, bit by bit. -/
theorem Slice.getLsbD_get (sl : Slice) (w : Word) (i : Nat) :
    (sl.get w).getLsbD i = (w.getLsbD (sl.offset + i) && sl.mask.getLsbD (sl.offset + i)) := by
  simp [Slice.get, getSlice]

/-- A slice set, bit by bit: masked bits come from the shifted value, the others are kept. -/
theorem Slice.getLsbD_set (sl : Slice) (w v : Word) (i : Nat) :
    (sl.set w v).getLsbD i =
      if sl.mask.getLsbD i then decide (sl.offset ≤ i) && v.getLsbD (i - sl.offset) else w.getLsbD i := by
  simp only [Slice.set, setSlice, BitVec.getLsbD_or, BitVec.getLsbD_and, BitVec.getLsbD_not, BitVec.getLsbD_shiftLeft]
  by_cases hi : i < 32
  · by_cases hm : sl.mask.getLsbD i = true
    · by_cases ho : sl.offset ≤ i
      · have : ¬ i < sl.offset := by omega
        simp only [hm, hi, ho, this]; simp
      · have : i < sl.offset := by omega
        simp only [hm, hi, ho, this]; simp
    · simp only [Bool.not_eq_true] at hm
      simp only [hm, hi]; simp
  · rw [BitVec.getLsbD_of_ge sl.mask i (by omega), BitVec.getLsbD_of_ge w i (by omega)]
    simp [hi]

/-- A slice whose mask is the n ones from its offset up reads as that run of bits, zero-extended. -/
theorem Slice.get_eq_extract (sl : Slice) (n : Nat) (w : Word) (hm : ∀ i < 32, sl.mask.getLsbD (sl.offset + i) = decide (i < n)) :
    sl.get w = (w.extractLsb' sl.offset n).setWidth 32 := by
  apply BitVec.eq_of_getLsbD_eq
  intro i hi
  rw [Slice.getLsbD_get, hm i hi, BitVec.getLsbD_setWidth, BitVec.getLsbD_extractLsb']
  by_cases h : i < n <;> simp [h, hi]

/-- Each field getter reads the word bits R86, R93 and R108 give it. -/
theorem opcodeOf_eq (w : Word) : opcodeOf w = w.extractLsb' 0 7 := by
  rw [opcodeOf, Slice.get_eq_extract _ 7 w (by decide)]; simp [sliceOpcode]

theorem rdOf_eq (w : Word) : rdOf w = w.extractLsb' 7 5 := by
  rw [rdOf, Slice.get_eq_extract _ 5 w (by decide)]; simp [sliceRd]

theorem funct3Of_eq (w : Word) : funct3Of w = w.extractLsb' 12 3 := by
  rw [funct3Of, Slice.get_eq_extract _ 3 w (by decide)]; simp [sliceFunct3]

theorem rs1Of_eq (w : Word) : rs1Of w = w.extractLsb' 15 5 := by
  rw [rs1Of, Slice.get_eq_extract _ 5 w (by decide)]; simp [sliceRs1]

theorem rs2Of_eq (w : Word) : rs2Of w = w.extractLsb' 20 5 := by
  rw [rs2Of, Slice.get_eq_extract _ 5 w (by decide)]; simp [sliceRs2]

theorem shamtOf_eq (w : Word) : shamtOf w = w.extractLsb' 20 5 := by
  rw [shamtOf, Slice.get_eq_extract _ 5 w (by decide)]; simp [sliceRs2]

theorem funct7Of_eq (w : Word) : funct7Of w = w.extractLsb' 25 7 := by
  rw [funct7Of, Slice.get_eq_extract _ 7 w (by decide)]; simp [sliceFunct7]

theorem succOf_eq (w : Word) : succOf w = w.extractLsb' 20 4 := by
  rw [succOf, Slice.get_eq_extract _ 4 w (by decide)]; simp [sliceFenceSucc]

theorem predOf_eq (w : Word) : predOf w = w.extractLsb' 24 4 := by
  rw [predOf, Slice.get_eq_extract _ 4 w (by decide)]; simp [sliceFencePred]

theorem fmOf_eq (w : Word) : fmOf w = w.extractLsb' 28 4 := by
  rw [fmOf, Slice.get_eq_extract _ 4 w (by decide)]; simp [sliceFenceFm]

theorem fieldU_eq (w : Word) : fieldU w = (w.extractLsb' 12 20).setWidth 32 := by
  rw [fieldU, Slice.get_eq_extract _ 20 w (by decide)]; rfl

/-- What was set is read back, cut to the bits of the slice. -/
theorem Slice.get_set_self (sl : Slice) (w v : Word) : sl.get (sl.set w v) = v &&& (sl.mask >>> sl.offset) := by
  apply BitVec.eq_of_getLsbD_eq
  intro i hi
  rw [Slice.getLsbD_get, Slice.getLsbD_set, BitVec.getLsbD_and, BitVec.getLsbD_ushiftRight]
  by_cases h : sl.mask.getLsbD (sl.offset + i) = true <;> simp [h]

/-- A slice whose mask is apart from the one set is left alone. -/
theorem Slice.get_set_ne (sl sl' : Slice) (w v : Word) (h : sl.mask &&& sl'.mask = 0#32) : sl.get (sl'.set w v) = sl.get w := by
  apply BitVec.eq_of_getLsbD_eq
  intro i hi
  have hb := congrArg (fun b => b.getLsbD (sl.offset + i)) h
  simp only [BitVec.getLsbD_and, BitVec.getLsbD_zero] at hb
  rw [Slice.getLsbD_get, Slice.getLsbD_set, Slice.getLsbD_get]
  by_cases hm : sl.mask.getLsbD (sl.offset + i) = true
  · have : sl'.mask.getLsbD (sl.offset + i) = false := by simpa [hm] using hb
    simp [this]
  · simp [hm]

/-- A slice inside the one set reads from the shifted value. -/
theorem Slice.get_set_sub (sl sl' : Slice) (w v : Word) (h : sl.mask &&& sl'.mask = sl.mask) :
    sl.get (sl'.set w v) = sl.get (v <<< sl'.offset) := by
  apply BitVec.eq_of_getLsbD_eq
  intro i hi
  have hb := congrArg (fun b => b.getLsbD (sl.offset + i)) h
  simp only [BitVec.getLsbD_and] at hb
  rw [Slice.getLsbD_get, Slice.getLsbD_set, Slice.getLsbD_get, BitVec.getLsbD_shiftLeft]
  by_cases hm : sl.mask.getLsbD (sl.offset + i) = true
  · have h' : sl'.mask.getLsbD (sl.offset + i) = true := by simpa [hm] using hb
    have h32 : sl.offset + i < 32 := by
      by_contra hge
      rw [BitVec.getLsbD_of_ge _ _ (by omega)] at hm
      exact absurd hm (by decide)
    by_cases ho : sl'.offset ≤ sl.offset + i
    · have : ¬ sl.offset + i < sl'.offset := by omega
      simp only [hm, h', h32, ho, this]; simp
    · have : sl.offset + i < sl'.offset := by omega
      simp only [hm, h', h32, ho, this]; simp
  · simp [hm]

/-- Every slice of the table is well formed: its mask is a run of ones from its offset up, inside the word (R83, D29). -/
theorem sliceTable_wellFormed :
    ∀ sl ∈ sliceTable, ∃ n, sl.offset + n ≤ 32 ∧ sl.mask = BitVec.ofNat 32 ((2 ^ n - 1) * 2 ^ sl.offset) := by
  intro sl h
  simp only [sliceTable, List.mem_cons, List.not_mem_nil, or_false] at h
  rcases h with h | h | h | h | h | h | h | h | h | h | h | h | h | h | h | h | h | h | h | h | h <;> subst h
  · exact ⟨7, by decide⟩
  · exact ⟨5, by decide⟩
  · exact ⟨3, by decide⟩
  · exact ⟨5, by decide⟩
  · exact ⟨5, by decide⟩
  · exact ⟨7, by decide⟩
  · exact ⟨12, by decide⟩
  · exact ⟨5, by decide⟩
  · exact ⟨7, by decide⟩
  · exact ⟨1, by decide⟩
  · exact ⟨4, by decide⟩
  · exact ⟨6, by decide⟩
  · exact ⟨1, by decide⟩
  · exact ⟨20, by decide⟩
  · exact ⟨10, by decide⟩
  · exact ⟨1, by decide⟩
  · exact ⟨8, by decide⟩
  · exact ⟨1, by decide⟩
  · exact ⟨4, by decide⟩
  · exact ⟨4, by decide⟩
  · exact ⟨4, by decide⟩

end Sys2Proof
end

