-- ==== Sys2Proof/Laws/State.lean ====
section
/-! SUPPORT. The small lemmas of State: what each update does to each field and to each register read. -/

namespace Sys2Proof.Machine

@[simp] theorem State.setPc_pc (s : State) (t : Word) : (s.setPc t).pc = t := rfl
@[simp] theorem State.setPc_regs (s : State) (t : Word) : (s.setPc t).regs = s.regs := rfl
@[simp] theorem State.setPc_mem (s : State) (t : Word) : (s.setPc t).mem = s.mem := rfl

@[simp] theorem State.setReg_pc (s : State) (r : RegIdx) (v : Word) : (s.setReg r v).pc = s.pc := by
  unfold State.setReg; split <;> rfl

@[simp] theorem State.setReg_mem (s : State) (r : RegIdx) (v : Word) : (s.setReg r v).mem = s.mem := by
  unfold State.setReg; split <;> rfl

@[simp] theorem State.setReg_zero (s : State) (v : Word) : s.setReg 0#5 v = s := by
  simp [State.setReg]

@[simp] theorem State.getReg_zero (s : State) : s.getReg 0#5 = 0#32 := by
  simp [State.getReg]

@[simp] theorem State.getReg_setPc (s : State) (t : Word) (r : RegIdx) : (s.setPc t).getReg r = s.getReg r := rfl

/-- Replacing memory leaves every register read alone. -/
@[simp] theorem State.getReg_withMem (s : State) (m : Memory) (r : RegIdx) :
    State.getReg { s with mem := m } r = s.getReg r := rfl

/-- Only a read of the register written sees the write, and x0 sees none (10_state.md rule R21). -/
theorem State.getReg_setReg (s : State) (rd r : RegIdx) (v : Word) :
    (s.setReg rd v).getReg r = if r = rd ∧ r ≠ 0#5 then v else s.getReg r := by
  unfold State.setReg State.getReg
  by_cases h0 : r = 0#5
  · simp [h0]
  · by_cases hd : rd = 0#5
    · have : r ≠ rd := by rintro rfl; exact h0 hd
      simp [h0, hd]
    · by_cases h : r = rd
      · subst h; simp [h0]
      · have hn : rd.toNat ≠ r.toNat := fun e => h (BitVec.eq_of_toNat_eq e.symm)
        simp [h0, hd, h, Vector.getElem_set_ne _ _ hn]

/-- A write leaves slot 0 of the register file alone. -/
@[simp] theorem State.setReg_slot0 (s : State) (rd : RegIdx) (v : Word) : (s.setReg rd v).regs[0] = s.regs[0] := by
  unfold State.setReg
  split
  · rfl
  · rename_i h
    have hn : rd.toNat ≠ 0 := fun e => h (BitVec.eq_of_toNat_eq (by simpa using e))
    exact Vector.getElem_set_ne (RegIdx.lt_32 rd) (by omega) hn

/-- States with the same pc, the same slot 0, the same registers and the same memory are the same. -/
theorem State.ext_getReg {s t : State} (hpc : s.pc = t.pc) (h0 : s.regs[0] = t.regs[0])
    (hr : ∀ r, s.getReg r = t.getReg r) (hm : s.mem = t.mem) : s = t := by
  obtain ⟨pc, regs, mem⟩ := s
  obtain ⟨pc', regs', mem'⟩ := t
  simp only at hpc h0 hm
  subst hpc hm
  congr 1
  apply Vector.ext
  intro i hi
  by_cases hz : i = 0
  · subst hz; exact h0
  · have h := hr (BitVec.ofNat 5 i)
    have hne : BitVec.ofNat 5 i ≠ 0#5 := by
      intro e
      have := congrArg BitVec.toNat e
      simp only [BitVec.toNat_ofNat] at this
      omega
    have hi' : i % 32 = i := Nat.mod_eq_of_lt hi
    simpa [State.getReg, hne, BitVec.toNat_ofNat, hi'] using h

@[simp] theorem State.reset_pc : State.reset.pc = 0#32 := rfl
@[simp] theorem State.reset_mem : State.reset.mem = [] := rfl

/-- Every register reads as zero after reset (10_state.md rules R24, R33). -/
@[simp] theorem State.reset_getReg (r : RegIdx) : State.reset.getReg r = 0#32 := by
  simp [State.getReg, State.reset]

end Sys2Proof.Machine
end

