-- ==== Sys2Proof/Laws/Memory.lean ====
section
/-! SUPPORT. Memory: a read after a write, the canonical form and that every operation keeps it, and what the two primitives of
20_memory.md can do. -/

namespace Sys2Proof.Machine

/-! ### A read after a write of one byte -/

theorem Memory.read_filter (m : Memory) (a b : Nat) :
    Memory.read (m.filter (fun c => c.1 ≠ a)) b = if b = a then 0#8 else m.read b := by
  induction m with
  | nil => simp [Memory.read]
  | cons c rest ih =>
    obtain ⟨x, v⟩ := c
    by_cases hx : x = a
    · subst hx
      by_cases hb : b = x
      · subst hb; simpa [Memory.read] using ih
      · simpa [Memory.read, hb, Ne.symm hb] using ih
    · by_cases hb : x = b
      · subst hb; simp [Memory.read, hx]
      · simpa [Memory.read, hx, hb] using ih

theorem Memory.read_insert_self (m : Memory) (a : Nat) (v : Byte) (h : ∀ c ∈ m, c.1 ≠ a) :
    (Memory.insert m a v).read a = v := by
  induction m with
  | nil => simp [Memory.insert, Memory.read]
  | cons c rest ih =>
    obtain ⟨x, u⟩ := c
    have hx : x ≠ a := h (x, u) (by simp)
    by_cases hlt : a < x
    · simp [Memory.insert, Memory.read, hlt]
    · simpa [Memory.insert, Memory.read, hlt, hx] using ih fun c hc => h c (by simp [hc])

theorem Memory.read_insert_ne (m : Memory) (a : Nat) (v : Byte) (b : Nat) (hb : b ≠ a) :
    (Memory.insert m a v).read b = m.read b := by
  induction m with
  | nil => simp [Memory.insert, Memory.read, Ne.symm hb]
  | cons c rest ih =>
    obtain ⟨x, u⟩ := c
    by_cases hlt : a < x
    · simp [Memory.insert, Memory.read, hlt, Ne.symm hb]
    · simp [Memory.insert, Memory.read, hlt, ih]

/-- A write of one byte is seen at its address and nowhere else, whatever form the memory is in. -/
theorem Memory.read_write (m : Memory) (a : Nat) (v : Byte) (b : Nat) :
    (m.write a v).read b = if b = a then v else m.read b := by
  unfold Memory.write
  by_cases hb : b = a
  · subst hb
    by_cases hv : v = 0#8
    · simpa [hv] using Memory.read_filter m b b
    · simp [hv, Memory.read_insert_self]
  · by_cases hv : v = 0#8
    · simpa [hv, hb] using Memory.read_filter m a b
    · have h := Memory.read_filter m a b
      simp only [hb, if_false] at h
      simp [hv, hb, Memory.read_insert_ne, ← h]

/-! ### The canonical form -/

theorem memoryWfFrom_mono {lo hi : Nat} (h : lo ≤ hi) : ∀ {m : Memory}, memoryWfFrom hi m = true → memoryWfFrom lo m = true
  | [], _ => rfl
  | (a, v) :: rest, hm => by
    simp only [memoryWfFrom, Bool.and_eq_true, decide_eq_true_eq] at hm ⊢
    exact ⟨⟨⟨by omega, hm.1.1.2⟩, hm.1.2⟩, hm.2⟩

/-- A canonical memory reads as 0x00 below its first address. -/
theorem Memory.read_below {lo : Nat} : ∀ {m : Memory} {a : Nat}, memoryWfFrom lo m = true → a < lo → m.read a = 0#8
  | [], _, _, _ => rfl
  | (x, v) :: rest, a, hm, ha => by
    simp only [memoryWfFrom, Bool.and_eq_true, decide_eq_true_eq] at hm
    have hx : x ≠ a := by omega
    simp only [Memory.read, hx, if_false]
    exact Memory.read_below hm.2 (by omega)

theorem memoryWfFrom_filter {lo : Nat} (p : Host.Cell → Bool) :
    ∀ {m : Memory}, memoryWfFrom lo m = true → memoryWfFrom lo (m.filter p) = true
  | [], _ => rfl
  | (a, v) :: rest, hm => by
    simp only [memoryWfFrom, Bool.and_eq_true, decide_eq_true_eq] at hm
    have ih := memoryWfFrom_filter p hm.2
    by_cases hp : p (a, v) = true
    · simp only [List.filter_cons, hp, if_true, memoryWfFrom, Bool.and_eq_true, decide_eq_true_eq]
      exact ⟨hm.1, ih⟩
    · simp only [List.filter_cons, hp, Bool.false_eq_true, if_false]
      exact memoryWfFrom_mono (by omega) ih

theorem memoryWfFrom_insert {a : Nat} {v : Byte} (ha : a < Config.memSize) (hv : v ≠ 0#8) :
    ∀ {lo : Nat} {m : Memory}, lo ≤ a → (∀ c ∈ m, c.1 ≠ a) → memoryWfFrom lo m = true →
      memoryWfFrom lo (Memory.insert m a v) = true
  | lo, [], hlo, _, _ => by simp [Memory.insert, memoryWfFrom, hlo, ha, hv]
  | lo, (x, u) :: rest, hlo, hne, hm => by
    simp only [memoryWfFrom, Bool.and_eq_true, decide_eq_true_eq] at hm
    have hx : x ≠ a := hne (x, u) (by simp)
    by_cases hlt : a < x
    · simp only [Memory.insert, hlt, if_true, memoryWfFrom, Bool.and_eq_true, decide_eq_true_eq]
      exact ⟨⟨⟨hlo, ha⟩, hv⟩, ⟨⟨⟨by omega, hm.1.1.2⟩, hm.1.2⟩, hm.2⟩⟩
    · simp only [Memory.insert, hlt, if_false, memoryWfFrom, Bool.and_eq_true, decide_eq_true_eq]
      exact ⟨hm.1, memoryWfFrom_insert ha hv (by omega) (fun c hc => hne c (by simp [hc])) hm.2⟩

/-- A write of one byte inside memory keeps the canonical form. -/
theorem Memory.wf_write {m : Memory} {a : Nat} (v : Byte) (ha : a < Config.memSize) (hm : m.wf = true) :
    (m.write a v).wf = true := by
  unfold Memory.write
  have hf : memoryWfFrom 0 (m.filter (fun c => c.1 ≠ a)) = true := memoryWfFrom_filter _ hm
  split
  · exact hf
  · rename_i hv
    exact memoryWfFrom_insert ha hv (Nat.zero_le a) (by simp) hf

theorem memoryWfFrom_ext :
    ∀ {lo : Nat} {m m' : Memory}, memoryWfFrom lo m = true → memoryWfFrom lo m' = true →
      (∀ a, m.read a = m'.read a) → m = m'
  | _, [], [], _, _, _ => rfl
  | _, [], (x, v) :: rest, _, hm', h => by
    simp only [memoryWfFrom, Bool.and_eq_true, decide_eq_true_eq] at hm'
    have := h x
    simp only [Memory.read, if_true] at this
    exact absurd this.symm hm'.1.2
  | _, (x, v) :: rest, [], hm, _, h => by
    simp only [memoryWfFrom, Bool.and_eq_true, decide_eq_true_eq] at hm
    have := h x
    simp only [Memory.read, if_true] at this
    exact absurd this hm.1.2
  | lo, (x, v) :: rest, (y, u) :: rest', hm, hm', h => by
    simp only [memoryWfFrom, Bool.and_eq_true, decide_eq_true_eq] at hm hm'
    have hxy : x = y := by
      rcases Nat.lt_trichotomy x y with hlt | heq | hlt
      · have := h x
        rw [Memory.read, if_pos rfl, Memory.read, if_neg (by omega), Memory.read_below hm'.2 (by omega)] at this
        exact absurd this hm.1.2
      · exact heq
      · have := h y
        rw [Memory.read, if_neg (by omega), Memory.read_below hm.2 (by omega), Memory.read, if_pos rfl] at this
        exact absurd this.symm hm'.1.2
    subst hxy
    have hvu : v = u := by simpa [Memory.read] using h x
    subst hvu
    congr 1
    refine memoryWfFrom_ext hm.2 hm'.2 fun a => ?_
    by_cases ha : x = a
    · subst ha
      rw [Memory.read_below hm.2 (by omega), Memory.read_below hm'.2 (by omega)]
    · simpa [Memory.read, ha] using h a

/-! ### Byte addresses and valid accesses (20_memory.md rule R51) -/

/-- An access is valid exactly when each of its byte addresses is below 2^24. -/
theorem validAccess_iff (a : Word) (n : Nat) :
    validAccess a n = true ↔ ∀ i < n, (byteAddr a i).toNat < Config.memSize := by
  simp [validAccess, validByte]

/-- For the widths the machine has, a valid access is one that ends inside memory; a wrapping one is not valid. -/
theorem validAccess_iff_le (a : Word) {n : Nat} (h1 : 1 ≤ n) (h4 : n ≤ 4) :
    validAccess a n = true ↔ a.toNat + n ≤ Config.memSize := by
  rw [validAccess_iff]
  have ha := a.isLt
  constructor
  · intro h
    have h0 := h 0 (by omega)
    have hn := h (n - 1) (by omega)
    simp only [byteAddr, BitVec.toNat_add, BitVec.toNat_ofNat, Config.memSize] at h0 hn ⊢
    omega
  · intro h i hi
    simp only [byteAddr, BitVec.toNat_add, BitVec.toNat_ofNat, Config.memSize] at h ⊢
    omega

/-- Two bytes of one access have different addresses. -/
theorem byteAddr_inj (a : Word) {i j : Nat} (hi : i < 4294967296) (hj : j < 4294967296)
    (h : (byteAddr a i).toNat = (byteAddr a j).toNat) : i = j := by
  have ha := a.isLt
  simp only [byteAddr, BitVec.toNat_add, BitVec.toNat_ofNat] at h
  omega

/-! ### Wide accesses -/

/-- A store leaves every byte outside its own alone. -/
theorem read_storeLE_of_ne (m : Memory) (a v : Word) (n : Nat) (b : Nat)
    (h : ∀ i < n, b ≠ (byteAddr a i).toNat) : (storeLE m a v n).read b = m.read b := by
  induction n with
  | zero => rfl
  | succ n ih =>
    rw [storeLE, Memory.read_write, if_neg (h n (by omega)), ih fun i hi => h i (by omega)]

/-- Byte i of a store holds bits 8i+7 to 8i of the value (20_memory.md rule R54). -/
theorem read_storeLE_byte (m : Memory) (a v : Word) {n i : Nat} (hi : i < n) (hn : n ≤ 4) :
    (storeLE m a v n).read (byteAddr a i).toNat = (v >>> (8 * i)).setWidth 8 := by
  induction n with
  | zero => omega
  | succ n ih =>
    rw [storeLE, Memory.read_write]
    by_cases h : i = n
    · subst h; simp
    · have hne : (byteAddr a i).toNat ≠ (byteAddr a n).toNat := fun e => h (byteAddr_inj a (by omega) (by omega) e)
      rw [if_neg hne, ih (by omega) (by omega)]

/-- A valid store keeps the canonical form. -/
theorem Memory.wf_storeLE {m : Memory} (a v : Word) {n : Nat} (hv : validAccess a n = true) (hm : m.wf = true) :
    (storeLE m a v n).wf = true := by
  rw [validAccess_iff] at hv
  induction n with
  | zero => exact hm
  | succ n ih => exact Memory.wf_write _ (hv n (by omega)) (ih fun i hi => hv i (by omega))

/-- A load looks at nothing but its own bytes. -/
theorem loadLE_congr {m m' : Memory} (a : Word) {n : Nat}
    (h : ∀ i < n, m.read (byteAddr a i).toNat = m'.read (byteAddr a i).toNat) : loadLE m a n = loadLE m' a n := by
  induction n with
  | zero => rfl
  | succ n ih => rw [loadLE, loadLE, h n (by omega), ih fun i hi => h i (by omega)]

/-- A byte, a halfword and a word are their bytes, the lowest address in the lowest place (20_memory.md rule R53). -/
theorem loadLE_one (m : Memory) (a : Word) : loadLE m a 1 = (m.read a.toNat).setWidth 32 := by
  simp [loadLE, byteAddr]

theorem loadLE_two (m : Memory) (a : Word) :
    loadLE m a 2 = (m.read (byteAddr a 1).toNat ++ m.read a.toNat).setWidth 32 := by
  simp only [loadLE, byteAddr]
  apply BitVec.eq_of_getLsbD_eq
  intro i hi
  simp only [BitVec.getLsbD_or, BitVec.getLsbD_shiftLeft, BitVec.getLsbD_setWidth, BitVec.getLsbD_append]
  interval_cases i <;> simp

theorem loadLE_four (m : Memory) (a : Word) :
    loadLE m a 4 = m.read (byteAddr a 3).toNat ++ m.read (byteAddr a 2).toNat ++ m.read (byteAddr a 1).toNat ++ m.read a.toNat := by
  simp only [loadLE, byteAddr]
  apply BitVec.eq_of_getLsbD_eq
  intro i hi
  simp only [BitVec.getLsbD_or, BitVec.getLsbD_shiftLeft, BitVec.getLsbD_setWidth, BitVec.getLsbD_append]
  interval_cases i <;> simp

/-! ### The two primitives and the fetch (20_memory.md rules R53, R54, R57) -/

theorem memRead_of_valid {s : State} {a : Word} {n : Nat} (h : validAccess a n = true) :
    memRead s a n = .ok (loadLE s.mem a n) := by simp [memRead, h]

theorem memRead_of_invalid {s : State} {a : Word} {n : Nat} (h : validAccess a n = false) :
    memRead s a n = .error (.memoryFault .load a n) := by simp [memRead, h]

theorem memWrite_of_valid {s : State} {a : Word} {n : Nat} (v : Word) (h : validAccess a n = true) :
    memWrite s a n v = .ok { s with mem := storeLE s.mem a v n } := by simp [memWrite, h]

theorem memWrite_of_invalid {s : State} {a : Word} {n : Nat} (v : Word) (h : validAccess a n = false) :
    memWrite s a n v = .error (.memoryFault .store a n) := by simp [memWrite, h]

/-- A read of memory answers a value only for a valid access, and then its value. -/
theorem memRead_ok {s : State} {a v : Word} {n : Nat} (h : memRead s a n = .ok v) :
    validAccess a n = true ∧ v = loadLE s.mem a n := by
  unfold memRead at h
  split at h <;> simp_all

/-- A read of memory fails only for an invalid access, and then names it. -/
theorem memRead_error {s : State} {a : Word} {n : Nat} {f : Fault} (h : memRead s a n = .error f) :
    validAccess a n = false ∧ f = .memoryFault .load a n := by
  unfold memRead at h
  split at h <;> simp_all

/-- A write of memory answers a state only for a valid access, and changes nothing but memory. -/
theorem memWrite_ok {s t : State} {a v : Word} {n : Nat} (h : memWrite s a n v = .ok t) :
    validAccess a n = true ∧ t = { s with mem := storeLE s.mem a v n } := by
  unfold memWrite at h
  split at h <;> simp_all

/-- A write of memory fails only for an invalid access, and then names it. -/
theorem memWrite_error {s : State} {a v : Word} {n : Nat} {f : Fault} (h : memWrite s a n v = .error f) :
    validAccess a n = false ∧ f = .memoryFault .store a n := by
  unfold memWrite at h
  split at h <;> simp_all

theorem fetch_of_valid {s : State} (h : validAccess s.pc 4 = true) : fetch s = .ok (loadLE s.mem s.pc 4) := by
  simp [fetch, memRead, h]

theorem fetch_of_invalid {s : State} (h : validAccess s.pc 4 = false) : fetch s = .error (.fetchFault s.pc) := by
  simp [fetch, memRead, h]

end Sys2Proof.Machine
end

