-- ==== Sys2Proof/Laws/Exec.lean ====
section
/-! SUPPORT. What each shared operation of the executors can do, said once: the next state it answers, or the failure. -/

namespace Sys2Proof.Machine

/-! ### The ends of an instruction -/

/-- A write-back answers a next state, and this one: pc moves on by 4, rd holds the value, nothing else changes. -/
theorem writeBack_spec (s : State) (rd : RegIdx) (v : Word) :
    ∃ t, writeBack s rd v = .next t ∧ t.pc = s.pc + 4#32 ∧
      (∀ r, t.getReg r = if r = rd ∧ r ≠ 0#5 then v else s.getReg r) ∧ t.regs[0] = s.regs[0] ∧ t.mem = s.mem :=
  ⟨_, rfl, rfl, fun r => by simp [State.getReg_setReg], by simp, by simp⟩

/-- A jump that links answers a next state: pc is the target, rd holds the address after the jump, nothing else changes. -/
theorem jumpLink_spec (s : State) (rd : RegIdx) (a : Word) :
    ∃ t, jumpLink s rd a = .next t ∧ t.pc = a ∧
      (∀ r, t.getReg r = if r = rd ∧ r ≠ 0#5 then s.pc + 4#32 else s.getReg r) ∧ t.regs[0] = s.regs[0] ∧ t.mem = s.mem :=
  ⟨_, rfl, rfl, fun r => by simp [State.getReg_setReg, State.nextPc], by simp, by simp⟩

/-- A load answers a next state exactly for a valid access. -/
theorem load_of_valid {n : Nat} (ext : Word → Word) (rd rs1 : RegIdx) (imm : BitVec 12) (s : State)
    (h : validAccess (effectiveAddr s rs1 imm) n = true) :
    load n ext rd rs1 imm s = writeBack s rd (ext (loadLE s.mem (effectiveAddr s rs1 imm) n)) := by
  simp [load, memRead, h]

/-- A load from an invalid access raises MemoryFault and does nothing else. -/
theorem load_of_invalid {n : Nat} (ext : Word → Word) (rd rs1 : RegIdx) (imm : BitVec 12) (s : State)
    (h : validAccess (effectiveAddr s rs1 imm) n = false) :
    load n ext rd rs1 imm s = .fault (.memoryFault .load (effectiveAddr s rs1 imm) n) := by
  simp [load, memRead, h, raise]

/-- A store to a valid access answers the state with its bytes stored and pc moved on. -/
theorem store_of_valid {n : Nat} (rs2 rs1 : RegIdx) (imm : BitVec 12) (s : State)
    (h : validAccess (effectiveAddr s rs1 imm) n = true) :
    store n rs2 rs1 imm s =
      .next { s with pc := s.pc + 4#32, mem := storeLE s.mem (effectiveAddr s rs1 imm) (s.getReg rs2) n } := by
  simp [store, memWrite, h, goTo, State.setPc, State.nextPc]

/-- A store to an invalid access raises MemoryFault and does nothing else. -/
theorem store_of_invalid {n : Nat} (rs2 rs1 : RegIdx) (imm : BitVec 12) (s : State)
    (h : validAccess (effectiveAddr s rs1 imm) n = false) :
    store n rs2 rs1 imm s = .fault (.memoryFault .store (effectiveAddr s rs1 imm) n) := by
  simp [store, memWrite, h, raise]

/-! ### What any instruction can do -/

/-- The shapes of a next state. Either memory is as before and one register rd may hold a new value, or the registers are as before
and a valid store of n bytes at a was done. -/
inductive NextShape (s t : State) : Prop where
  /-- Registers and pc only. -/
  | regOnly (rd : RegIdx) (v a : Word) (h : t = (s.setReg rd v).setPc a)
  /-- A store. -/
  | stored (a v : Word) (n : Nat) (hn : n ≤ 4) (hv : validAccess a n = true)
      (h : t = { s with pc := s.pc + 4#32, mem := storeLE s.mem a v n })

theorem goTo_shape {s t : State} {a : Word} (h : goTo s a = .next t) : NextShape s t := by
  cases h
  exact .regOnly 0#5 0#32 a (by simp)

theorem writeBack_shape {s t : State} {rd : RegIdx} {v : Word} (h : writeBack s rd v = .next t) : NextShape s t := by
  cases h
  exact .regOnly rd v _ rfl

theorem jumpLink_shape {s t : State} {rd : RegIdx} {a : Word} (h : jumpLink s rd a = .next t) : NextShape s t := by
  cases h
  exact .regOnly rd _ a rfl

theorem load_shape {n : Nat} {ext : Word → Word} {rd rs1 : RegIdx} {imm : BitVec 12} {s t : State}
    (h : load n ext rd rs1 imm s = .next t) : NextShape s t := by
  by_cases hv : validAccess (effectiveAddr s rs1 imm) n = true
  · rw [load_of_valid ext rd rs1 imm s hv] at h
    exact writeBack_shape h
  · rw [load_of_invalid ext rd rs1 imm s (by simpa using hv)] at h
    cases h

theorem store_shape {n : Nat} {rs2 rs1 : RegIdx} {imm : BitVec 12} {s t : State} (hn : n ≤ 4)
    (h : store n rs2 rs1 imm s = .next t) : NextShape s t := by
  by_cases hv : validAccess (effectiveAddr s rs1 imm) n = true
  · rw [store_of_valid rs2 rs1 imm s hv] at h
    cases h
    exact .stored _ _ n hn hv rfl
  · rw [store_of_invalid rs2 rs1 imm s (by simpa using hv)] at h
    cases h

/-- Every next state of every instruction has one of the two shapes; each invariant of a step is a short case analysis from here. -/
theorem exec_shape {i : Instr} {s t : State} (h : exec i s = .next t) : NextShape s t := by
  cases i with
  | lui | auipc | addi | slti | sltiu | xori | ori | andi | slli | srli | srai => exact writeBack_shape h
  | add | sub | sll | slt | sltu | xor | srl | sra | or | and => exact writeBack_shape h
  | mul | mulh | mulhsu | mulhu | div | divu | rem | remu => exact writeBack_shape h
  | jal | jalr => exact jumpLink_shape h
  | beq | bne | blt | bge | bltu | bgeu | fence | fenceTso | pause => exact goTo_shape h
  | lb | lh | lw | lbu | lhu => exact load_shape h
  | sb => exact store_shape (n := 1) (by omega) h
  | sh => exact store_shape (n := 2) (by omega) h
  | sw => exact store_shape (n := 4) (by omega) h
  | ecall | ebreak => cases h

/-! ### The step -/

/-- A step that answers a next state fetched a word, decoded it to an instruction and executed it. -/
theorem step_next {s t : State} (h : step s = .next t) :
    ∃ w i, fetch s = .ok w ∧ decode w = some i ∧ exec i s = .next t := by
  unfold step at h
  split at h
  · rename_i w hw
    unfold execWord at h
    split at h
    · rename_i i hi
      exact ⟨w, i, hw, hi, h⟩
    · cases h
  · cases h

/-- When the four bytes at pc are in memory, the step is the execution of the word they spell. -/
theorem step_of_valid {s : State} (h : validAccess s.pc 4 = true) : step s = execWord (loadLE s.mem s.pc 4) s := by
  simp [step, fetch_of_valid h]

end Sys2Proof.Machine
end

