-- ==== Sys2Proof/Laws/PerInstr.lean ====
section
/-! SUPPORT. One family of lemmas per constructor of Instr: the word an instruction encodes to is a word of its row of
spec/opcode_table.json, "w & mask == match". -/

namespace Sys2Proof

/-! ### A word under a mask -/

/-- Setting a slice the mask leaves out is not seen under the mask. -/
theorem Slice.set_and_apart (sl : Slice) (w v m : Word) (h : sl.mask &&& m = 0#32) : sl.set w v &&& m = w &&& m := by
  apply BitVec.eq_of_getLsbD_eq
  intro i hi
  have hb := congrArg (fun b => b.getLsbD i) h
  simp only [BitVec.getLsbD_and, BitVec.getLsbD_zero] at hb
  rw [BitVec.getLsbD_and, BitVec.getLsbD_and, Slice.getLsbD_set]
  by_cases hm : m.getLsbD i = true
  · have : sl.mask.getLsbD i = false := by simpa [hm] using hb
    simp [this]
  · simp [hm]

/-- Setting a slice the mask covers is seen whole under the mask. -/
theorem Slice.set_and_inside (sl : Slice) (w v m : Word) (h : sl.mask &&& m = sl.mask) :
    sl.set w v &&& m = sl.set (w &&& m) v := by
  apply BitVec.eq_of_getLsbD_eq
  intro i hi
  have hb := congrArg (fun b => b.getLsbD i) h
  simp only [BitVec.getLsbD_and] at hb
  rw [BitVec.getLsbD_and, Slice.getLsbD_set, Slice.getLsbD_set, BitVec.getLsbD_and]
  by_cases hs : sl.mask.getLsbD i = true
  · have : m.getLsbD i = true := by simpa [hs] using hb
    simp [hs, this]
  · simp [hs]

theorem encR_masked (op : BitVec 7) (f3 : BitVec 3) (f7 : BitVec 7) (rd rs1 rs2 : RegIdx) :
    encR op f3 f7 rd rs1 rs2 &&& 0xFE00707F#32 = setFunct7 (setFunct3 (encOpcode op) f3) f7 := by
  simp (disch := decide) only [encR, setRs2, setRs1, setRd, setFunct7, setFunct3, encOpcode, Slice.set_and_apart,
    Slice.set_and_inside, BitVec.zero_and]

theorem encI_masked (op : BitVec 7) (f3 : BitVec 3) (rd rs1 : RegIdx) (imm : Word) :
    encI op f3 rd rs1 imm &&& 0x0000707F#32 = setFunct3 (encOpcode op) f3 := by
  simp (disch := decide) only [encI, setImmI, setRs1, setRd, setFunct3, encOpcode, Slice.set_and_apart,
    Slice.set_and_inside, BitVec.zero_and]

theorem encS_masked (op : BitVec 7) (f3 : BitVec 3) (rs2 rs1 : RegIdx) (imm : Word) :
    encS op f3 rs2 rs1 imm &&& 0x0000707F#32 = setFunct3 (encOpcode op) f3 := by
  simp (disch := decide) only [encS, setImmS, setRs2, setRs1, setFunct3, encOpcode, Slice.set_and_apart,
    Slice.set_and_inside, BitVec.zero_and]

theorem encB_masked (op : BitVec 7) (f3 : BitVec 3) (rs1 rs2 : RegIdx) (imm : Word) :
    encB op f3 rs1 rs2 imm &&& 0x0000707F#32 = setFunct3 (encOpcode op) f3 := by
  simp (disch := decide) only [encB, setImmB, setRs2, setRs1, setFunct3, encOpcode, Slice.set_and_apart,
    Slice.set_and_inside, BitVec.zero_and]

theorem encU_masked (op : BitVec 7) (rd : RegIdx) (v : Word) : encU op rd v &&& 0x0000007F#32 = encOpcode op := by
  simp (disch := decide) only [encU, setImmU, setRd, encOpcode, Slice.set_and_apart, Slice.set_and_inside, BitVec.zero_and]

theorem encJ_masked (op : BitVec 7) (rd : RegIdx) (imm : Word) : encJ op rd imm &&& 0x0000007F#32 = encOpcode op := by
  simp (disch := decide) only [encJ, setImmJ, setRd, encOpcode, Slice.set_and_apart, Slice.set_and_inside, BitVec.zero_and]

theorem encShift_masked (op : BitVec 7) (f3 : BitVec 3) (f7 : BitVec 7) (rd rs1 : RegIdx) (imm : Word) :
    encShift op f3 f7 rd rs1 imm &&& 0xFE00707F#32 = setFunct7 (encI op f3 rd rs1 imm &&& 0xFE00707F#32) f7 := by
  simp (disch := decide) only [encShift, encI, setFunct7, setImmI, Slice.set_and_inside]

/-- The top seven bits, set last, hide what the immediate put there (R107). -/
theorem encShift_row (op : BitVec 7) (f3 : BitVec 3) (f7 : BitVec 7) (rd rs1 : RegIdx) (imm : Word) :
    encShift op f3 f7 rd rs1 imm &&& 0xFE00707F#32 = setFunct7 (setFunct3 (encOpcode op) f3) f7 := by
  apply BitVec.eq_of_getLsbD_eq
  intro i hi
  rw [encShift_masked, setFunct7, setFunct7, Slice.getLsbD_set, Slice.getLsbD_set]
  by_cases h : sliceFunct7.mask.getLsbD i = true
  · simp [h]
  · have hm : (0xFE00707F#32).getLsbD i = (0x0000707F#32).getLsbD i := by
      simp only [sliceFunct7] at h
      interval_cases i <;> simp_all
    have hI := congrArg (fun b => b.getLsbD i) (encI_masked op f3 rd rs1 imm)
    simp only [BitVec.getLsbD_and] at hI
    simp only [h, Bool.false_eq_true, if_false, BitVec.getLsbD_and, hm, hI]

theorem encShift_masked_slli (op : BitVec 7) (f3 : BitVec 3) (f7 : BitVec 7) (rd rs1 : RegIdx) (imm : Word) :
    encShift op f3 f7 rd rs1 imm &&& 0x0000707F#32 = setFunct3 (encOpcode op) f3 := by
  simp (disch := decide) only [encShift, setFunct7, setImmI, setRs1, setRd, setFunct3, encOpcode, Slice.set_and_apart,
    Slice.set_and_inside, BitVec.zero_and]

theorem encFence_masked (op : BitVec 7) (f3 : BitVec 3) (rd rs1 : RegIdx) (succ pred fm : Word) :
    encFence op f3 rd rs1 succ pred fm &&& 0x0000707F#32 = setFunct3 (encOpcode op) f3 := by
  simp (disch := decide) only [encFence, setRs1, setRd, setFunct3, encOpcode, Slice.set_and_apart, Slice.set_and_inside,
    BitVec.zero_and]

/-- Every encoder builds a word of its mnemonic's row, whatever is on its ports. -/
theorem encodePorts_row (id : InstrId) (p : Ports) : encodePorts id p &&& rowMask id = rowMatch id := by
  cases id <;>
  · simp only [encodePorts, formatOf, rowMask, encU_masked, encJ_masked, encI_masked, encB_masked, encS_masked,
      encR_masked, encShift_row, encShift_masked_slli, encFence_masked]
    decide

/-- What the family says of an instruction: its word is a word of its row of the opcode table. -/
def Laws.TableRow.Statement (i : Instr) : Prop := encode i &&& rowMask (idOf i) = rowMatch (idOf i)

/-- All the rows at once, from which each constructor's lemma is read. -/
theorem encode_row (i : Instr) : Laws.TableRow.Statement i := encodePorts_row (idOf i) (portsOf i)

theorem Laws.TableRow.lui (rd : RegIdx) (imm : BitVec 20) : Laws.TableRow.Statement (.lui rd imm) := encode_row _

theorem Laws.TableRow.auipc (rd : RegIdx) (imm : BitVec 20) : Laws.TableRow.Statement (.auipc rd imm) := encode_row _

theorem Laws.TableRow.jal (rd : RegIdx) (imm : BitVec 21) : Laws.TableRow.Statement (.jal rd imm) := encode_row _

theorem Laws.TableRow.jalr (rd rs1 : RegIdx) (imm : BitVec 12) : Laws.TableRow.Statement (.jalr rd rs1 imm) := encode_row _

theorem Laws.TableRow.beq (rs1 rs2 : RegIdx) (imm : BitVec 13) : Laws.TableRow.Statement (.beq rs1 rs2 imm) := encode_row _

theorem Laws.TableRow.bne (rs1 rs2 : RegIdx) (imm : BitVec 13) : Laws.TableRow.Statement (.bne rs1 rs2 imm) := encode_row _

theorem Laws.TableRow.blt (rs1 rs2 : RegIdx) (imm : BitVec 13) : Laws.TableRow.Statement (.blt rs1 rs2 imm) := encode_row _

theorem Laws.TableRow.bge (rs1 rs2 : RegIdx) (imm : BitVec 13) : Laws.TableRow.Statement (.bge rs1 rs2 imm) := encode_row _

theorem Laws.TableRow.bltu (rs1 rs2 : RegIdx) (imm : BitVec 13) : Laws.TableRow.Statement (.bltu rs1 rs2 imm) := encode_row _

theorem Laws.TableRow.bgeu (rs1 rs2 : RegIdx) (imm : BitVec 13) : Laws.TableRow.Statement (.bgeu rs1 rs2 imm) := encode_row _

theorem Laws.TableRow.lb (rd rs1 : RegIdx) (imm : BitVec 12) : Laws.TableRow.Statement (.lb rd rs1 imm) := encode_row _

theorem Laws.TableRow.lh (rd rs1 : RegIdx) (imm : BitVec 12) : Laws.TableRow.Statement (.lh rd rs1 imm) := encode_row _

theorem Laws.TableRow.lw (rd rs1 : RegIdx) (imm : BitVec 12) : Laws.TableRow.Statement (.lw rd rs1 imm) := encode_row _

theorem Laws.TableRow.lbu (rd rs1 : RegIdx) (imm : BitVec 12) : Laws.TableRow.Statement (.lbu rd rs1 imm) := encode_row _

theorem Laws.TableRow.lhu (rd rs1 : RegIdx) (imm : BitVec 12) : Laws.TableRow.Statement (.lhu rd rs1 imm) := encode_row _

theorem Laws.TableRow.sb (rs2 rs1 : RegIdx) (imm : BitVec 12) : Laws.TableRow.Statement (.sb rs2 rs1 imm) := encode_row _

theorem Laws.TableRow.sh (rs2 rs1 : RegIdx) (imm : BitVec 12) : Laws.TableRow.Statement (.sh rs2 rs1 imm) := encode_row _

theorem Laws.TableRow.sw (rs2 rs1 : RegIdx) (imm : BitVec 12) : Laws.TableRow.Statement (.sw rs2 rs1 imm) := encode_row _

theorem Laws.TableRow.addi (rd rs1 : RegIdx) (imm : BitVec 12) : Laws.TableRow.Statement (.addi rd rs1 imm) := encode_row _

theorem Laws.TableRow.slti (rd rs1 : RegIdx) (imm : BitVec 12) : Laws.TableRow.Statement (.slti rd rs1 imm) := encode_row _

theorem Laws.TableRow.sltiu (rd rs1 : RegIdx) (imm : BitVec 12) : Laws.TableRow.Statement (.sltiu rd rs1 imm) := encode_row _

theorem Laws.TableRow.xori (rd rs1 : RegIdx) (imm : BitVec 12) : Laws.TableRow.Statement (.xori rd rs1 imm) := encode_row _

theorem Laws.TableRow.ori (rd rs1 : RegIdx) (imm : BitVec 12) : Laws.TableRow.Statement (.ori rd rs1 imm) := encode_row _

theorem Laws.TableRow.andi (rd rs1 : RegIdx) (imm : BitVec 12) : Laws.TableRow.Statement (.andi rd rs1 imm) := encode_row _

theorem Laws.TableRow.slli (rd rs1 : RegIdx) (shamt : BitVec 5) : Laws.TableRow.Statement (.slli rd rs1 shamt) := encode_row _

theorem Laws.TableRow.srli (rd rs1 : RegIdx) (shamt : BitVec 5) : Laws.TableRow.Statement (.srli rd rs1 shamt) := encode_row _

theorem Laws.TableRow.srai (rd rs1 : RegIdx) (shamt : BitVec 5) : Laws.TableRow.Statement (.srai rd rs1 shamt) := encode_row _

theorem Laws.TableRow.add (rd rs1 rs2 : RegIdx) : Laws.TableRow.Statement (.add rd rs1 rs2) := encode_row _

theorem Laws.TableRow.sub (rd rs1 rs2 : RegIdx) : Laws.TableRow.Statement (.sub rd rs1 rs2) := encode_row _

theorem Laws.TableRow.sll (rd rs1 rs2 : RegIdx) : Laws.TableRow.Statement (.sll rd rs1 rs2) := encode_row _

theorem Laws.TableRow.slt (rd rs1 rs2 : RegIdx) : Laws.TableRow.Statement (.slt rd rs1 rs2) := encode_row _

theorem Laws.TableRow.sltu (rd rs1 rs2 : RegIdx) : Laws.TableRow.Statement (.sltu rd rs1 rs2) := encode_row _

theorem Laws.TableRow.xor (rd rs1 rs2 : RegIdx) : Laws.TableRow.Statement (.xor rd rs1 rs2) := encode_row _

theorem Laws.TableRow.srl (rd rs1 rs2 : RegIdx) : Laws.TableRow.Statement (.srl rd rs1 rs2) := encode_row _

theorem Laws.TableRow.sra (rd rs1 rs2 : RegIdx) : Laws.TableRow.Statement (.sra rd rs1 rs2) := encode_row _

theorem Laws.TableRow.or (rd rs1 rs2 : RegIdx) : Laws.TableRow.Statement (.or rd rs1 rs2) := encode_row _

theorem Laws.TableRow.and (rd rs1 rs2 : RegIdx) : Laws.TableRow.Statement (.and rd rs1 rs2) := encode_row _

theorem Laws.TableRow.mul (rd rs1 rs2 : RegIdx) : Laws.TableRow.Statement (.mul rd rs1 rs2) := encode_row _

theorem Laws.TableRow.mulh (rd rs1 rs2 : RegIdx) : Laws.TableRow.Statement (.mulh rd rs1 rs2) := encode_row _

theorem Laws.TableRow.mulhsu (rd rs1 rs2 : RegIdx) : Laws.TableRow.Statement (.mulhsu rd rs1 rs2) := encode_row _

theorem Laws.TableRow.mulhu (rd rs1 rs2 : RegIdx) : Laws.TableRow.Statement (.mulhu rd rs1 rs2) := encode_row _

theorem Laws.TableRow.div (rd rs1 rs2 : RegIdx) : Laws.TableRow.Statement (.div rd rs1 rs2) := encode_row _

theorem Laws.TableRow.divu (rd rs1 rs2 : RegIdx) : Laws.TableRow.Statement (.divu rd rs1 rs2) := encode_row _

theorem Laws.TableRow.rem (rd rs1 rs2 : RegIdx) : Laws.TableRow.Statement (.rem rd rs1 rs2) := encode_row _

theorem Laws.TableRow.remu (rd rs1 rs2 : RegIdx) : Laws.TableRow.Statement (.remu rd rs1 rs2) := encode_row _

theorem Laws.TableRow.fence (rd rs1 : RegIdx) (succ pred fm : BitVec 4) : Laws.TableRow.Statement (.fence rd rs1 succ pred fm) := encode_row _

theorem Laws.TableRow.fenceTso : Laws.TableRow.Statement .fenceTso := encode_row _

theorem Laws.TableRow.pause : Laws.TableRow.Statement .pause := encode_row _

theorem Laws.TableRow.ecall : Laws.TableRow.Statement .ecall := encode_row _

theorem Laws.TableRow.ebreak : Laws.TableRow.Statement .ebreak := encode_row _

end Sys2Proof
end

