-- ==== Sys2Proof/Laws/Run.lean ====
section
/-! SUPPORT. What one step adds to a run: the small lemmas of cycles and reachPc. -/

namespace Sys2Proof

theorem cycles_succ_of_next {n : Nat} {s t : Machine.State} (h : Machine.cycle s = (t, none)) :
    Machine.cycles (n + 1) s = Machine.cycles n t := by
  simp [Machine.cycles, h]

theorem cycles_succ_of_stop {n : Nat} {s t : Machine.State} {x : Machine.Stop} (h : Machine.cycle s = (t, some x)) :
    Machine.cycles (n + 1) s = (t, some x) := by
  simp [Machine.cycles, h]

theorem reachPc_of_eq {a : Word} {n : Nat} {s : Machine.State} (h : s.pc = a) : reachPc a n s = some s := by
  cases n <;> simp [reachPc, h]

theorem reachPc_zero_of_ne {a : Word} {s : Machine.State} (h : s.pc ≠ a) : reachPc a 0 s = none := by
  simp [reachPc, h]

theorem reachPc_succ_of_next {a : Word} {n : Nat} {s t : Machine.State} (h : s.pc ≠ a)
    (hc : Machine.cycle s = (t, none)) : reachPc a (n + 1) s = reachPc a n t := by
  simp [reachPc, h, hc]

theorem reachPc_succ_of_stop {a : Word} {n : Nat} {s t : Machine.State} {x : Machine.Stop} (h : s.pc ≠ a)
    (hc : Machine.cycle s = (t, some x)) : reachPc a (n + 1) s = none := by
  simp [reachPc, h, hc]

end Sys2Proof
end

