-- ==== Sys2Proof/Tests/Slice0.lean ====
section
/-! SUPPORT. The model's own tests: the well-formedness checks, one word per instruction read and written, one step or two per
instruction with results from 95_test_vectors.md and 96_test_vectors_execution.md, and a witness for every statement that has
hypotheses. -/

namespace Sys2Proof.Tests

open Sys2Proof.Machine

/-! ### Small states -/

/-- Reset memory with some words in it, some registers set, and the word w at pc, as the vectors' "before" column has it. -/
def start (pc w : Word) (regs : List (RegIdx × Word)) (words : List (Word × Word)) : State :=
  { regs.foldl (fun s p => s.setReg p.1 p.2) (State.reset.setPc pc) with
    mem := storeLE (words.foldl (fun m p => storeLE m p.1 p.2 4) []) pc w 4 }

/-- A step from s goes on, with pc and register r as given. -/
abbrev ends (s : State) (pc : Word) (r : RegIdx) (v : Word) : Prop :=
  (nextOf (step s)).map (fun t => (t.pc, t.getReg r)) = some (pc, v)

/-- The bytes at some addresses after a step from s. -/
def bytesAfter (s : State) (at_ : List Word) : Option (List Byte) := (nextOf (step s)).map fun t => at_.map (byteAt t)

/-- The word w is one of the row (mask, match) and stands for the instruction i, which encodes to it. -/
abbrev isRow (w mask m : Word) (i : Instr) : Prop :=
  w &&& mask = m ∧ decode w = some i ∧ encode i = w ∧ i.wellFormed = true ∧ decodeTableWord 32 w.toNat = some i

/-! ### Well-formedness: an ill-formed term for each check -/

theorem test_wf_refuses_odd_branch_offset :
    Instr.wellFormed (.beq 5#5 6#5 5#13) = false ∧ Instr.wellFormed (.bne 0#5 0#5 1#13) = false ∧
    Instr.wellFormed (.blt 0#5 0#5 1#13) = false ∧ Instr.wellFormed (.bge 0#5 0#5 1#13) = false ∧
    Instr.wellFormed (.bltu 0#5 0#5 1#13) = false ∧ Instr.wellFormed (.bgeu 0#5 0#5 1#13) = false := by
  decide

theorem test_wf_refuses_odd_jump_offset : Instr.wellFormed (.jal 0#5 3#21) = false := by decide

/-- 95_test_vectors.md, encoder corner cases: these FENCE operands give the words of FENCE_TSO and PAUSE. -/
theorem test_wf_refuses_fence_of_fixed_word :
    Instr.wellFormed (.fence 0#5 0#5 3#4 3#4 8#4) = false ∧ decode (encode (.fence 0#5 0#5 3#4 3#4 8#4)) = some .fenceTso ∧
    Instr.wellFormed (.fence 0#5 0#5 0#4 1#4 0#4) = false ∧ decode (encode (.fence 0#5 0#5 0#4 1#4 0#4)) = some .pause := by
  decide

/-! ### Words -/

/-- 95_test_vectors.md, section 2.3: the words of this family, their masks and matches, and what they decode and encode to. -/
theorem test_words_upper :
    isRow 0x123452B7#32 0x0000007F#32 0x00000037#32 (.lui 5#5 74565#20) ∧
    isRow 0x00001317#32 0x0000007F#32 0x00000017#32 (.auipc 6#5 1#20) := by
  decide

/-- 95_test_vectors.md, section 2.3: the words of this family, their masks and matches, and what they decode and encode to. -/
theorem test_words_jumps :
    isRow 0xFF9FF0EF#32 0x0000007F#32 0x0000006F#32 (.jal 1#5 (-8#21)) ∧
    isRow 0x004280E7#32 0x0000707F#32 0x00000067#32 (.jalr 1#5 5#5 4#12) := by
  decide

/-- 95_test_vectors.md, section 2.3: the words of this family, their masks and matches, and what they decode and encode to. -/
theorem test_words_branches :
    isRow 0x00628863#32 0x0000707F#32 0x00000063#32 (.beq 5#5 6#5 16#13) ∧
    isRow 0x00629863#32 0x0000707F#32 0x00001063#32 (.bne 5#5 6#5 16#13) ∧
    isRow 0x0062C863#32 0x0000707F#32 0x00004063#32 (.blt 5#5 6#5 16#13) ∧
    isRow 0x0062D863#32 0x0000707F#32 0x00005063#32 (.bge 5#5 6#5 16#13) ∧
    isRow 0x0062E863#32 0x0000707F#32 0x00006063#32 (.bltu 5#5 6#5 16#13) ∧
    isRow 0x0062F863#32 0x0000707F#32 0x00007063#32 (.bgeu 5#5 6#5 16#13) := by
  decide

/-- 95_test_vectors.md, section 2.3: the words of this family, their masks and matches, and what they decode and encode to. -/
theorem test_words_loads :
    isRow 0x00828383#32 0x0000707F#32 0x00000003#32 (.lb 7#5 5#5 8#12) ∧
    isRow 0x00829383#32 0x0000707F#32 0x00001003#32 (.lh 7#5 5#5 8#12) ∧
    isRow 0x0082A383#32 0x0000707F#32 0x00002003#32 (.lw 7#5 5#5 8#12) ∧
    isRow 0x0082C383#32 0x0000707F#32 0x00004003#32 (.lbu 7#5 5#5 8#12) ∧
    isRow 0x0082D383#32 0x0000707F#32 0x00005003#32 (.lhu 7#5 5#5 8#12) := by
  decide

/-- 95_test_vectors.md, section 2.3: the words of this family, their masks and matches, and what they decode and encode to. -/
theorem test_words_stores :
    isRow 0x00628423#32 0x0000707F#32 0x00000023#32 (.sb 6#5 5#5 8#12) ∧
    isRow 0x00629423#32 0x0000707F#32 0x00001023#32 (.sh 6#5 5#5 8#12) ∧
    isRow 0x0062A423#32 0x0000707F#32 0x00002023#32 (.sw 6#5 5#5 8#12) := by
  decide

/-- 95_test_vectors.md, section 2.3: the words of this family, their masks and matches, and what they decode and encode to. -/
theorem test_words_opImm :
    isRow 0xFFF28313#32 0x0000707F#32 0x00000013#32 (.addi 6#5 5#5 (-1#12)) ∧
    isRow 0xFFF2A313#32 0x0000707F#32 0x00002013#32 (.slti 6#5 5#5 (-1#12)) ∧
    isRow 0xFFF2B313#32 0x0000707F#32 0x00003013#32 (.sltiu 6#5 5#5 (-1#12)) ∧
    isRow 0xFFF2C313#32 0x0000707F#32 0x00004013#32 (.xori 6#5 5#5 (-1#12)) ∧
    isRow 0xFFF2E313#32 0x0000707F#32 0x00006013#32 (.ori 6#5 5#5 (-1#12)) ∧
    isRow 0xFFF2F313#32 0x0000707F#32 0x00007013#32 (.andi 6#5 5#5 (-1#12)) ∧
    isRow 0x00429313#32 0x0000707F#32 0x00001013#32 (.slli 6#5 5#5 4#5) ∧
    isRow 0x0042D313#32 0xFE00707F#32 0x00005013#32 (.srli 6#5 5#5 4#5) ∧
    isRow 0x4042D313#32 0xFE00707F#32 0x40005013#32 (.srai 6#5 5#5 4#5) := by
  decide

/-- 95_test_vectors.md, section 2.3: the words of this family, their masks and matches, and what they decode and encode to. -/
theorem test_words_op :
    isRow 0x006283B3#32 0xFE00707F#32 0x00000033#32 (.add 7#5 5#5 6#5) ∧
    isRow 0x406283B3#32 0xFE00707F#32 0x40000033#32 (.sub 7#5 5#5 6#5) ∧
    isRow 0x006293B3#32 0xFE00707F#32 0x00001033#32 (.sll 7#5 5#5 6#5) ∧
    isRow 0x0062A3B3#32 0xFE00707F#32 0x00002033#32 (.slt 7#5 5#5 6#5) ∧
    isRow 0x0062B3B3#32 0xFE00707F#32 0x00003033#32 (.sltu 7#5 5#5 6#5) ∧
    isRow 0x0062C3B3#32 0xFE00707F#32 0x00004033#32 (.xor 7#5 5#5 6#5) ∧
    isRow 0x0062D3B3#32 0xFE00707F#32 0x00005033#32 (.srl 7#5 5#5 6#5) ∧
    isRow 0x4062D3B3#32 0xFE00707F#32 0x40005033#32 (.sra 7#5 5#5 6#5) ∧
    isRow 0x0062E3B3#32 0xFE00707F#32 0x00006033#32 (.or 7#5 5#5 6#5) ∧
    isRow 0x0062F3B3#32 0xFE00707F#32 0x00007033#32 (.and 7#5 5#5 6#5) := by
  decide

/-- 95_test_vectors.md, section 2.3: the words of this family, their masks and matches, and what they decode and encode to. -/
theorem test_words_mulDiv :
    isRow 0x026283B3#32 0xFE00707F#32 0x02000033#32 (.mul 7#5 5#5 6#5) ∧
    isRow 0x026293B3#32 0xFE00707F#32 0x02001033#32 (.mulh 7#5 5#5 6#5) ∧
    isRow 0x0262A3B3#32 0xFE00707F#32 0x02002033#32 (.mulhsu 7#5 5#5 6#5) ∧
    isRow 0x0262B3B3#32 0xFE00707F#32 0x02003033#32 (.mulhu 7#5 5#5 6#5) ∧
    isRow 0x0262C3B3#32 0xFE00707F#32 0x02004033#32 (.div 7#5 5#5 6#5) ∧
    isRow 0x0262D3B3#32 0xFE00707F#32 0x02005033#32 (.divu 7#5 5#5 6#5) ∧
    isRow 0x0262E3B3#32 0xFE00707F#32 0x02006033#32 (.rem 7#5 5#5 6#5) ∧
    isRow 0x0262F3B3#32 0xFE00707F#32 0x02007033#32 (.remu 7#5 5#5 6#5) := by
  decide

/-- 95_test_vectors.md, section 2.3: the words of this family, their masks and matches, and what they decode and encode to. -/
theorem test_words_system :
    isRow 0x0FF0000F#32 0x0000707F#32 0x0000000F#32 (.fence 0#5 0#5 15#4 15#4 0#4) ∧
    isRow 0x8330000F#32 0xFFFFFFFF#32 0x8330000F#32 .fenceTso ∧
    isRow 0x0100000F#32 0xFFFFFFFF#32 0x0100000F#32 .pause ∧
    isRow 0x00000073#32 0xFFFFFFFF#32 0x00000073#32 .ecall ∧
    isRow 0x00100073#32 0xFFFFFFFF#32 0x00100073#32 .ebreak := by
  decide

/-- 95_test_vectors.md, section 2.4, and S12: words that are no instruction, and neighbours that are. -/
theorem test_words_undef :
    [0x00000000#32, 0xFFFFFFFF#32, 0x00000001#32, 0x00004501#32, 0x00009067#32, 0x0000F067#32, 0x00002063#32].map decodeId =
      List.replicate 7 .undef ∧
    [0x00003063#32, 0x00003003#32, 0x00006003#32, 0x00007003#32, 0x00003023#32, 0x046283B3#32, 0x000000F3#32].map decodeId =
      List.replicate 7 .undef ∧
    decodeId 0xFFFFFFB7#32 = .lui ∧ decodeId 0xFFFFFF97#32 = .auipc ∧ decodeId 0xFFFFFFEF#32 = .jal ∧
    decodeId 0x026283B3#32 = .mul := by
  decide

/-- 95_test_vectors.md, encoder corner cases: operands cut to their fields. -/
theorem test_encoder_corner_cases :
    encodePorts .addi { rd := 1, imm := 5000 } = 0x38800093#32 ∧ encodePorts .beq { imm := 5 } = 0x00000263#32 ∧
    encodePorts .jal { rd := 1, imm := 1048576 } = 0x800000EF#32 ∧ encodePorts .srai { rd := 6, rs1 := 5, imm := -1 } =
      0x41F2D313#32 ∧
    encodePorts .slli { rd := 6, rs1 := 5, imm := 63 } = 0x01F29313#32 ∧ encodePorts .lui { rd := 5, imm := 1048576 } =
      0x000002B7#32 ∧
    encodePorts .sw { rs2 := 6, rs1 := 5, imm := 2048 } = 0x8062A023#32 := by
  decide

/-- 95_test_vectors.md, sections 2.1 and 2.2: the codec. -/
theorem test_codec :
    getSlice 0xFFFFFFFF#32 0xFE000000#32 25 = 0x7F#32 ∧ setSlice 0xFFFFFFFF#32 0#32 0x00000F80#32 7 = 0xFFFFF07F#32 ∧
    setSlice 0#32 0xFF#32 0x00000F80#32 7 = 0x00000F80#32 ∧ signExtendAt 0x80#32 7 = 0xFFFFFF80#32 ∧
    signExtendAt 0x7F#32 7 = 0x7F#32 ∧ signExtendAt 0x00100000#32 20 = 0xFFF00000#32 ∧ sext 8 0xFFFFFF7F#32 = 0x7F#32 := by
  decide

/-- 95_test_vectors.md, section 2.2: getters and setters at the ends of their ranges. -/
theorem test_immediates :
    immI 0x80000013#32 = -2048#32 ∧ immS 0x7E000FA3#32 = 2047#32 ∧ immB 0x80000063#32 = -4096#32 ∧ immB 0x7E000FE3#32 = 4094#32 ∧
    immB 0x000000E3#32 = 2048#32 ∧ immU 0xFFFFF2B7#32 = 0xFFFFF000#32 ∧ immJ 0x800000EF#32 = -1048576#32 ∧
    immJ 0x7FFFF0EF#32 = 1048574#32 ∧ immJ 0x001000EF#32 = 2048#32 ∧ immJ 0x000FF0EF#32 = 0x000FF000#32 ∧
    setImmI 0xFFFFFFFF#32 2048#32 = 0x800FFFFF#32 ∧ setImmS 0xFFFFFFFF#32 (-4#32) = 0xFFFFFE7F#32 ∧
    setImmB 0xFFFFFFFF#32 4095#32 = 0x7FFFFFFF#32 ∧ setImmJ 0xFFFFFFFF#32 164#32 = 0x0A400FFF#32 ∧
    setImmU 0#32 0x123456#32 = 0x23456000#32 := by
  decide

/-! ### One step -/

/-- 96_test_vectors_execution.md, rows 2.5:2, 2.5:4. -/
theorem test_lui :
    ends (start 0#32 0xFFFFF2B7#32 [(5#5, 0x123#32)] []) 4#32 5#5 0xFFFFF000#32 ∧
    ends (start 0#32 0x12345037#32 [] []) 4#32 0#5 0#32 := by
  decide

/-- 96_test_vectors_execution.md, rows 2.5:9. -/
theorem test_auipc :
    ends (start 0x800#32 0xFFFFF317#32 [] []) 0x804#32 6#5 0xFFFFF800#32 := by
  decide

/-- 96_test_vectors_execution.md, rows 2.6:1, 2.6:6. -/
theorem test_jal :
    ends (start 0#32 0xA400F6F#32 [] []) 0xA4#32 30#5 4#32 ∧
    ends (start 0#32 0xFFDFF0EF#32 [] []) 0xFFFFFFFC#32 1#5 4#32 := by
  decide

/-- 96_test_vectors_execution.md, rows 2.6:10, 2.6:17. -/
theorem test_jalr :
    ends (start 0x10#32 0x282E7#32 [(5#5, 0x200#32)] []) 0x200#32 5#5 0x14#32 ∧
    ends (start 0x10#32 0x8280E7#32 [(5#5, 0xFFFFFFFC#32)] []) 4#32 1#5 0x14#32 := by
  decide

/-- 96_test_vectors_execution.md, rows 2.7:1, 2.7:3. -/
theorem test_beq :
    ends (start 0x100#32 0x628863#32 [(5#5, 5#32), (6#5, 5#32)] []) 0x110#32 0#5 0#32 ∧
    ends (start 0x100#32 0x628863#32 [(5#5, 0xFFFFFFFF#32), (6#5, 1#32)] []) 0x104#32 0#5 0#32 := by
  decide

/-- 96_test_vectors_execution.md, rows 2.7b:1. -/
theorem test_bne :
    ends (start 0x108#32 0xFE029CE3#32 [(5#5, 1#32)] []) 0x100#32 0#5 0#32 := by
  decide

/-- 96_test_vectors_execution.md, rows 2.7:15, 2.7:11. -/
theorem test_blt :
    ends (start 0x100#32 0x62C863#32 [(5#5, 0x80000000#32), (6#5, 0x7FFFFFFF#32)] []) 0x110#32 0#5 0#32 ∧
    ends (start 0x100#32 0x62C863#32 [(5#5, 5#32), (6#5, 5#32)] []) 0x104#32 0#5 0#32 := by
  decide

/-- 96_test_vectors_execution.md, rows 2.7:20, 2.7:16. -/
theorem test_bge :
    ends (start 0x100#32 0x62D863#32 [(5#5, 0x80000000#32), (6#5, 0x7FFFFFFF#32)] []) 0x104#32 0#5 0#32 ∧
    ends (start 0x100#32 0x62D863#32 [(5#5, 5#32), (6#5, 5#32)] []) 0x110#32 0#5 0#32 := by
  decide

/-- 96_test_vectors_execution.md, rows 2.7:25, 2.7:24. -/
theorem test_bltu :
    ends (start 0x100#32 0x62E863#32 [(5#5, 0x80000000#32), (6#5, 0x7FFFFFFF#32)] []) 0x104#32 0#5 0#32 ∧
    ends (start 0x100#32 0x62E863#32 [(5#5, 1#32), (6#5, 0xFFFFFFFF#32)] []) 0x110#32 0#5 0#32 := by
  decide

/-- 96_test_vectors_execution.md, rows 2.7:30, 2.7:27. -/
theorem test_bgeu :
    ends (start 0x100#32 0x62F863#32 [(5#5, 0x80000000#32), (6#5, 0x7FFFFFFF#32)] []) 0x110#32 0#5 0#32 ∧
    ends (start 0x100#32 0x62F863#32 [(5#5, 5#32), (6#5, 6#32)] []) 0x104#32 0#5 0#32 := by
  decide

/-- 96_test_vectors_execution.md, rows 2.8:2, 2.8:30. -/
theorem test_lb :
    ends (start 0#32 0x328383#32 [(5#5, 0x1000#32)] [(0x1000#32, 0x8899AABB#32),
      (0x1004#32, 0x7F0180FF#32)]) 4#32 7#5 0xFFFFFF88#32 ∧
    ends (start 0#32 0x28383#32 [(5#5, 0xFFFFFF#32)] [(0xFFFFFF#32, 0x80#32)]) 4#32 7#5 0xFFFFFF80#32 := by
  decide

/-- 96_test_vectors_execution.md, rows 2.8:14. -/
theorem test_lh :
    ends (start 0#32 0x329383#32 [(5#5, 0x1000#32)] [(0x1000#32, 0x8899AABB#32),
      (0x1004#32, 0x7F0180FF#32)]) 4#32 7#5 0xFFFFFF88#32 := by
  decide

/-- 96_test_vectors_execution.md, rows 2.8:24, 2.8:28. -/
theorem test_lw :
    ends (start 0#32 0x22A383#32 [(5#5, 0x1000#32)] [(0x1000#32, 0x8899AABB#32),
      (0x1004#32, 0x7F0180FF#32)]) 4#32 7#5 0x80FF8899#32 ∧
    ends (start 0#32 0x2A283#32 [(5#5, 0x1000#32)] [(0x1000#32, 0x8899AABB#32),
      (0x1004#32, 0x7F0180FF#32)]) 4#32 5#5 0x8899AABB#32 := by
  decide

/-- 96_test_vectors_execution.md, rows 2.8:6. -/
theorem test_lbu :
    ends (start 0#32 0x32C383#32 [(5#5, 0x1000#32)] [(0x1000#32, 0x8899AABB#32), (0x1004#32, 0x7F0180FF#32)]) 4#32 7#5 0x88#32 := by
  decide

/-- 96_test_vectors_execution.md, rows 2.8:19. -/
theorem test_lhu :
    ends (start 0#32 0x12D383#32 [(5#5, 0x1000#32)] [(0x1000#32, 0x8899AABB#32),
      (0x1004#32, 0x7F0180FF#32)]) 4#32 7#5 0x99AA#32 := by
  decide

/-- 96_test_vectors_execution.md, rows 2.8:32, 2.8:33, 2.8:37. -/
theorem test_load_faults :
    faultOf (step (start 0#32 0x2A383#32 [(5#5, 0xFFFFFD#32)] [])) = some (.memoryFault .load 0xFFFFFD#32 4) ∧
    faultOf (step (start 0#32 0x29383#32 [(5#5, 0xFFFFFF#32)] [])) = some (.memoryFault .load 0xFFFFFF#32 2) ∧
    faultOf (step (start 0#32 0x2A003#32 [(5#5, 0x1000000#32)] [])) = some (.memoryFault .load 0x1000000#32 4) := by
  decide

/-- 96_test_vectors_execution.md, rows 2.9:11, 2.9:16. -/
theorem test_sb :
    bytesAfter (start 0#32 0x628023#32 [(5#5, 0x1000#32), (6#5, 0xA1B2C3D4#32)] [(0x1000#32, 0xFFFFFFFF#32)]) [0x1000#32]
      = some [0xD4#8] ∧
    bytesAfter (start 0#32 0x628023#32 [(5#5, 0xFFFFFF#32), (6#5, 0x5A#32)] []) [0xFFFFFF#32] = some [0x5A#8] := by
  decide

/-- 96_test_vectors_execution.md, rows 2.9:5. -/
theorem test_sh :
    bytesAfter (start 0#32 0x6290A3#32 [(5#5, 0x1000#32), (6#5, 0xA1B2C3D4#32)] []) [0x1001#32, 0x1002#32]
      = some [0xD4#8, 0xC3#8] := by
  decide

/-- 96_test_vectors_execution.md, rows 2.9:8, 2.9:14. -/
theorem test_sw :
    bytesAfter (start 0#32 0x62A0A3#32 [(5#5, 0x1000#32),
      (6#5, 0xA1B2C3D4#32)] []) [0x1001#32, 0x1002#32, 0x1003#32, 0x1004#32] = some [0xD4#8, 0xC3#8, 0xB2#8, 0xA1#8] ∧
    bytesAfter (start 0#32 0x52A023#32 [(5#5, 0x1000#32)] []) [0x1000#32, 0x1001#32, 0x1002#32, 0x1003#32]
      = some [0x00#8, 0x10#8, 0x00#8, 0x00#8] := by
  decide

/-- 96_test_vectors_execution.md, rows 2.9:18, 2.9:19, 2.9:21. -/
theorem test_store_faults :
    faultOf (step (start 0#32 0x62A023#32 [(5#5, 0xFFFFFE#32), (6#5, 0x1020304#32)] []))
      = some (.memoryFault .store 0xFFFFFE#32 4) ∧
    faultOf (step (start 0#32 0x629023#32 [(5#5, 0xFFFFFF#32), (6#5, 0x102#32)] [])) = some (.memoryFault .store 0xFFFFFF#32 2) ∧
    faultOf (step (start 0#32 0x628023#32 [(5#5, 0x1000000#32), (6#5, 1#32)] [])) = some (.memoryFault .store 0x1000000#32 1) := by
  decide

/-- 96_test_vectors_execution.md, rows 2.10:3, 2.10:34. -/
theorem test_addi :
    ends (start 0#32 0x128313#32 [(5#5, 0x7FFFFFFF#32)] []) 4#32 6#5 0x80000000#32 ∧
    ends (start 0#32 0x7B00513#32 [] []) 4#32 10#5 0x7B#32 := by
  decide

/-- 96_test_vectors_execution.md, rows 2.10:7. -/
theorem test_slti :
    ends (start 0#32 0x12A313#32 [(5#5, 0xFFFFFFFF#32)] []) 4#32 6#5 1#32 := by
  decide

/-- 96_test_vectors_execution.md, rows 2.10:14. -/
theorem test_sltiu :
    ends (start 0#32 0x8002B313#32 [(5#5, 0#32)] []) 4#32 6#5 1#32 := by
  decide

/-- 96_test_vectors_execution.md, rows 2.10:16. -/
theorem test_xori :
    ends (start 0#32 0xFFF2C313#32 [(5#5, 5#32)] []) 4#32 6#5 0xFFFFFFFA#32 := by
  decide

/-- 96_test_vectors_execution.md, rows 2.10:24. -/
theorem test_ori :
    ends (start 0#32 0x8002E313#32 [(5#5, 0#32)] []) 4#32 6#5 0xFFFFF800#32 := by
  decide

/-- 96_test_vectors_execution.md, rows 2.10:29. -/
theorem test_andi :
    ends (start 0#32 0x8002F313#32 [(5#5, 0#32)] []) 4#32 6#5 0#32 := by
  decide

/-- 96_test_vectors_execution.md, rows 2.11:3, 2.11:16. -/
theorem test_slli :
    ends (start 0#32 0x1F29313#32 [(5#5, 0x80000001#32)] []) 4#32 6#5 0x80000000#32 ∧
    ends (start 0#32 0x40429313#32 [(5#5, 1#32)] []) 4#32 6#5 0x10#32 := by
  decide

/-- 96_test_vectors_execution.md, rows 2.11:8. -/
theorem test_srli :
    ends (start 0#32 0x1F2D313#32 [(5#5, 0x80000001#32)] []) 4#32 6#5 1#32 := by
  decide

/-- 96_test_vectors_execution.md, rows 2.11:13, 2.11:14. -/
theorem test_srai :
    ends (start 0#32 0x41F2D313#32 [(5#5, 0x80000001#32)] []) 4#32 6#5 0xFFFFFFFF#32 ∧
    ends (start 0#32 0x4042D313#32 [(5#5, 0x7FFFFFFF#32)] []) 4#32 6#5 0x7FFFFFF#32 := by
  decide

/-- 96_test_vectors_execution.md, rows 2.12:3, 2.12:34. -/
theorem test_add :
    ends (start 0#32 0x6283B3#32 [(5#5, 0xFFFFFFFF#32), (6#5, 1#32)] []) 4#32 7#5 0#32 ∧
    ends (start 0#32 0x5282B3#32 [(5#5, 0x40000000#32)] []) 4#32 5#5 0x80000000#32 := by
  decide

/-- 96_test_vectors_execution.md, rows 2.12:5. -/
theorem test_sub :
    ends (start 0#32 0x406283B3#32 [(5#5, 5#32), (6#5, 8#32)] []) 4#32 7#5 0xFFFFFFFD#32 := by
  decide

/-- 96_test_vectors_execution.md, rows 2.12:12. -/
theorem test_sll :
    ends (start 0#32 0x6293B3#32 [(5#5, 3#32), (6#5, 0xFFFFFFFF#32)] []) 4#32 7#5 0x80000000#32 := by
  decide

/-- 96_test_vectors_execution.md, rows 2.12:15. -/
theorem test_slt :
    ends (start 0#32 0x62A3B3#32 [(5#5, 0x80000000#32), (6#5, 0x7FFFFFFF#32)] []) 4#32 7#5 1#32 := by
  decide

/-- 96_test_vectors_execution.md, rows 2.12:19. -/
theorem test_sltu :
    ends (start 0#32 0x62B3B3#32 [(5#5, 0x80000000#32), (6#5, 0x7FFFFFFF#32)] []) 4#32 7#5 0#32 := by
  decide

/-- 96_test_vectors_execution.md, rows 2.12:21. -/
theorem test_xor :
    ends (start 0#32 0x62C3B3#32 [(5#5, 0xFF00#32), (6#5, 0xFF0#32)] []) 4#32 7#5 0xF0F0#32 := by
  decide

/-- 96_test_vectors_execution.md, rows 2.12:25. -/
theorem test_srl :
    ends (start 0#32 0x62D3B3#32 [(5#5, 0xFFFFFFFF#32), (6#5, 0xFFFFFFE4#32)] []) 4#32 7#5 0xFFFFFFF#32 := by
  decide

/-- 96_test_vectors_execution.md, rows 2.12:29. -/
theorem test_sra :
    ends (start 0#32 0x4062D3B3#32 [(5#5, 0xFFFFFF00#32), (6#5, 0xFFFFFFE4#32)] []) 4#32 7#5 0xFFFFFFF0#32 := by
  decide

/-- 96_test_vectors_execution.md, rows 2.12:30. -/
theorem test_or :
    ends (start 0#32 0x62E3B3#32 [(5#5, 0xFF00#32), (6#5, 0xFF0#32)] []) 4#32 7#5 0xFFF0#32 := by
  decide

/-- 96_test_vectors_execution.md, rows 2.12:31. -/
theorem test_and :
    ends (start 0#32 0x62F3B3#32 [(5#5, 0xFF00#32), (6#5, 0xFF0#32)] []) 4#32 7#5 0xF00#32 := by
  decide

/-- 96_test_vectors_execution.md, rows 2.13:1, 2.13:53. -/
theorem test_mul :
    ends (start 0#32 0x26283B3#32 [(5#5, 7#32), (6#5, 0xFFFFFFFD#32), (7#5, 0xAAAAAAAA#32)] []) 4#32 7#5 0xFFFFFFEB#32 ∧
    ends (start 0#32 0x25282B3#32 [(5#5, 0xFFFF#32)] []) 4#32 5#5 0xFFFE0001#32 := by
  decide

/-- 96_test_vectors_execution.md, rows 2.13:6. -/
theorem test_mulh :
    ends (start 0#32 0x26293B3#32 [(5#5, 0x80000000#32), (6#5, 2#32), (7#5, 0xAAAAAAAA#32)] []) 4#32 7#5 0xFFFFFFFF#32 := by
  decide

/-- 96_test_vectors_execution.md, rows 2.13:14. -/
theorem test_mulhsu :
    ends (start 0#32 0x262A3B3#32 [(5#5, 0x7FFFFFFF#32), (6#5, 0xFFFFFFFF#32),
      (7#5, 0xAAAAAAAA#32)] []) 4#32 7#5 0x7FFFFFFE#32 := by
  decide

/-- 96_test_vectors_execution.md, rows 2.13:15. -/
theorem test_mulhu :
    ends (start 0#32 0x262B3B3#32 [(5#5, 0xFFFFFFFF#32), (6#5, 0xFFFFFFFF#32),
      (7#5, 0xAAAAAAAA#32)] []) 4#32 7#5 0xFFFFFFFE#32 := by
  decide

/-- 96_test_vectors_execution.md, rows 2.13:19, 2.13:26. -/
theorem test_div :
    ends (start 0#32 0x262C3B3#32 [(5#5, 0xFFFFFFF9#32), (6#5, 2#32), (7#5, 0xAAAAAAAA#32)] []) 4#32 7#5 0xFFFFFFFD#32 ∧
    ends (start 0#32 0x262C3B3#32 [(5#5, 0x80000000#32), (6#5, 0xFFFFFFFF#32),
      (7#5, 0xAAAAAAAA#32)] []) 4#32 7#5 0x80000000#32 := by
  decide

/-- 96_test_vectors_execution.md, rows 2.13:29, 2.13:31. -/
theorem test_divu :
    ends (start 0#32 0x262D3B3#32 [(5#5, 0xFFFFFFF9#32), (6#5, 2#32), (7#5, 0xAAAAAAAA#32)] []) 4#32 7#5 0x7FFFFFFC#32 ∧
    ends (start 0#32 0x262D3B3#32 [(5#5, 5#32), (6#5, 0#32), (7#5, 0xAAAAAAAA#32)] []) 4#32 7#5 0xFFFFFFFF#32 := by
  decide

/-- 96_test_vectors_execution.md, rows 2.13:36, 2.13:41. -/
theorem test_rem :
    ends (start 0#32 0x262E3B3#32 [(5#5, 0xFFFFFFF9#32), (6#5, 2#32), (7#5, 0xAAAAAAAA#32)] []) 4#32 7#5 0xFFFFFFFF#32 ∧
    ends (start 0#32 0x262E3B3#32 [(5#5, 0xFFFFFFFB#32), (6#5, 0#32), (7#5, 0xAAAAAAAA#32)] []) 4#32 7#5 0xFFFFFFFB#32 := by
  decide

/-- 96_test_vectors_execution.md, rows 2.13:45, 2.13:49. -/
theorem test_remu :
    ends (start 0#32 0x262F3B3#32 [(5#5, 0xFFFFFFF9#32), (6#5, 2#32), (7#5, 0xAAAAAAAA#32)] []) 4#32 7#5 1#32 ∧
    ends (start 0#32 0x262F3B3#32 [(5#5, 0x80000000#32), (6#5, 0xFFFFFFFF#32),
      (7#5, 0xAAAAAAAA#32)] []) 4#32 7#5 0x80000000#32 := by
  decide

/-- 96_test_vectors_execution.md, rows 2.14:2. -/
theorem test_fence :
    ends (start 0x40#32 0xFF1008F#32 [(1#5, 5#32), (2#5, 6#32)] []) 0x44#32 0#5 0#32 := by
  decide

/-- 96_test_vectors_execution.md, rows 2.14:4. -/
theorem test_fenceTso :
    ends (start 0#32 0x8330000F#32 [] []) 4#32 0#5 0#32 := by
  decide

/-- 96_test_vectors_execution.md, rows 2.14:5. -/
theorem test_pause :
    ends (start 0#32 0x100000F#32 [] []) 4#32 0#5 0#32 := by
  decide

/-- 96_test_vectors_execution.md, rows 2.14:6. -/
theorem test_ecall :
    faultOf (step (start 0x10#32 0x73#32 [(10#5, 1#32), (17#5, 0x5D#32)] [])) = some (.environmentCall 0x10#32) := by
  decide

/-- 96_test_vectors_execution.md, rows 2.14:7. -/
theorem test_ebreak :
    faultOf (step (start 0x20#32 0x100073#32 [] [])) = some (.breakpoint 0x20#32) := by
  decide

/-- 96_test_vectors_execution.md, rows 2.14:8, 2.14:10. -/
theorem test_undef :
    faultOf (step (start 8#32 0xFFFFFFFF#32 [] [])) = some (.undefinedInstruction 0xFFFFFFFF#32) ∧
    faultOf (step (start 0#32 0x30200073#32 [] [])) = some (.undefinedInstruction 0x30200073#32) := by
  decide

/-- 96_test_vectors_execution.md, rows 2.15:1, 2.15:2, 2.15:5, 2.15:7. -/
theorem test_fetch_edges :
    ends (start 0xFFFFFC#32 0x100093#32 [] []) 0x1000000#32 1#5 1#32 ∧
    faultOf (step (start 0xFFFFFD#32 0x100093#32 [] [])) = some (.fetchFault 0xFFFFFD#32) ∧
    faultOf (step (start 0xFFFFFFFE#32 0x100093#32 [] [])) = some (.fetchFault 0xFFFFFFFE#32) ∧
    ends (start 0x102#32 0x100093#32 [] []) 0x106#32 1#5 1#32 := by
  decide

/-- 96_test_vectors_execution.md, rows 2.6:13 and 2.6:14: an odd sum on either build. -/
theorem test_jalr_both_builds :
    (nextOf (execJalrWith false 1#5 5#5 1#12 (start 0x10#32 0x1280E7#32 [(5#5, 0x200#32)] []))).map (·.pc) = some 0x201#32 ∧
    (nextOf (execJalrWith true 1#5 5#5 1#12 (start 0x10#32 0x1280E7#32 [(5#5, 0x200#32)] []))).map (·.pc) = some 0x200#32 := by
  decide

/-- 10_state.md rule R33 and 30_encoding.md rule R136: the first step after reset, with nothing placed. -/
theorem test_first_step_after_reset : faultOf (step State.reset) = some (.undefinedInstruction 0#32) := by decide

/-- A placed word is the first instruction that runs after reset: S4 of 95_test_vectors.md. -/
theorem test_placed_word_runs : ends (State.reset.withFetchWord 32 0x0A400F6F) 164#32 30#5 4#32 := by decide

/-- 96_test_vectors_execution.md, section 2.16: byte order across widths. -/
theorem test_byte_order :
    (loadLE (storeLE [] 0x1000#32 0x11223344#32 4) 0x1003#32 1, loadLE (storeLE [] 0x1000#32 0x11223344#32 4) 0x1001#32 2,
      loadLE (storeLE [] 0x1000#32 0x11223344#32 4) 0x1001#32 4) = (0x11#32, 0x2233#32, 0x00112233#32) := by
  decide

/-- The canonical form: a zero byte is not listed, and writing zero takes an entry out. -/
theorem test_memory_canonical :
    storeLE [] 0x10#32 0x00FF0001#32 4 = [(16, 1#8),
      (18, 0xFF#8)] ∧ storeLE (storeLE [] 0x10#32 0x00FF0001#32 4) 0x10#32 0#32 4 = [] ∧
    Memory.wf [(16, 0#8)] = false ∧ Memory.wf [(18, 1#8), (16, 1#8)] = false := by
  decide

/-! ### Text (95_test_vectors.md part 1) -/

/-- S1 to S4: the source's rendered examples. -/
theorem test_rendered_examples :
    disassemble 0x00B604A3#32 none = .ok "sb x11, 9(x12)".toList ∧ disassemble 0x07B00513#32 none = .ok "addi x10, x0, 123".toList ∧
    disassemble 0x00000073#32 none = .ok "ecall".toList ∧ disassemble 0x0A400F6F#32 none = .ok "jal x30, 164".toList :=
  ⟨rfl, rfl, rfl, rfl⟩

/-- S1, S4 and the text column of section 2.3: normalized text, both ways. -/
theorem test_normalized_examples :
    assemble "sb x11 x12 9".toList = .ok 0x00B604A3#32 ∧ assemble "addi x6 x5 -1".toList = .ok 0xFFF28313#32 ∧
    assemble "fence 0 0 15 15 0".toList = .ok 0x0FF0000F#32 ∧ assemble "fence.tso".toList = .ok 0x8330000F#32 ∧
    disassembleNormalized 0xFE029CE3#32 = .ok "bne x5 x0 -8".toList :=
  ⟨rfl, rfl, rfl, rfl, rfl⟩

/-- 30_encoding.md rules R143 to R146, R150: lines that fail, and the failure of a whole program. -/
theorem test_assembler_failures :
    assemble "nop".toList = .error (.unknownMnemonic "nop".toList) ∧ assemble "add x7 x5".toList = .error (.arity .add 2) ∧
    assemble "add x7 x5 x32".toList = .error (.badOperand "x32".toList) ∧
    assembleProgram ["addi x5 x0 5".toList, "ecall 1".toList] = .error (.arity .ecall 1) :=
  ⟨rfl, rfl, rfl, rfl⟩

/-! ### Witnesses: a state and operands that meet the hypotheses of each statement -/

/-- A word of memory at the top end, and a state whose x5 points there: the boundary of every access width. -/
def top (w x5 : Word) : State := start 0#32 w [(5#5, x5), (6#5, 0x01020304#32)] [(0x00FFFFFC#32, 0xF1F2F3F4#32)]

theorem test_witness_GetSliceReadsField : 25 + 7 ≤ 32 ∧ 0 + 32 ≤ 32 := by decide

theorem test_witness_SetSliceWritesMaskedBits :
    (0xFE000000#32).getLsbD 24 = false ∧ (0xFE000000#32).getLsbD 25 = true ∧ (0xFE000000#32).getLsbD 31 = true := by decide

theorem test_witness_SignExtendCopiesSignBit : 31 < 32 ∧ signExtendAt 0x80000000#32 31 = 0x80000000#32 := by decide

theorem test_witness_SplitImmediatesComeBack :
    -2048 ≤ (-2048#32).toInt ∧ (-2048#32).toInt ≤ 2047 ∧ -2048 ≤ (2047#32).toInt ∧ (2047#32).toInt ≤ 2047 ∧
    -4096 ≤ (-4096#32).toInt ∧ (-4096#32).toInt ≤ 4095 ∧ -4096 ≤ (4095#32).toInt ∧ (4095#32).toInt ≤ 4095 ∧
    -1048576 ≤ (-1048576#32).toInt ∧ (-1048576#32).toInt ≤ 1048575 ∧ (1048575#32).toInt ≤ 1048575 ∧ (1048575#32).toNat ≤ 1048575 ∧
    fieldU (setImmU 0#32 0x123456#32) = 0x23456#32 := by
  decide

theorem test_witness_DecodeFixedArms :
    (0xFFFFFFB7#32).extractLsb' 0 7 = 0x37#7 ∧ (0xFFFFFF97#32).extractLsb' 0 7 = 0x17#7 ∧ (0xFFFFFFEF#32).extractLsb' 0 7 = 0x6F#7 ∧
    (0x0000F067#32).extractLsb' 0 7 = 0x67#7 ∧ (0x000000F3#32).extractLsb' 0 7 = 0x73#7 := by
  decide

theorem test_witness_UndefWordsAreTheListedOnes :
    (1#32).extractLsb' 0 2 ≠ 3#2 ∧ decode 0#32 = none ∧ InMemory State.reset.pc 4 ∧ wordAt State.reset State.reset.pc = 0#32 := by
  unfold InMemory; decide

theorem test_witness_DecodeOfEncode :
    Instr.wellFormed (.beq 5#5 6#5 (-4096#13)) = true ∧ Instr.wellFormed (.jal 0#5 1048574#21) = true ∧
    Instr.wellFormed (.fence 31#5 31#5 15#4 15#4 15#4) = true := by
  decide

theorem test_witness_EncodeOfDecode :
    decode 0x40429313#32 = some (.slli 6#5 5#5 4#5) ∧ decode 0x4042D313#32 = some (.srai 6#5 5#5 4#5) := by decide

theorem test_witness_DecodeBytesOfEncode : Instr.wellFormed .ecall = true ∧ [0#8, 0#8, 0#8].length < 4 := by decide

theorem test_witness_StepRunsDecodedInstruction :
    InMemory (start 0xFFFFFC#32 0x100093#32 [] []).pc 4 ∧
    decode (wordAt (start 0xFFFFFC#32 0x100093#32 [] []) 0xFFFFFC#32) = some (.addi 1#5 0#5 1#12) ∧
    InMemory State.reset.pc 4 ∧ decode (wordAt State.reset State.reset.pc) = none ∧ ¬ InMemory (State.reset.setPc
      0xFFFFFD#32).pc 4 := by
  unfold InMemory; decide

theorem test_witness_PlacedWordRunsNext : InMemory (State.reset.setPc 0xFFFFFC#32).pc 4 := by
  unfold InMemory; decide

/-- 96_test_vectors_execution.md, row 2.9:22: a store over the word at pc + 4. -/
theorem test_witness_StoredWordRunsNext :
    (∃ t, exec (.sw 6#5 0#5 4#12) (start 0#32 0x602223#32 [(6#5, 0x13#32)] []) = .next t) ∧
    effectiveAddr (start 0#32 0x602223#32 [(6#5, 0x13#32)] []) 0#5 4#12 = (start 0#32 0x602223#32 [(6#5, 0x13#32)] []).pc + 4#32 :=
  ⟨⟨_, rfl⟩, by decide⟩

theorem test_witness_EachFailureHasItsInstruction :
    faultOf (exec .ecall State.reset) = some (.environmentCall 0#32) ∧ faultOf (exec .ebreak State.reset)
      = some (.breakpoint 0#32) ∧
    faultOf (exec (.lb 0#5 0#5 (-1#12)) State.reset) = some (.memoryFault .load 0xFFFFFFFF#32 1) ∧
    faultOf (exec (.sw 0#5 5#5 0#12) (top 0#32 0xFFFFFD#32)) = some (.memoryFault .store 0xFFFFFD#32 4) := by
  decide

theorem test_witness_StepKeepsInv :
    Inv (top 0x0062A023#32 0xFFFFFC#32) ∧ ∃ t, step (top 0x0062A023#32 0xFFFFFC#32) = .next t := by
  refine ⟨by decide, ?_⟩
  have h : (nextOf (step (top 0x0062A023#32 0xFFFFFC#32))).isSome = true := by decide
  generalize step (top 0x0062A023#32 0xFFFFFC#32) = o at h
  cases o <;> simp_all [nextOf]

theorem test_witness_ResetZeroesEverything : (start 0#32 0x13#32 [] []).pc = State.reset.pc := by decide

theorem test_witness_RegisterZeroIsHardwired :
    (∃ t, exec (.addi 0#5 0#5 1#12) State.reset = .next t) ∧ InMemory (effectiveAddr (top 0#32 0xFFFFFF#32) 5#5 0#12) 1 ∧
    InMemory (effectiveAddr (top 0#32 0xFFFFFE#32) 5#5 0#12) 2 ∧ InMemory (effectiveAddr (top 0#32 0xFFFFFC#32) 5#5 0#12) 4 ∧
    ¬ InMemory (effectiveAddr (top 0#32 0xFFFFFD#32) 5#5 0#12) 4 := by
  unfold InMemory
  exact ⟨⟨_, rfl⟩, by decide, by decide, by decide, by decide⟩

/-- Two states that differ only in the stored word of x0. -/
theorem test_witness_StepSeesOnlyPcRegistersMemory :
    SameView State.reset { State.reset with regs := State.reset.regs.set 0 7#32 } ∧
    State.reset ≠ { State.reset with regs := State.reset.regs.set 0 7#32 } := by
  refine ⟨⟨rfl, by decide, fun _ _ => rfl⟩, by decide⟩

theorem test_witness_OnlyStoresChangeMemory :
    ∃ t, exec (.sb 6#5 5#5 0#12) (top 0#32 0xFFFFFF#32) = .next t ∧ byteAt t 0xFFFFFF#32 ≠ byteAt (top 0#32 0xFFFFFF#32)
      0xFFFFFF#32 :=
  ⟨_, rfl, by decide⟩

theorem test_witness_PcAdvancesByFour :
    (∃ t, exec (.mul 7#5 5#5 6#5) State.reset = .next t) ∧
    idOf (.mul 7#5 5#5 6#5) ∉ [InstrId.jal, .jalr, .beq, .bne, .blt, .bge, .bltu, .bgeu] ∧
    (∃ t, exec (.bge 0#5 0#5 (-4096#13)) State.reset = .next t) ∧ Instr.wellFormed (.bge 0#5 0#5 (-4096#13)) = true ∧
    idOf (.bge 0#5 0#5 (-4096#13)) ≠ .jalr :=
  ⟨⟨_, rfl⟩, by decide, ⟨_, rfl⟩, by decide, by decide⟩

theorem test_witness_CyclesCompose :
    nextOf (step (start 0#32 0x13#32 [] [])) = some (start 4#32 0#32 [] [(0#32, 0x13#32)]) ∧
    faultOf (step State.reset) = some (.undefinedInstruction 0#32) ∧
    cycles 1 (start 0#32 0x13#32 [] []) = (start 4#32 0#32 [] [(0#32, 0x13#32)], none) ∧
    cycle (start 4#32 0#32 [] [(0#32, 0x13#32)]) =
      (start 4#32 0#32 [] [(0#32, 0x13#32)], some (.failure (.undefinedInstruction 0#32))) ∧ 1 < 2 := by
  decide

/-- ADDI at 0, then `jal x0 0` at 4, then a run that reaches 4 and one that fails; pc at 0 moves on and is not 0 again. -/
theorem test_witness_RunEndsWhereItsConditionIsMet :
    endedBy (.atPc 4#32) 0 (start 0#32 0x13#32 [] [(4#32, 0x6F#32)]) = false ∧
    endedBy (.atPc 4#32) 1 (start 0#32 0x13#32 [] [(4#32, 0x6F#32)]) = true ∧
    endedBy (.atPc 0#32) 1 (start 0#32 0x13#32 [] [(4#32, 0x6F#32)]) = true ∧
    endedBy (.atPc 8#32) 3 (start 0#32 0x13#32 [] [(4#32, 0x6F#32)]) = false ∧
    endedBy (.afterSteps 1) 2 (start 0#32 0x13#32 [] []) = true ∧
    endedBy (.onFailure .undefinedInstruction) 2 (start 0#32 0x13#32 [] []) = true ∧
    InMemory (start 0#32 0x6F#32 [] []).pc 4 ∧ wordAt (start 0#32 0x6F#32 [] []) 0#32 = 0x0000006F#32 := by
  unfold InMemory; decide

theorem test_witness_FailureIsPrecise :
    cycle State.reset = (State.reset, some (.failure (.undefinedInstruction 0#32))) ∧
    (cycles 2 (start 0#32 0x13#32 [] [])).2 = some (.failure (.undefinedInstruction 0#32)) ∧
    (cycles 1 (start 0#32 0x13#32 [] [])).2 = none := by
  decide

theorem test_witness_MemoryIsLittleEndian :
    (∃ t, memWrite State.reset 0xFFFFFC#32 4 0x11223344#32 = .ok t) ∧ (∃ t, memWrite State.reset 0xFFFFFE#32 2 0x1234#32 = .ok t) ∧
    (∃ t, memWrite State.reset 0xFFFFFF#32 1 0x12#32 = .ok t) ∧ InMemory 0xFFFFFC#32 4 ∧ InMemory 0xFFFFFE#32 2 ∧ InMemory
      0xFFFFFF#32 1 ∧ InMemory State.reset.pc 4 := by
  unfold InMemory
  exact ⟨⟨_, rfl⟩, ⟨_, rfl⟩, ⟨_, rfl⟩, by decide, by decide, by decide, by decide⟩

/-- A halfword stored below a word that is loaded. -/
theorem test_witness_LoadAfterStore :
    2 ∈ [1, 2, 4] ∧ 4 ∈ [1, 2, 4] ∧ (∃ t, memWrite State.reset 0xFFFFFA#32 2 0x1234#32 = .ok t) ∧
    ∀ i < 2, ∀ j < 4, 0xFFFFFA#32 + BitVec.ofNat 32 i ≠ 0xFFFFFC#32 + BitVec.ofNat 32 j :=
  ⟨by decide, by decide, ⟨_, rfl⟩, by decide⟩

theorem test_witness_LoadedProgramIsFetched :
    ∃ t, loadProgram State.reset 0xFFFFF8#32 [0x00500293#32, 0x00300313#32] = some t ∧
      1 < [0x00500293#32, 0x00300313#32].length ∧ ∀ k < 8, 0#32 ≠ 0xFFFFF8#32 + BitVec.ofNat 32 k :=
  ⟨_, rfl, by decide, by decide⟩

theorem test_witness_LogicalImmediates :
    (-2048#12).msb = true ∧ (2047#12).msb = false ∧ 0xFFF2C313#32 &&& 0x0000707F#32 = 0x00004013#32 ∧
    0xFFF2E313#32 &&& 0x0000707F#32 = 0x00006013#32 ∧ 0xFFF2F313#32 &&& 0x0000707F#32 = 0x00007013#32 := by
  decide

theorem test_witness_AddiAddsImmediate :
    0xFFF28313#32 &&& 0x0000707F#32 = 0x00000013#32 := by decide

theorem test_witness_SetLessThanWritesZeroOrOne :
    0xFFF2A313#32 &&& 0x0000707F#32 = 0x00002013#32 ∧ 0xFFF2B313#32 &&& 0x0000707F#32 = 0x00003013#32 ∧
    0x0062A3B3#32 &&& 0xFE00707F#32 = 0x00002033#32 ∧ 0x0062B3B3#32 &&& 0xFE00707F#32 = 0x00003033#32 := by decide

theorem test_witness_ShiftImmediatesMoveBits :
    0x00429313#32 &&& 0x0000707F#32 = 0x00001013#32 ∧ 0x0042D313#32 &&& 0xFE00707F#32 = 0x00005013#32 ∧
    0x4042D313#32 &&& 0xFE00707F#32 = 0x40005013#32 := by decide

theorem test_witness_AddAndSubtract :
    0x006283B3#32 &&& 0xFE00707F#32 = 0x00000033#32 ∧ 0x406283B3#32 &&& 0xFE00707F#32 = 0x40000033#32 := by decide

theorem test_witness_LogicalRegisters :
    0x0062C3B3#32 &&& 0xFE00707F#32 = 0x00004033#32 ∧ 0x0062E3B3#32 &&& 0xFE00707F#32 = 0x00006033#32 ∧
    0x0062F3B3#32 &&& 0xFE00707F#32 = 0x00007033#32 := by decide

theorem test_witness_ShiftRegistersMoveBits :
    0x006293B3#32 &&& 0xFE00707F#32 = 0x00001033#32 ∧ 0x0062D3B3#32 &&& 0xFE00707F#32 = 0x00005033#32 ∧
    0x4062D3B3#32 &&& 0xFE00707F#32 = 0x40005033#32 := by decide

theorem test_witness_UpperImmediates :
    0x123452B7#32 &&& 0x0000007F#32 = 0x00000037#32 ∧ 0x00001317#32 &&& 0x0000007F#32 = 0x00000017#32 := by decide

theorem test_witness_JalLinksAndJumps :
    0xFF9FF0EF#32 &&& 0x0000007F#32 = 0x0000006F#32 := by decide

theorem test_witness_JalrLinksAndJumps :
    0x004280E7#32 &&& 0x0000707F#32 = 0x00000067#32 := by decide

theorem test_witness_BranchWordsDecode :
    0x00628863#32 &&& 0x0000707F#32 = 0x00000063#32 ∧ 0x00629863#32 &&& 0x0000707F#32 = 0x00001063#32 ∧
    0x0062C863#32 &&& 0x0000707F#32 = 0x00004063#32 ∧ 0x0062D863#32 &&& 0x0000707F#32 = 0x00005063#32 ∧
    0x0062E863#32 &&& 0x0000707F#32 = 0x00006063#32 ∧ 0x0062F863#32 &&& 0x0000707F#32 = 0x00007063#32 := by decide

theorem test_witness_LoadAndStoreWordsDecode :
    0x00828383#32 &&& 0x0000707F#32 = 0x00000003#32 ∧ 0x00829383#32 &&& 0x0000707F#32 = 0x00001003#32 ∧
    0x0082A383#32 &&& 0x0000707F#32 = 0x00002003#32 ∧ 0x0082C383#32 &&& 0x0000707F#32 = 0x00004003#32 ∧
    0x0082D383#32 &&& 0x0000707F#32 = 0x00005003#32 ∧ 0x00628423#32 &&& 0x0000707F#32 = 0x00000023#32 ∧
    0x00629423#32 &&& 0x0000707F#32 = 0x00001023#32 ∧ 0x0062A423#32 &&& 0x0000707F#32 = 0x00002023#32 := by decide

theorem test_witness_MulDivWordsDecode :
    0x026283B3#32 &&& 0xFE00707F#32 = 0x02000033#32 ∧ 0x026293B3#32 &&& 0xFE00707F#32 = 0x02001033#32 ∧
    0x0262A3B3#32 &&& 0xFE00707F#32 = 0x02002033#32 ∧ 0x0262B3B3#32 &&& 0xFE00707F#32 = 0x02003033#32 ∧
    0x0262C3B3#32 &&& 0xFE00707F#32 = 0x02004033#32 ∧ 0x0262D3B3#32 &&& 0xFE00707F#32 = 0x02005033#32 ∧
    0x0262E3B3#32 &&& 0xFE00707F#32 = 0x02006033#32 ∧ 0x0262F3B3#32 &&& 0xFE00707F#32 = 0x02007033#32 := by decide

/-- Every shift goes on from reset, and x7 is not x0. -/
theorem test_witness_ShiftsAsArithmetic :
    7#5 ≠ 0#5 ∧ (∃ t, exec (.slli 7#5 5#5 31#5) State.reset = .next t) ∧ (∃ t, exec (.srli 7#5 5#5 31#5) State.reset = .next t) ∧
    (∃ t, exec (.srai 7#5 5#5 31#5) State.reset = .next t) ∧ (∃ t, exec (.sll 7#5 5#5 6#5) State.reset = .next t) ∧
    (∃ t, exec (.srl 7#5 5#5 6#5) State.reset = .next t) ∧ ∃ t, exec (.sra 7#5 5#5 6#5) State.reset = .next t :=
  ⟨by decide, ⟨_, rfl⟩, ⟨_, rfl⟩, ⟨_, rfl⟩, ⟨_, rfl⟩, ⟨_, rfl⟩, ⟨_, rfl⟩⟩

/-- The last address of each width. -/
theorem test_witness_LoadsExtendMemory :
    (top 0#32 0xFFFFFF#32).getReg 5#5 + (0#12).signExtend 32 = 0xFFFFFF#32 ∧ InMemory 0xFFFFFF#32 1 ∧
    InMemory 0xFFFFFE#32 2 ∧ InMemory 0xFFFFFC#32 4 := by
  unfold InMemory; decide

theorem test_witness_StoresWriteLowBytes :
    InMemory (effectiveAddr (top 0#32 0xFFFFFF#32) 5#5 0#12) 1 ∧ InMemory (effectiveAddr (top 0#32 0xFFFFFE#32) 5#5 0#12) 2 ∧
    InMemory (effectiveAddr (top 0#32 0xFFFFFC#32) 5#5 0#12) 4 := by
  unfold InMemory; decide

/-- One past the last address of each width. -/
theorem test_witness_AccessOutsideMemoryFails :
    0x1000000#32 = (top 0#32 0x1000000#32).getReg 5#5 + (0#12).signExtend 32 ∧ 16777216 < (0x1000000#32).toNat + 1 ∧
    16777216 < (0xFFFFFF#32).toNat + 2 ∧ 16777216 < (0xFFFFFD#32).toNat + 4 ∧ ¬ 16777216 < (0xFFFFFC#32).toNat + 4 := by
  decide

theorem test_witness_HighAndLowWordMakeProduct :
    7#5 ≠ 0#5 ∧ ∃ lo hi hi' hi'', exec (.mul 7#5 5#5 6#5) State.reset = .next lo ∧ exec (.mulh 7#5 5#5 6#5) State.reset = .next hi ∧
      exec (.mulhsu 7#5 5#5 6#5) State.reset = .next hi' ∧ exec (.mulhu 7#5 5#5 6#5) State.reset = .next hi'' :=
  ⟨by decide, _, _, _, _, rfl, rfl, rfl, rfl⟩

theorem test_witness_QuotientTimesDivisorPlusRemainder :
    7#5 ≠ 0#5 ∧ ∃ q r q' r', exec (.div 7#5 5#5 6#5) State.reset = .next q ∧ exec (.rem 7#5 5#5 6#5) State.reset = .next r ∧
      exec (.divu 7#5 5#5 6#5) State.reset = .next q' ∧ exec (.remu 7#5 5#5 6#5) State.reset = .next r' ∧
      (top 0#32 5#32).getReg 6#5 ≠ 0#32 :=
  ⟨by decide, _, _, _, _, rfl, rfl, rfl, rfl, by decide⟩

/-- A word one bit from FENCE_TSO's. -/
theorem test_witness_FencesOnlyAdvancePc :
    0x8320000F#32 &&& 0x0000707F#32 = 0x0000000F#32 ∧ 0x8320000F#32 ≠ 0x8330000F#32 ∧ 0x8320000F#32 ≠ 0x0100000F#32 := by
  decide

theorem test_witness_EcallAndEbreakAlwaysStop :
    InMemory (start 0xFFFFFC#32 0x73#32 [] []).pc 4 ∧ wordAt (start 0xFFFFFC#32 0x73#32 [] []) 0xFFFFFC#32 = 0x73#32 ∧
    wordAt (start 0xFFFFFC#32 0x100073#32 [] []) 0xFFFFFC#32 = 0x100073#32 := by
  unfold InMemory; decide

theorem test_witness_RenderingFailsExactlyOnUndef : decodeId 0#32 = .undef ∧ decodeId 0x13#32 ≠ .undef := by decide

theorem test_witness_PseudoInstructionsAreUnknown :
    splitSpaces "nop x1".toList = "nop".toList :: ["x1".toList] ∧
    ∀ id : InstrId, id ≠ .undef → (nameOf id).toList ≠ "nop".toList :=
  ⟨by decide, fun id => by cases id <;> decide⟩

theorem test_witness_NormalizedTextRoundTrips : assemble "lw x7 x5 -4".toList = .ok 0xFFC2A383#32 := rfl

end Sys2Proof.Tests
end

section
/-! The rules of x0 and of reset (10_state.md rules R21, R33): the claims' words for memory and for outcomes met by the model's
operations, and that an operation cannot tell apart two states of the same view. -/

namespace Sys2Proof

open Machine

/-! ### What a view is made of -/

theorem SameView.pc_eq {s t : State} (h : SameView s t) : s.pc = t.pc := h.1

theorem SameView.getReg_eq {s t : State} (h : SameView s t) (r : RegIdx) : s.getReg r = t.getReg r := h.2.1 r

theorem SameView.read_eq {s t : State} (h : SameView s t) {b : Word} (hb : b.toNat < Config.memSize) :
    s.mem.read b.toNat = t.mem.read b.toNat := h.2.2 b hb

end Sys2Proof

namespace Sys2Proof.Machine

/-! ### The claims' words for memory -/

/-- The claims' word for a valid access says what the model's check decides. -/
theorem validAccess_iff_inMemory (a : Word) (n : Nat) : validAccess a n = true ↔ InMemory a n :=
  validAccess_iff a n

theorem validAccess_eq_false_iff (a : Word) (n : Nat) : validAccess a n = false ↔ ¬ InMemory a n := by
  rw [← validAccess_iff_inMemory, Bool.not_eq_true]

/-- A fetch inside memory answers the word at pc, lowest address in the lowest place (20_memory.md rules R52, R57). -/
theorem fetch_eq_wordAt {s : State} (h : InMemory s.pc 4) : fetch s = .ok (wordAt s s.pc) := by
  rw [fetch_of_valid ((validAccess_iff_inMemory _ _).2 h), loadLE_four]
  rfl

@[simp] theorem byteAt_reset (b : Word) : byteAt State.reset b = 0#8 := rfl

/-! ### An instruction whose rd is x0 only moves pc -/

theorem goTo_movesPc (s : State) (a : Word) : MovesPc (goTo s a) s a :=
  ⟨_, rfl, rfl, fun _ => rfl, fun _ => rfl⟩

theorem writeBack_zero (s : State) (v : Word) : writeBack s 0#5 v = goTo s s.nextPc := by
  simp [writeBack, goTo]

theorem jumpLink_zero (s : State) (a : Word) : jumpLink s 0#5 a = goTo s a := by
  simp [jumpLink, goTo]

theorem jumpLink_zero_movesPc (s : State) (a : Word) : MovesPc (jumpLink s 0#5 a) s a := by
  rw [jumpLink_zero]
  exact goTo_movesPc s a

/-- A load to x0 is still done: it moves pc on where its bytes are in memory, and fails where they are not (R21, R190). -/
theorem load_zero_spec (n : Nat) (ext : Word → Word) (rs1 : RegIdx) (imm : BitVec 12) (s : State) :
    (InMemory (effectiveAddr s rs1 imm) n → MovesPc (load n ext 0#5 rs1 imm s) s (s.pc + 4#32)) ∧
    (¬ InMemory (effectiveAddr s rs1 imm) n →
      load n ext 0#5 rs1 imm s = .fault (.memoryFault .load (effectiveAddr s rs1 imm) n)) := by
  constructor
  · intro h
    rw [load_of_valid _ _ _ _ _ ((validAccess_iff_inMemory _ _).2 h), writeBack_zero]
    exact goTo_movesPc s _
  · intro h
    exact load_of_invalid _ _ _ _ _ ((validAccess_eq_false_iff _ _).2 h)

/-! ### States of the same view -/

/-- The stored word of slot 0 is in no view (R21). -/
theorem sameView_setSlot0 (s : State) (v : Word) : SameView s { s with regs := s.regs.set 0 v } := by
  refine ⟨rfl, fun r => ?_, fun _ _ => rfl⟩
  by_cases hr : r = 0#5
  · subst hr; simp
  · have hne : 0 ≠ r.toNat := fun e => hr (BitVec.eq_of_toNat_eq e.symm)
    simp [State.getReg, hr, Vector.getElem_set_ne _ _ hne]

/-- A valid load sees only bytes of memory. -/
theorem loadLE_sameView {s t : State} (h : SameView s t) {a : Word} {n : Nat} (hv : validAccess a n = true) :
    loadLE s.mem a n = loadLE t.mem a n :=
  loadLE_congr a fun i hi => h.read_eq ((validAccess_iff a n).1 hv i hi)

theorem memRead_sameView {s t : State} (h : SameView s t) (a : Word) (n : Nat) : memRead s a n = memRead t a n := by
  by_cases hv : validAccess a n = true
  · rw [memRead_of_valid hv, memRead_of_valid hv, loadLE_sameView h hv]
  · rw [Bool.not_eq_true] at hv
    rw [memRead_of_invalid hv, memRead_of_invalid hv]

theorem fetch_sameView {s t : State} (h : SameView s t) : fetch s = fetch t := by
  unfold fetch
  rw [← h.pc_eq, memRead_sameView h]

theorem effectiveAddr_sameView {s t : State} (h : SameView s t) (rs1 : RegIdx) (imm : BitVec 12) :
    effectiveAddr s rs1 imm = effectiveAddr t rs1 imm := by
  rw [effectiveAddr, effectiveAddr, h.getReg_eq]

theorem nextPc_sameView {s t : State} (h : SameView s t) : s.nextPc = t.nextPc := by
  rw [State.nextPc, State.nextPc, h.pc_eq]

/-- The same bytes stored in two memories leave them alike wherever they were. -/
theorem read_storeLE_congr {m m' : Memory} {b : Nat} (h : m.read b = m'.read b) (a v : Word) (n : Nat) :
    (storeLE m a v n).read b = (storeLE m' a v n).read b := by
  induction n with
  | zero => exact h
  | succ n ih => rw [storeLE, storeLE, Memory.read_write, Memory.read_write, ih]

/-! ### The shared operations answer alike in states of the same view -/

section
variable {s t : State} (h : SameView s t)
include h

theorem goTo_sameView {a b : Word} (hab : a = b) : SameOutcome (goTo s a) (goTo t b) :=
  ⟨hab, h.getReg_eq, fun _ hb => h.read_eq hb⟩

theorem jumpLink_sameView (rd : RegIdx) {a b : Word} (hab : a = b) :
    SameOutcome (jumpLink s rd a) (jumpLink t rd b) := by
  refine ⟨hab, fun r => ?_, fun b hb => ?_⟩
  · simp [State.getReg_setReg, h.getReg_eq r, nextPc_sameView h]
  · simpa [byteAt] using h.read_eq hb

theorem writeBack_sameView (rd : RegIdx) {u v : Word} (huv : u = v) :
    SameOutcome (writeBack s rd u) (writeBack t rd v) := by
  refine ⟨nextPc_sameView h, fun r => ?_, fun b hb => ?_⟩
  · simp [State.getReg_setReg, h.getReg_eq r, huv]
  · simpa [byteAt] using h.read_eq hb

theorem aluReg_sameView (op : Word → Word → Word) (rd rs1 rs2 : RegIdx) :
    SameOutcome (aluReg op rd rs1 rs2 s) (aluReg op rd rs1 rs2 t) :=
  writeBack_sameView h rd (by rw [h.getReg_eq, h.getReg_eq])

theorem aluImm_sameView (op : Word → Word → Word) (rd rs1 : RegIdx) (imm : BitVec 12) :
    SameOutcome (aluImm op rd rs1 imm s) (aluImm op rd rs1 imm t) :=
  writeBack_sameView h rd (by rw [h.getReg_eq])

theorem shiftImm_sameView (op : Word → Nat → Word) (rd rs1 : RegIdx) (shamt : BitVec 5) :
    SameOutcome (shiftImm op rd rs1 shamt s) (shiftImm op rd rs1 shamt t) :=
  writeBack_sameView h rd (by rw [h.getReg_eq])

theorem branch_sameView (p : Word → Word → Bool) (rs1 rs2 : RegIdx) (imm : BitVec 13) :
    SameOutcome (branch p rs1 rs2 imm s) (branch p rs1 rs2 imm t) :=
  goTo_sameView h (by rw [h.getReg_eq, h.getReg_eq, nextPc_sameView h, branchTarget, branchTarget, h.pc_eq])

theorem load_sameView (n : Nat) (ext : Word → Word) (rd rs1 : RegIdx) (imm : BitVec 12) :
    SameOutcome (load n ext rd rs1 imm s) (load n ext rd rs1 imm t) := by
  unfold load
  rw [effectiveAddr_sameView h, memRead_sameView h]
  split
  · exact writeBack_sameView h rd rfl
  · rfl

theorem store_sameView (n : Nat) (rs2 rs1 : RegIdx) (imm : BitVec 12) :
    SameOutcome (store n rs2 rs1 imm s) (store n rs2 rs1 imm t) := by
  have ha := effectiveAddr_sameView h rs1 imm
  by_cases hv : validAccess (effectiveAddr s rs1 imm) n = true
  · rw [store_of_valid _ _ _ _ hv, store_of_valid _ _ _ _ (ha ▸ hv), ← ha, ← h.getReg_eq rs2, ← h.pc_eq]
    exact ⟨rfl, h.getReg_eq, fun b hb => read_storeLE_congr (h.read_eq hb) _ _ _⟩
  · rw [Bool.not_eq_true] at hv
    rw [store_of_invalid _ _ _ _ hv, store_of_invalid _ _ _ _ (ha ▸ hv), ← ha]
    rfl

/-- Every instruction answers alike in states of the same view. -/
theorem exec_sameView (i : Instr) : SameOutcome (exec i s) (exec i t) := by
  cases i with
  | lui => exact writeBack_sameView h _ rfl
  | auipc => exact writeBack_sameView h _ (by rw [h.pc_eq])
  | jal => exact jumpLink_sameView h _ (by rw [jalTarget, jalTarget, h.pc_eq])
  | jalr => exact jumpLink_sameView h _ (by rw [h.getReg_eq])
  | beq | bne | blt | bge | bltu | bgeu =>
    simp only [exec, execBeq, execBne, execBlt, execBge, execBltu, execBgeu]
    exact branch_sameView h _ _ _ _
  | lb | lh | lw | lbu | lhu =>
    simp only [exec, execLb, execLh, execLw, execLbu, execLhu]
    exact load_sameView h _ _ _ _ _
  | sb | sh | sw =>
    simp only [exec, execSb, execSh, execSw]
    exact store_sameView h _ _ _ _
  | addi | slti | sltiu | xori | ori | andi =>
    simp only [exec, execAddi, execSlti, execSltiu, execXori, execOri, execAndi]
    exact aluImm_sameView h _ _ _ _
  | slli | srli | srai =>
    simp only [exec, execSlli, execSrli, execSrai]
    exact shiftImm_sameView h _ _ _ _
  | add | sub | sll | slt | sltu | xor | srl | sra | or | and =>
    simp only [exec, execAdd, execSub, execSll, execSlt, execSltu, execXor, execSrl, execSra, execOr, execAnd]
    exact aluReg_sameView h _ _ _ _
  | mul | mulh | mulhsu | mulhu | div | divu | rem | remu =>
    simp only [exec, execMul, execMulh, execMulhsu, execMulhu, execDiv, execDivu, execRem, execRemu]
    exact aluReg_sameView h _ _ _ _
  | fence | fenceTso | pause => exact goTo_sameView h (nextPc_sameView h)
  | ecall => exact congrArg Fault.environmentCall h.pc_eq
  | ebreak => exact congrArg Fault.breakpoint h.pc_eq

theorem execWord_sameView (w : Word) : SameOutcome (execWord w s) (execWord w t) := by
  unfold execWord
  split
  · exact exec_sameView h _
  · rfl

/-- A step is a function of pc, the register reads and the bytes of memory. -/
theorem step_sameView : SameOutcome (step s) (step t) := by
  unfold step
  rw [fetch_sameView h]
  split
  · exact execWord_sameView h _
  · rfl

end

/-! ### The statements -/

/-- Settles O24: x0 reads as zero by `getReg`, an instruction with rd = x0 only moves pc, and slot 0 is in no view, which is all a
step can see. -/
theorem registerZeroIsHardwired : Obligations.RegisterZeroIsHardwired := by
  unfold Obligations.RegisterZeroIsHardwired
  refine ⟨fun s v => ?_, fun _ _ t _ => t.getReg_zero, fun s rs1 imm => ?_, fun s rs1 imm off => ?_, fun s v => ?_⟩
  · exact ⟨s.getReg_zero, s.setReg_zero v, State.getReg_zero _⟩
  · simp only [List.forall_mem_cons]
    exact ⟨load_zero_spec 1 (sext 8) rs1 imm s, load_zero_spec 2 (sext 16) rs1 imm s, load_zero_spec 4 id rs1 imm s,
      load_zero_spec 1 (zext 8) rs1 imm s, load_zero_spec 2 (zext 16) rs1 imm s, by simp⟩
  · exact ⟨jumpLink_zero_movesPc s _, jumpLink_zero_movesPc s _⟩
  · exact step_sameView (sameView_setSlot0 s v)

/-- Settles O23: the reset state's lemmas, and the fetch of the word at pc, which at pc 0 is in memory. -/
theorem resetZeroesEverything : Obligations.ResetZeroesEverything := by
  unfold Obligations.ResetZeroesEverything
  refine ⟨State.reset_pc, State.reset_getReg, byteAt_reset, fun s hs => ?_⟩
  rw [State.reset_pc] at hs
  have hin : InMemory s.pc 4 := by
    rw [hs]
    unfold InMemory
    decide
  rw [fetch_eq_wordAt hin, hs]
  rfl

end Sys2Proof.Machine
end

section
/-! The byte order of memory (20_memory.md rule R52): what a byte reads after a write, and what a read of each width gives, in the
claims' words. -/

namespace Sys2Proof.Machine

/-! ### Part of an access -/

/-- Part of an access inside memory is inside memory (20_memory.md rules R51, R65). -/
theorem inMemory_part {a : Word} {n k m : Nat} (h : InMemory a n) (hkm : k + m ≤ n) :
    InMemory (a + BitVec.ofNat 32 k) m := by
  intro i hi
  rw [BitVec.add_assoc, ← BitVec.ofNat_add]
  exact h (k + i) (by omega)

/-! ### The bytes of a write -/

theorem inMemory_of_memWrite {s t : State} {a v : Word} {n : Nat} (h : memWrite s a n v = .ok t) : InMemory a n :=
  (validAccess_iff_inMemory a n).1 (memWrite_ok h).1

/-- After a write, byte i of the value stands at a + i (20_memory.md rules R52, R54). -/
theorem byteAt_memWrite {s t : State} {a v : Word} {n : Nat} (h : memWrite s a n v = .ok t) (hn : n ≤ 4) {i : Nat} (hi : i < n) :
    byteAt t (a + BitVec.ofNat 32 i) = v.extractLsb' (8 * i) 8 := by
  obtain ⟨-, rfl⟩ := memWrite_ok h
  exact read_storeLE_byte s.mem a v hi hn

/-- The byte at the address of a write is the value's lowest. -/
theorem byteAt_memWrite_zero {s t : State} {a v : Word} {n : Nat} (h : memWrite s a n v = .ok t) (hn : n ≤ 4) (hpos : 0 < n) :
    byteAt t a = v.extractLsb' 0 8 := by
  simpa using byteAt_memWrite h hn hpos

/-! ### The value of a read -/

theorem memRead_four {s : State} {a : Word} (h : InMemory a 4) : memRead s a 4 = .ok (wordAt s a) := by
  rw [memRead_of_valid ((validAccess_iff_inMemory a 4).2 h), loadLE_four]
  rfl

theorem memRead_two {s : State} {a : Word} (h : InMemory a 2) : memRead s a 2 = .ok ((halfAt s a).setWidth 32) := by
  rw [memRead_of_valid ((validAccess_iff_inMemory a 2).2 h), loadLE_two]
  rfl

theorem memRead_one {s : State} {a : Word} (h : InMemory a 1) : memRead s a 1 = .ok ((byteAt s a).setWidth 32) := by
  rw [memRead_of_valid ((validAccess_iff_inMemory a 1).2 h), loadLE_one]
  rfl

/-! ### Narrow reads of a stored word -/

/-- A byte read inside a stored word gives the byte of the word that stands there. -/
theorem memRead_one_of_memWrite {s t : State} {a v : Word} (h : memWrite s a 4 v = .ok t) {i : Nat} (hi : i < 4) :
    memRead t (a + BitVec.ofNat 32 i) 1 = .ok ((v.extractLsb' (8 * i) 8).setWidth 32) := by
  rw [memRead_one (inMemory_part (inMemory_of_memWrite h) (by omega)), byteAt_memWrite h le_rfl hi]

/-- A halfword read inside a stored word gives the two bytes of the word that stand there. -/
theorem memRead_two_of_memWrite {s t : State} {a v : Word} (h : memWrite s a 4 v = .ok t) {i : Nat} (hi : i + 1 < 4) :
    memRead t (a + BitVec.ofNat 32 i) 2 =
      .ok ((v.extractLsb' (8 * (i + 1)) 8 ++ v.extractLsb' (8 * i) 8).setWidth 32) := by
  have hnext : a + BitVec.ofNat 32 i + 1#32 = a + BitVec.ofNat 32 (i + 1) := by
    rw [BitVec.add_assoc, ← BitVec.ofNat_add]
  rw [memRead_two (inMemory_part (inMemory_of_memWrite h) (by omega)), halfAt, hnext, byteAt_memWrite h le_rfl hi,
    byteAt_memWrite h le_rfl (by omega)]

/-! ### The statement -/

/-- Settles O30: the bytes of a write stand at rising addresses, a read of each width and the fetch spell them so, and the rule's
example is those two facts put together. -/
theorem memoryIsLittleEndian : Obligations.MemoryIsLittleEndian := by
  unfold Obligations.MemoryIsLittleEndian
  refine ⟨fun s t a v h => ?word, fun s t a v h => ?half, fun s t a v h => byteAt_memWrite_zero h (by omega) (by omega),
    fun s a => ⟨memRead_four, memRead_two, memRead_one⟩, fun s => fetch_eq_wordAt, fun s t a h => ?narrow⟩
  case word =>
    exact ⟨byteAt_memWrite_zero h le_rfl (by omega), byteAt_memWrite h le_rfl (i := 1) (by omega),
      byteAt_memWrite h le_rfl (i := 2) (by omega), byteAt_memWrite h le_rfl (i := 3) (by omega)⟩
  case half =>
    exact ⟨byteAt_memWrite_zero h (by omega) (by omega), byteAt_memWrite h (by omega) (i := 1) (by omega)⟩
  case narrow =>
    have hlow := memRead_one_of_memWrite h (i := 0) (by omega)
    rw [BitVec.add_zero] at hlow
    exact ⟨hlow, memRead_one_of_memWrite h (i := 3) (by omega), memRead_two_of_memWrite h (i := 2) (by omega)⟩

end Sys2Proof.Machine
end

section
/-! The bit-field codec and the immediates (30_encoding.md rules R80, R81, R90 to R94): which bits a slice read or set concerns,
the immediate getters as concatenations of word fields, their ranges, and where the setters put each bit. -/

namespace Sys2Proof

/-! ### Runs of bits -/

/-- The mask of n ones from bit lo up, bit by bit. -/
theorem getLsbD_ones (lo n i : Nat) :
    (BitVec.ofNat 32 ((2 ^ n - 1) * 2 ^ lo)).getLsbD i = (decide (i < 32) && (decide (lo ≤ i) && decide (i - lo < n))) := by
  rw [BitVec.getLsbD_ofNat, Nat.testBit_mul_two_pow, Nat.testBit_two_pow_sub_one]

theorem extractLsb'_ushiftRight_zero (v : Word) (k n : Nat) : (v >>> k).extractLsb' 0 n = v.extractLsb' k n := by
  apply BitVec.eq_of_getLsbD_eq
  intro i hi
  simp [hi]

theorem extractLsb'_extractLsb'_zero (v : Word) {m n : Nat} (h : n ≤ m) :
    (v.extractLsb' 0 m).extractLsb' 0 n = v.extractLsb' 0 n := by
  apply BitVec.eq_of_getLsbD_eq
  intro i hi
  have hm : i < m := by omega
  simp [hi, hm]

/-- Bits of a sign extension below the old width are the old bits. -/
theorem extractLsb'_signExtend_of_le {m : Nat} (v : BitVec m) {k lo n : Nat} (h : lo + n ≤ m) (hk : m ≤ k) :
    (v.signExtend k).extractLsb' lo n = v.extractLsb' lo n := by
  apply BitVec.eq_of_getLsbD_eq
  intro i hi
  have hm : lo + i < m := by omega
  have hk' : lo + i < k := by omega
  rw [BitVec.getLsbD_extractLsb', BitVec.getLsbD_extractLsb', BitVec.getLsbD_signExtend]
  simp [hm, hk']

/-- A run of bits inside the slice set comes from the value. -/
theorem Slice.extractLsb'_set_inside (sl : Slice) (w v : Word) {lo n : Nat} (ho : sl.offset ≤ lo)
    (hm : ∀ i < n, sl.mask.getLsbD (lo + i) = true) :
    (sl.set w v).extractLsb' lo n = v.extractLsb' (lo - sl.offset) n := by
  apply BitVec.eq_of_getLsbD_eq
  intro i hi
  have ho' : sl.offset ≤ lo + i := by omega
  have hsub : lo + i - sl.offset = lo - sl.offset + i := by omega
  simp [Slice.getLsbD_set, hi, hm i hi, ho', hsub]

/-- A run of bits apart from the slice set is kept. -/
theorem Slice.extractLsb'_set_apart (sl : Slice) (w v : Word) {lo n : Nat}
    (hm : ∀ i < n, sl.mask.getLsbD (lo + i) = false) :
    (sl.set w v).extractLsb' lo n = w.extractLsb' lo n := by
  apply BitVec.eq_of_getLsbD_eq
  intro i hi
  simp [Slice.getLsbD_set, hi, hm i hi]

/-! ### The codec's two operations -/

/-- Settles O1: a mask of n ones from lo up, at offset lo, is a slice whose read is the field. -/
theorem getSliceReadsField : Obligations.GetSliceReadsField := by
  unfold Obligations.GetSliceReadsField
  refine ⟨fun _ _ _ => rfl, fun word lo n h => ?_⟩
  refine Slice.get_eq_extract ⟨BitVec.ofNat 32 ((2 ^ n - 1) * 2 ^ lo), lo⟩ n word fun i _ => ?_
  rw [getLsbD_ones, Nat.add_sub_cancel_left]
  by_cases hi : i < n
  · have : lo + i < 32 := by omega
    simp [hi, this]
  · simp [hi]

/-- Settles O2: the bits of a slice set, one by one, and what is read back from it. -/
theorem setSliceWritesMaskedBits : Obligations.SetSliceWritesMaskedBits := by
  unfold Obligations.SetSliceWritesMaskedBits
  refine ⟨fun word value mask offset => ⟨rfl, fun i hi => ?kept, fun i hi => ?masked, ?readBack⟩, fun word imm => ?part⟩
  case kept => exact (Slice.getLsbD_set ⟨mask, offset⟩ word value i).trans (if_neg (by simp [hi]))
  case masked => exact (Slice.getLsbD_set ⟨mask, offset⟩ word value i).trans (if_pos hi)
  case readBack => exact Slice.get_set_self ⟨mask, offset⟩ word value
  case part =>
    exact (sliceSImmHi.extractLsb'_set_inside word (imm >>> 5) le_rfl (by decide)).trans
      (extractLsb'_ushiftRight_zero imm 5 7)

/-! ### The immediate getters -/

theorem immI_eq (w : Word) : immI w = (w.extractLsb' 20 12).signExtend 32 := by
  rw [immI, sext, Slice.get_eq_extract _ 12 w (by decide), BitVec.setWidth_setWidth_of_le _ (by decide),
    BitVec.setWidth_eq]
  rfl

theorem immS_eq (w : Word) : immS w = (w.extractLsb' 25 7 ++ w.extractLsb' 7 5).signExtend 32 := by
  rw [immS, sext, Slice.get_eq_extract _ 7 w (by decide), Slice.get_eq_extract _ 5 w (by decide)]
  congr 1
  apply BitVec.eq_of_getLsbD_eq
  intro i hi
  simp only [BitVec.getLsbD_setWidth, BitVec.getLsbD_or, BitVec.getLsbD_shiftLeft, BitVec.getLsbD_append, sliceSImmHi, sliceSImmLo]
  interval_cases i <;> simp

theorem immB_eq (w : Word) :
    immB w =
      (w.extractLsb' 31 1 ++ w.extractLsb' 7 1 ++ w.extractLsb' 25 6 ++ w.extractLsb' 8 4 ++ 0#1).signExtend 32 := by
  rw [immB, sext, Slice.get_eq_extract _ 1 w (by decide), Slice.get_eq_extract _ 1 w (by decide),
    Slice.get_eq_extract _ 6 w (by decide), Slice.get_eq_extract _ 4 w (by decide)]
  congr 1
  apply BitVec.eq_of_getLsbD_eq
  intro i hi
  simp only [BitVec.getLsbD_setWidth, BitVec.getLsbD_or, BitVec.getLsbD_shiftLeft, BitVec.getLsbD_append, sliceBImm12,
    sliceBImm11, sliceBImm10to5, sliceBImm4to1]
  interval_cases i <;> simp

theorem immJ_eq (w : Word) :
    immJ w =
      (w.extractLsb' 31 1 ++ w.extractLsb' 12 8 ++ w.extractLsb' 20 1 ++ w.extractLsb' 21 10 ++ 0#1).signExtend 32 := by
  rw [immJ, sext, Slice.get_eq_extract _ 1 w (by decide), Slice.get_eq_extract _ 8 w (by decide),
    Slice.get_eq_extract _ 1 w (by decide), Slice.get_eq_extract _ 10 w (by decide)]
  congr 1
  apply BitVec.eq_of_getLsbD_eq
  intro i hi
  simp only [BitVec.getLsbD_setWidth, BitVec.getLsbD_or, BitVec.getLsbD_shiftLeft, BitVec.getLsbD_append, sliceJImm20,
    sliceJImm19to12, sliceJImm11, sliceJImm10to1]
  interval_cases i <;> simp

/-! ### Ranges of sign-extended fields -/

/-- A sign-extended field of m + 1 bits is a number of m + 1 bits. -/
theorem signExtend_toInt_range {m : Nat} (v : BitVec (m + 1)) (h : m + 1 ≤ 32) :
    -2 ^ m ≤ (v.signExtend 32).toInt ∧ (v.signExtend 32).toInt ≤ 2 ^ m - 1 := by
  rw [BitVec.toInt_signExtend_of_le h]
  have hlo := v.le_toInt
  have hhi := v.toInt_lt
  rw [Nat.add_sub_cancel] at hlo hhi
  omega

/-- A word whose bit 0 is clear is an even number. -/
theorem toInt_even_of_bit0 {v : Word} (h : v.getLsbD 0 = false) : v.toInt % 2 = 0 := by
  have hn : v.toNat % 2 = 0 := by
    simpa [BitVec.getLsbD, Nat.testBit_zero] using h
  rw [BitVec.toInt_eq_toNat_cond]
  split <;> omega

/-- A field with a zero bit appended is even, and so its range ends one below the odd bound. -/
theorem signExtend_append_zero_range {m : Nat} (v : BitVec m) (h : 0 < m) (hm : m + 1 ≤ 32) :
    ((v ++ 0#1).signExtend 32).getLsbD 0 = false ∧
    -2 ^ m ≤ ((v ++ 0#1).signExtend 32).toInt ∧ ((v ++ 0#1).signExtend 32).toInt ≤ 2 ^ m - 2 := by
  obtain ⟨hlo, hhi⟩ := signExtend_toInt_range (v ++ 0#1) hm
  have hbit : ((v ++ 0#1).signExtend 32).getLsbD 0 = false := by
    rw [BitVec.getLsbD_signExtend, BitVec.getLsbD_append]
    simp
  have heven := toInt_even_of_bit0 hbit
  have hpow : (2 : Int) ^ m = 2 * 2 ^ (m - 1) := by rw [← pow_succ', Nat.sub_add_cancel h]
  exact ⟨hbit, hlo, by omega⟩

/-- "a 12-bit signed value" (R90). -/
theorem immI_range (w : Word) : -2048 ≤ (immI w).toInt ∧ (immI w).toInt ≤ 2047 := by
  rw [immI_eq]
  exact signExtend_toInt_range (w.extractLsb' 20 12) (by decide)

theorem immS_range (w : Word) : -2048 ≤ (immS w).toInt ∧ (immS w).toInt ≤ 2047 := by
  rw [immS_eq]
  exact signExtend_toInt_range (w.extractLsb' 25 7 ++ w.extractLsb' 7 5) (by decide)

/-- "an even number in -4096 to 4094" (R92). -/
theorem immB_range (w : Word) :
    (immB w).getLsbD 0 = false ∧ -4096 ≤ (immB w).toInt ∧ (immB w).toInt ≤ 4094 := by
  rw [immB_eq]
  exact signExtend_append_zero_range
    (w.extractLsb' 31 1 ++ w.extractLsb' 7 1 ++ w.extractLsb' 25 6 ++ w.extractLsb' 8 4) (by decide) (by decide)

theorem immJ_range (w : Word) :
    (immJ w).getLsbD 0 = false ∧ -1048576 ≤ (immJ w).toInt ∧ (immJ w).toInt ≤ 1048574 := by
  rw [immJ_eq]
  exact signExtend_append_zero_range
    (w.extractLsb' 31 1 ++ w.extractLsb' 12 8 ++ w.extractLsb' 20 1 ++ w.extractLsb' 21 10) (by decide) (by decide)

/-! ### The immediate setters -/

theorem setImmI_field (w imm : Word) : (setImmI w imm).extractLsb' 20 12 = imm.extractLsb' 0 12 :=
  sliceIImm.extractLsb'_set_inside w imm le_rfl (by decide)

theorem setImmS_fields (w imm : Word) :
    (setImmS w imm).extractLsb' 7 5 = imm.extractLsb' 0 5 ∧ (setImmS w imm).extractLsb' 25 7 = imm.extractLsb' 5 7 := by
  simp (disch := decide) only [setImmS, Slice.extractLsb'_set_inside, Slice.extractLsb'_set_apart]
  exact ⟨rfl, extractLsb'_ushiftRight_zero imm 5 7⟩

theorem setImmB_fields (w imm : Word) :
    (setImmB w imm).extractLsb' 7 1 = imm.extractLsb' 11 1 ∧ (setImmB w imm).extractLsb' 8 4 = imm.extractLsb' 1 4 ∧
    (setImmB w imm).extractLsb' 25 6 = imm.extractLsb' 5 6 ∧ (setImmB w imm).extractLsb' 31 1 = imm.extractLsb' 12 1 := by
  simp (disch := decide) only [setImmB, Slice.extractLsb'_set_inside, Slice.extractLsb'_set_apart]
  exact ⟨extractLsb'_ushiftRight_zero imm 11 1, extractLsb'_ushiftRight_zero imm 1 4, extractLsb'_ushiftRight_zero imm 5 6,
    extractLsb'_ushiftRight_zero imm 12 1⟩

theorem setImmJ_fields (w imm : Word) :
    (setImmJ w imm).extractLsb' 21 10 = imm.extractLsb' 1 10 ∧ (setImmJ w imm).extractLsb' 20 1 = imm.extractLsb' 11 1 ∧
    (setImmJ w imm).extractLsb' 12 8 = imm.extractLsb' 12 8 ∧ (setImmJ w imm).extractLsb' 31 1 = imm.extractLsb' 20 1 := by
  simp (disch := decide) only [setImmJ, Slice.extractLsb'_set_inside, Slice.extractLsb'_set_apart]
  exact ⟨extractLsb'_ushiftRight_zero imm 1 10, extractLsb'_ushiftRight_zero imm 11 1, extractLsb'_ushiftRight_zero imm 12 8,
    extractLsb'_ushiftRight_zero imm 20 1⟩

/-- Settles O4: each getter is its fields' concatenation, whose width gives the range, and each setter puts every part of the
immediate in its own slice. -/
theorem immediateFieldsAsStated : Obligations.ImmediateFieldsAsStated := by
  unfold Obligations.ImmediateFieldsAsStated
  refine ⟨fun w imm => ?formI, fun w imm => ?formS, fun w imm => ?formB, fun w imm => ?formJ, by decide, by decide, by decide⟩
  case formI =>
    obtain ⟨hlo, hhi⟩ := immI_range w
    exact ⟨immI_eq w, hlo, hhi, rfl, setImmI_field w imm⟩
  case formS =>
    obtain ⟨hlo, hhi⟩ := immS_range w
    exact ⟨immS_eq w, hlo, hhi, rfl, setImmS_fields w imm⟩
  case formB =>
    obtain ⟨heven, hlo, hhi⟩ := immB_range w
    exact ⟨immB_eq w, heven, hlo, hhi, rfl, setImmB_fields w imm⟩
  case formJ =>
    obtain ⟨heven, hlo, hhi⟩ := immJ_range w
    exact ⟨immJ_eq w, heven, hlo, hhi, rfl, setImmJ_fields w imm⟩

end Sys2Proof
end

section
/-! The encoders (30_encoding.md rules R100 to R108): a word is the concatenation of its fields, and the word of each format is
that of its operands and constants. -/

namespace Sys2Proof

/-! ### A word is its fields -/

/-- The word in the fields of the R format, which are those of S and of a shift too (R85). -/
theorem word_eq_fieldsR (w : Word) :
    w = w.extractLsb' 25 7 ++ w.extractLsb' 20 5 ++ w.extractLsb' 15 5 ++ w.extractLsb' 12 3 ++ w.extractLsb' 7 5 ++
      w.extractLsb' 0 7 := by
  simp only [BitVec.extractLsb'_append_extractLsb'_eq_extractLsb']
  exact BitVec.extractLsb'_eq_self.symm

theorem word_eq_fieldsI (w : Word) :
    w = w.extractLsb' 20 12 ++ w.extractLsb' 15 5 ++ w.extractLsb' 12 3 ++ w.extractLsb' 7 5 ++ w.extractLsb' 0 7 := by
  simp only [BitVec.extractLsb'_append_extractLsb'_eq_extractLsb']
  exact BitVec.extractLsb'_eq_self.symm

theorem word_eq_fieldsB (w : Word) :
    w = w.extractLsb' 31 1 ++ w.extractLsb' 25 6 ++ w.extractLsb' 20 5 ++ w.extractLsb' 15 5 ++ w.extractLsb' 12 3 ++
      w.extractLsb' 8 4 ++ w.extractLsb' 7 1 ++ w.extractLsb' 0 7 := by
  simp only [BitVec.extractLsb'_append_extractLsb'_eq_extractLsb']
  exact BitVec.extractLsb'_eq_self.symm

theorem word_eq_fieldsU (w : Word) : w = w.extractLsb' 12 20 ++ w.extractLsb' 7 5 ++ w.extractLsb' 0 7 := by
  simp only [BitVec.extractLsb'_append_extractLsb'_eq_extractLsb']
  exact BitVec.extractLsb'_eq_self.symm

theorem word_eq_fieldsJ (w : Word) :
    w = w.extractLsb' 31 1 ++ w.extractLsb' 21 10 ++ w.extractLsb' 20 1 ++ w.extractLsb' 12 8 ++ w.extractLsb' 7 5 ++
      w.extractLsb' 0 7 := by
  simp only [BitVec.extractLsb'_append_extractLsb'_eq_extractLsb']
  exact BitVec.extractLsb'_eq_self.symm

theorem word_eq_fieldsFence (w : Word) :
    w = w.extractLsb' 28 4 ++ w.extractLsb' 24 4 ++ w.extractLsb' 20 4 ++ w.extractLsb' 15 5 ++ w.extractLsb' 12 3 ++
      w.extractLsb' 7 5 ++ w.extractLsb' 0 7 := by
  simp only [BitVec.extractLsb'_append_extractLsb'_eq_extractLsb']
  exact BitVec.extractLsb'_eq_self.symm

/-! ### The word of each format -/

/-- A field put on a 32-bit port is the port's low bits. -/
theorem extractLsb'_setWidth_self {m : Nat} (v : BitVec m) (h : m ≤ 32) : (v.setWidth 32).extractLsb' 0 m = v := by
  rw [BitVec.extractLsb'_setWidth_of_le (by omega), BitVec.extractLsb'_eq_self]

theorem encR_eq_append (op : BitVec 7) (f3 : BitVec 3) (f7 : BitVec 7) (rd rs1 rs2 : RegIdx) :
    encR op f3 f7 rd rs1 rs2 = f7 ++ rs2 ++ rs1 ++ f3 ++ rd ++ op := by
  rw [word_eq_fieldsR (encR op f3 f7 rd rs1 rs2)]
  simp (disch := decide) only [encR, setRs2, setRs1, setRd, setFunct7, setFunct3, encOpcode, Slice.extractLsb'_set_inside,
    Slice.extractLsb'_set_apart, sliceOpcode, sliceRd, sliceFunct3, sliceRs1, sliceRs2, sliceFunct7, Nat.sub_self,
    extractLsb'_setWidth_self]

theorem encI_eq_append (op : BitVec 7) (f3 : BitVec 3) (rd rs1 : RegIdx) (imm : Word) :
    encI op f3 rd rs1 imm = imm.extractLsb' 0 12 ++ rs1 ++ f3 ++ rd ++ op := by
  rw [word_eq_fieldsI (encI op f3 rd rs1 imm)]
  simp (disch := decide) only [encI, setImmI, setRs1, setRd, setFunct3, encOpcode, Slice.extractLsb'_set_inside,
    Slice.extractLsb'_set_apart, sliceOpcode, sliceRd, sliceFunct3, sliceRs1, sliceIImm, Nat.sub_self,
    extractLsb'_setWidth_self]

theorem encS_eq_append (op : BitVec 7) (f3 : BitVec 3) (rs2 rs1 : RegIdx) (imm : Word) :
    encS op f3 rs2 rs1 imm = imm.extractLsb' 5 7 ++ rs2 ++ rs1 ++ f3 ++ imm.extractLsb' 0 5 ++ op := by
  rw [word_eq_fieldsR (encS op f3 rs2 rs1 imm)]
  simp (disch := decide) only [encS, setImmS, setRs2, setRs1, setFunct3, encOpcode, Slice.extractLsb'_set_inside,
    Slice.extractLsb'_set_apart, sliceOpcode, sliceFunct3, sliceRs1, sliceRs2, sliceSImmLo, sliceSImmHi, Nat.sub_self,
    extractLsb'_setWidth_self, extractLsb'_ushiftRight_zero]

theorem encB_eq_append (op : BitVec 7) (f3 : BitVec 3) (rs1 rs2 : RegIdx) (imm : Word) :
    encB op f3 rs1 rs2 imm =
      imm.extractLsb' 12 1 ++ imm.extractLsb' 5 6 ++ rs2 ++ rs1 ++ f3 ++ imm.extractLsb' 1 4 ++ imm.extractLsb' 11 1 ++ op := by
  rw [word_eq_fieldsB (encB op f3 rs1 rs2 imm)]
  simp (disch := decide) only [encB, setImmB, setRs2, setRs1, setFunct3, encOpcode, Slice.extractLsb'_set_inside,
    Slice.extractLsb'_set_apart, sliceOpcode, sliceFunct3, sliceRs1, sliceRs2, sliceBImm11, sliceBImm4to1, sliceBImm10to5,
    sliceBImm12, Nat.sub_self, extractLsb'_setWidth_self, extractLsb'_ushiftRight_zero]

theorem encU_eq_append (op : BitVec 7) (rd : RegIdx) (v : Word) : encU op rd v = v.extractLsb' 0 20 ++ rd ++ op := by
  rw [word_eq_fieldsU (encU op rd v)]
  simp (disch := decide) only [encU, setImmU, setRd, encOpcode, Slice.extractLsb'_set_inside, Slice.extractLsb'_set_apart,
    sliceOpcode, sliceRd, sliceUImm, Nat.sub_self, extractLsb'_setWidth_self]

theorem encJ_eq_append (op : BitVec 7) (rd : RegIdx) (imm : Word) :
    encJ op rd imm =
      imm.extractLsb' 20 1 ++ imm.extractLsb' 1 10 ++ imm.extractLsb' 11 1 ++ imm.extractLsb' 12 8 ++ rd ++ op := by
  rw [word_eq_fieldsJ (encJ op rd imm)]
  simp (disch := decide) only [encJ, setImmJ, setRd, encOpcode, Slice.extractLsb'_set_inside, Slice.extractLsb'_set_apart,
    sliceOpcode, sliceRd, sliceJImm10to1, sliceJImm11, sliceJImm19to12, sliceJImm20, Nat.sub_self, extractLsb'_setWidth_self,
    extractLsb'_ushiftRight_zero]

/-- Of a shift's immediate only the low five bits are left beside funct7 (R107). -/
theorem encShift_eq_append (op : BitVec 7) (f3 : BitVec 3) (f7 : BitVec 7) (rd rs1 : RegIdx) (imm : Word) :
    encShift op f3 f7 rd rs1 imm = f7 ++ imm.extractLsb' 0 5 ++ rs1 ++ f3 ++ rd ++ op := by
  rw [word_eq_fieldsR (encShift op f3 f7 rd rs1 imm)]
  simp (disch := decide) only [encShift, setFunct7, setImmI, setRs1, setRd, setFunct3, encOpcode,
    Slice.extractLsb'_set_inside, Slice.extractLsb'_set_apart, sliceOpcode, sliceRd, sliceFunct3, sliceRs1, sliceIImm,
    sliceFunct7, Nat.sub_self, extractLsb'_setWidth_self]

theorem encFence_eq_append (op : BitVec 7) (f3 : BitVec 3) (rd rs1 : RegIdx) (succ pred fm : Word) :
    encFence op f3 rd rs1 succ pred fm =
      fm.extractLsb' 0 4 ++ pred.extractLsb' 0 4 ++ succ.extractLsb' 0 4 ++ rs1 ++ f3 ++ rd ++ op := by
  rw [word_eq_fieldsFence (encFence op f3 rd rs1 succ pred fm)]
  simp (disch := decide) only [encFence, setRs1, setRd, setFunct3, encOpcode, Slice.extractLsb'_set_inside,
    Slice.extractLsb'_set_apart, sliceOpcode, sliceRd, sliceFunct3, sliceRs1, sliceFenceSucc, sliceFencePred, sliceFenceFm,
    Nat.sub_self, extractLsb'_setWidth_self]

/-! ### Which instructions have which format -/

/-- Settles O6: the encoders' words are their fields put together, and the format column says which encoder an instruction uses. -/
theorem encodersLayFieldsOut : Obligations.EncodersLayFieldsOut := by
  unfold Obligations.EncodersLayFieldsOut
  refine ⟨fun op f3 f7 rd rs1 rs2 imm => ?words, fun id => ?formats, fun p => ?encoders, by decide, by decide, by decide,
    by decide, by decide⟩
  case words =>
    exact ⟨encR_eq_append .., encI_eq_append .., encS_eq_append .., encB_eq_append .., encJ_eq_append ..⟩
  case formats => cases id <;> decide
  case encoders => simp [encodePorts, formatOf]

end Sys2Proof
end

section
/-! The decode tree (30_encoding.md rules R121 to R136): one equation per opcode, what each level answers, which words are UNDEF,
and what a step and the renderer do with them. -/

namespace Sys2Proof

open Machine

/-! ### The tree, one equation per opcode -/

section
variable {w : Word}

theorem decodeId_lui (h : opcodeOf w = 0x37#7) : decodeId w = .lui := by simp [decodeId, h]

theorem decodeId_auipc (h : opcodeOf w = 0x17#7) : decodeId w = .auipc := by simp [decodeId, h]

theorem decodeId_jal (h : opcodeOf w = 0x6F#7) : decodeId w = .jal := by simp [decodeId, h]

theorem decodeId_jalr (h : opcodeOf w = 0x67#7) : decodeId w = if funct3Of w = 0#3 then .jalr else .undef := by
  simp [decodeId, h]

theorem decodeId_branch (h : opcodeOf w = 0x63#7) : decodeId w = branchId (funct3Of w) := by simp [decodeId, h]

theorem decodeId_load (h : opcodeOf w = 0x03#7) : decodeId w = loadId (funct3Of w) := by simp [decodeId, h]

theorem decodeId_store (h : opcodeOf w = 0x23#7) : decodeId w = storeId (funct3Of w) := by simp [decodeId, h]

theorem decodeId_opImm (h : opcodeOf w = 0x13#7) : decodeId w = opImmId (funct3Of w) (funct7Of w) := by simp [decodeId, h]

theorem decodeId_op (h : opcodeOf w = 0x33#7) : decodeId w = opId (funct3Of w) (funct7Of w) := by simp [decodeId, h]

theorem decodeId_system (h : opcodeOf w = 0x73#7) : decodeId w = systemId w := by simp [decodeId, h]

theorem decodeId_miscMem (h : opcodeOf w = 0x0F#7) : decodeId w = miscMemId w := by simp [decodeId, h]

/-- The opcodes of the tree (R122). -/
def treeOpcodes : List (BitVec 7) :=
  [0x37#7, 0x17#7, 0x6F#7, 0x67#7, 0x63#7, 0x03#7, 0x23#7, 0x13#7, 0x33#7, 0x73#7, 0x0F#7]

theorem decodeId_of_not_mem_treeOpcodes (h : opcodeOf w ∉ treeOpcodes) : decodeId w = .undef := by
  simp only [treeOpcodes, List.mem_cons, List.not_mem_nil, or_false, not_or] at h
  simp [decodeId, h]

end

/-! ### What the levels below the opcode answer -/

theorem branchId_eq_undef_iff : ∀ f3 : BitVec 3, branchId f3 = .undef ↔ f3 ∈ [2#3, 3#3] := by decide

theorem loadId_eq_undef_iff : ∀ f3 : BitVec 3, loadId f3 = .undef ↔ f3 ∈ [3#3, 6#3, 7#3] := by decide

theorem storeId_eq_undef_iff : ∀ f3 : BitVec 3, storeId f3 = .undef ↔ f3 ∉ [0#3, 1#3, 2#3] := by decide

theorem opImmId_eq_undef_iff : ∀ (f3 : BitVec 3) (f7 : BitVec 7),
    opImmId f3 f7 = .undef ↔ f3 = 5#3 ∧ f7 ∉ [0x00#7, 0x20#7] := by decide

theorem opId_eq_undef_iff : ∀ (f3 : BitVec 3) (f7 : BitVec 7),
    opId f3 f7 = .undef ↔ f7 ∉ [0x00#7, 0x01#7] ∧ ¬ (f7 = 0x20#7 ∧ f3 ∈ [0#3, 5#3]) := by decide

theorem systemId_eq_undef_iff (w : Word) : systemId w = .undef ↔ w ≠ 0x00000073#32 ∧ w ≠ 0x00100073#32 := by
  unfold systemId
  split_ifs with hecall hebreak
  · simp [hecall]
  · simp [hebreak]
  · simp [hecall, hebreak]

/-- The two whole words of MISC_MEM have funct3 0, so funct3 alone decides which words are UNDEF (R133). -/
theorem miscMemId_eq_undef_iff (w : Word) : miscMemId w = .undef ↔ funct3Of w ≠ 0#3 := by
  unfold miscMemId
  split_ifs with htso hpause
  · subst htso; decide
  · subst hpause; decide
  · simpa
  · simpa

/-! ### The opcode of what the tree answers -/

theorem branchId_opcode : ∀ f3, branchId f3 ≠ .undef → opcodeConst (branchId f3) = 0x63#7 := by decide

theorem loadId_opcode : ∀ f3, loadId f3 ≠ .undef → opcodeConst (loadId f3) = 0x03#7 := by decide

theorem storeId_opcode : ∀ f3, storeId f3 ≠ .undef → opcodeConst (storeId f3) = 0x23#7 := by decide

theorem opImmId_opcode : ∀ f3 f7, opImmId f3 f7 ≠ .undef → opcodeConst (opImmId f3 f7) = 0x13#7 := by decide

theorem opId_opcode : ∀ f3 f7, opId f3 f7 ≠ .undef → opcodeConst (opId f3 f7) = 0x33#7 := by decide

theorem systemId_opcode {w : Word} (h : systemId w ≠ .undef) : opcodeConst (systemId w) = 0x73#7 := by
  unfold systemId at h ⊢
  split_ifs at h ⊢
  · rfl
  · rfl
  · exact absurd rfl h

theorem miscMemId_opcode {w : Word} (h : miscMemId w ≠ .undef) : opcodeConst (miscMemId w) = 0x0F#7 := by
  unfold miscMemId at h ⊢
  split_ifs at h ⊢
  · rfl
  · rfl
  · rfl
  · exact absurd rfl h

/-- A word that decodes to an instruction has the instruction's opcode. -/
theorem opcodeOf_of_decodeId {w : Word} {id : InstrId} (h : decodeId w = id) (hid : id ≠ .undef) :
    opcodeOf w = opcodeConst id := by
  subst h
  by_cases hop : opcodeOf w ∈ treeOpcodes
  · simp only [treeOpcodes, List.mem_cons, List.not_mem_nil, or_false] at hop
    rcases hop with h | h | h | h | h | h | h | h | h | h | h
    · rw [decodeId_lui h]; exact h
    · rw [decodeId_auipc h]; exact h
    · rw [decodeId_jal h]; exact h
    · rw [decodeId_jalr h] at hid ⊢
      split_ifs at hid ⊢
      · exact h
      · exact absurd rfl hid
    · rw [decodeId_branch h] at hid ⊢; rw [branchId_opcode _ hid, h]
    · rw [decodeId_load h] at hid ⊢; rw [loadId_opcode _ hid, h]
    · rw [decodeId_store h] at hid ⊢; rw [storeId_opcode _ hid, h]
    · rw [decodeId_opImm h] at hid ⊢; rw [opImmId_opcode _ _ hid, h]
    · rw [decodeId_op h] at hid ⊢; rw [opId_opcode _ _ hid, h]
    · rw [decodeId_system h] at hid ⊢; rw [systemId_opcode hid, h]
    · rw [decodeId_miscMem h] at hid ⊢; rw [miscMemId_opcode hid, h]
  · exact absurd (decodeId_of_not_mem_treeOpcodes hop) hid

/-! ### A word under a mask and its fields -/

/-- A run of bits that the mask covers is seen under the mask. -/
theorem extractLsb'_of_and_eq {w m k : Word} {lo n : Nat} (h : w &&& m = k) (hm : m.extractLsb' lo n = BitVec.allOnes n) :
    w.extractLsb' lo n = k.extractLsb' lo n := by
  rw [← h, BitVec.extractLsb'_and, hm, BitVec.and_allOnes]

/-- Under the mask of the U and J rows a word is its opcode. -/
theorem and_opcodeMask_iff (w : Word) (op : BitVec 7) : w &&& 0x0000007F#32 = 0#20 ++ 0#5 ++ op ↔ opcodeOf w = op := by
  constructor
  · intro h
    rw [opcodeOf_eq, extractLsb'_of_and_eq h (by decide), BitVec.extractLsb'_append_eq_right]
  · rintro rfl
    have h7 : (0x0000007F#32).extractLsb' 0 7 = BitVec.allOnes 7 := by decide
    rw [word_eq_fieldsU (w &&& 0x0000007F#32), opcodeOf_eq]
    simp only [BitVec.extractLsb'_and, h7, BitVec.and_allOnes]
    simp

/-- Under the mask of the I, S and B rows a word is its opcode and funct3. -/
theorem and_opcodeFunct3Mask_iff (w : Word) (op : BitVec 7) (f3 : BitVec 3) :
    w &&& 0x0000707F#32 = 0#12 ++ 0#5 ++ f3 ++ 0#5 ++ op ↔ opcodeOf w = op ∧ funct3Of w = f3 := by
  constructor
  · intro h
    rw [opcodeOf_eq, funct3Of_eq, extractLsb'_of_and_eq h (by decide), extractLsb'_of_and_eq h (by decide)]
    exact ⟨BitVec.extractLsb'_append_eq_right, by
      simp (disch := decide) only [BitVec.extractLsb'_append_eq_of_le]
      exact BitVec.extractLsb'_append_eq_right⟩
  · rintro ⟨rfl, rfl⟩
    have h7 : (0x0000707F#32).extractLsb' 0 7 = BitVec.allOnes 7 := by decide
    have h3 : (0x0000707F#32).extractLsb' 12 3 = BitVec.allOnes 3 := by decide
    rw [word_eq_fieldsI (w &&& 0x0000707F#32), opcodeOf_eq, funct3Of_eq]
    simp only [BitVec.extractLsb'_and, h7, h3, BitVec.and_allOnes]
    simp

/-! ### The arms that opcode, funct3 0 or the whole word decides (R123, R124, R132) -/

theorem decodeId_eq_lui_iff (w : Word) : decodeId w = .lui ↔ opcodeOf w = 0x37#7 :=
  ⟨fun h => opcodeOf_of_decodeId h (by decide), decodeId_lui⟩

theorem decodeId_eq_auipc_iff (w : Word) : decodeId w = .auipc ↔ opcodeOf w = 0x17#7 :=
  ⟨fun h => opcodeOf_of_decodeId h (by decide), decodeId_auipc⟩

theorem decodeId_eq_jal_iff (w : Word) : decodeId w = .jal ↔ opcodeOf w = 0x6F#7 :=
  ⟨fun h => opcodeOf_of_decodeId h (by decide), decodeId_jal⟩

theorem decodeId_eq_jalr_iff (w : Word) : decodeId w = .jalr ↔ opcodeOf w = 0x67#7 ∧ funct3Of w = 0#3 := by
  constructor
  · intro h
    have hop : opcodeOf w = 0x67#7 := opcodeOf_of_decodeId h (by decide)
    rw [decodeId_jalr hop] at h
    exact ⟨hop, by simpa using h⟩
  · rintro ⟨hop, hf3⟩
    rw [decodeId_jalr hop, if_pos hf3]

theorem eq_of_formatOf_fixed {id : InstrId} (h : formatOf id = .fixed) :
    id = .ecall ∨ id = .ebreak ∨ id = .fenceTso ∨ id = .pause := by
  revert h
  cases id <;> decide

/-- ECALL, EBREAK, FENCE_TSO and PAUSE are one word each (R132, R133). -/
theorem decodeId_eq_fixed_iff {id : InstrId} (hid : formatOf id = .fixed) (w : Word) : decodeId w = id ↔ w = fixedWord id := by
  constructor
  · intro h
    have hop := opcodeOf_of_decodeId h (by rintro rfl; cases hid)
    rcases eq_of_formatOf_fixed hid with rfl | rfl | rfl | rfl
    case inl | inr.inl =>
      rw [decodeId_system hop, systemId] at h
      split_ifs at h
      assumption
    case inr.inr.inl | inr.inr.inr =>
      rw [decodeId_miscMem hop, miscMemId] at h
      split_ifs at h
      assumption
  · rintro rfl
    rcases eq_of_formatOf_fixed hid with rfl | rfl | rfl | rfl <;> rfl

/-- Settles O8: the equations of these arms, and that a word has the opcode of what it decodes to. -/
theorem decodeFixedArms : Obligations.DecodeFixedArms := by
  unfold Obligations.DecodeFixedArms
  intro w
  rw [← opcodeOf_eq, ← funct3Of_eq, show 0xFFFFFFFF#32 = BitVec.allOnes 32 from rfl, BitVec.and_allOnes]
  exact ⟨decodeId_lui, decodeId_auipc, decodeId_jal, decodeId_jalr, decodeId_system,
    (decodeId_eq_lui_iff w).trans (and_opcodeMask_iff w 0x37#7).symm,
    (decodeId_eq_auipc_iff w).trans (and_opcodeMask_iff w 0x17#7).symm,
    (decodeId_eq_jal_iff w).trans (and_opcodeMask_iff w 0x6F#7).symm,
    (decodeId_eq_jalr_iff w).trans (and_opcodeFunct3Mask_iff w 0x67#7 0#3).symm,
    decodeId_eq_fixed_iff rfl w, decodeId_eq_fixed_iff rfl w⟩

/-! ### UNDEF words (R136, R149) -/

/-- Only the sentinel stands for no instruction. -/
theorem operandsOf_eq_none_iff (id : InstrId) (w : Word) : operandsOf id w = none ↔ id = .undef := by
  cases id <;> simp [operandsOf]

theorem decode_eq_none_iff (w : Word) : decode w = none ↔ decodeId w = .undef :=
  operandsOf_eq_none_iff _ w

/-- The words of the UNDEF set, opcode by opcode (R136). -/
theorem decodeId_eq_undef_iff (w : Word) :
    decodeId w = .undef ↔
      opcodeOf w ∉ treeOpcodes ∨
      (opcodeOf w = 0x67#7 ∧ funct3Of w ≠ 0#3) ∨
      (opcodeOf w = 0x63#7 ∧ funct3Of w ∈ [2#3, 3#3]) ∨
      (opcodeOf w = 0x03#7 ∧ funct3Of w ∈ [3#3, 6#3, 7#3]) ∨
      (opcodeOf w = 0x23#7 ∧ funct3Of w ∉ [0#3, 1#3, 2#3]) ∨
      (opcodeOf w = 0x13#7 ∧ funct3Of w = 5#3 ∧ funct7Of w ∉ [0x00#7, 0x20#7]) ∨
      (opcodeOf w = 0x33#7 ∧ funct7Of w ∉ [0x00#7, 0x01#7] ∧ ¬ (funct7Of w = 0x20#7 ∧ funct3Of w ∈ [0#3, 5#3])) ∨
      (opcodeOf w = 0x73#7 ∧ w ≠ 0x00000073#32 ∧ w ≠ 0x00100073#32) ∨
      (opcodeOf w = 0x0F#7 ∧ funct3Of w ≠ 0#3) := by
  by_cases hop : opcodeOf w ∈ treeOpcodes
  · have hmem := hop
    simp only [treeOpcodes, List.mem_cons, List.not_mem_nil, or_false] at hop
    rcases hop with h | h | h | h | h | h | h | h | h | h | h
    · rw [decodeId_lui h, h]; simp [treeOpcodes]
    · rw [decodeId_auipc h, h]; simp [treeOpcodes]
    · rw [decodeId_jal h, h]; simp [treeOpcodes]
    · rw [decodeId_jalr h, h]; simp [treeOpcodes]
    · rw [decodeId_branch h, branchId_eq_undef_iff, h]; simp [treeOpcodes]
    · rw [decodeId_load h, loadId_eq_undef_iff, h]; simp [treeOpcodes]
    · rw [decodeId_store h, storeId_eq_undef_iff, h]; simp [treeOpcodes]
    · rw [decodeId_opImm h, opImmId_eq_undef_iff, h]; simp [treeOpcodes]
    · rw [decodeId_op h, opId_eq_undef_iff, h]; simp [treeOpcodes]
    · rw [decodeId_system h, systemId_eq_undef_iff, h]; simp [treeOpcodes]
    · rw [decodeId_miscMem h, miscMemId_eq_undef_iff, h]; simp [treeOpcodes]
  · exact iff_of_true (decodeId_of_not_mem_treeOpcodes hop) (.inl hop)

/-- Every opcode of the tree ends in 11. -/
theorem decodeId_of_low_bits {w : Word} (h : w.extractLsb' 0 2 ≠ 3#2) : decodeId w = .undef := by
  refine decodeId_of_not_mem_treeOpcodes fun hmem => h ?_
  have hlow : ∀ op ∈ treeOpcodes, op.extractLsb' 0 2 = 3#2 := by decide
  rw [← hlow _ hmem, opcodeOf_eq, extractLsb'_extractLsb'_zero w (by decide)]

theorem disassemble_of_undef {w : Word} (view : Option State) (h : decodeId w = .undef) :
    disassemble w view = .error (.unimplementedInstruction w) := by
  simp [disassemble, h]

theorem disassemble_of_ne_undef {w : Word} (view : Option State) (h : decodeId w ≠ .undef) :
    ∃ text, disassemble w view = .ok text := by
  unfold disassemble
  split
  · contradiction
  · split
    · exact ⟨_, rfl⟩
    · exact ⟨_, rfl⟩

/-- Settles O57: the renderer looks at the word's member of the enumeration first, and past UNDEF it always answers a text. -/
theorem renderingFailsExactlyOnUndef : Obligations.RenderingFailsExactlyOnUndef := by
  unfold Obligations.RenderingFailsExactlyOnUndef
  exact fun w view => ⟨disassemble_of_undef view, disassemble_of_ne_undef view⟩

/-- A step on a word that is no instruction ends in the sentinel's failure (R260, R270). -/
theorem step_of_undef {s : State} (hin : InMemory s.pc 4) (h : decode (wordAt s s.pc) = none) :
    step s = .fault (.undefinedInstruction (wordAt s s.pc)) := by
  simp [step, fetch_eq_wordAt hin, execWord, h, execUndef, raise]

/-- A failing step ends a cycle with its failure, and the state is the one before it (R272). -/
theorem cycle_of_fault {s : State} {f : Fault} (h : step s = .fault f) : cycle s = (s, some (.failure f)) := by
  simp [cycle, h]

/-- Settles O9: the UNDEF set of the tree, and what the step, the cycle and the renderer make of such a word. -/
theorem undefWordsAreTheListedOnes : Obligations.UndefWordsAreTheListedOnes := by
  unfold Obligations.UndefWordsAreTheListedOnes
  intro w
  rw [← opcodeOf_eq, ← funct3Of_eq, ← funct7Of_eq, decode_eq_none_iff]
  refine ⟨Iff.rfl, decodeId_eq_undef_iff w, decodeId_of_low_bits, fun h => ⟨fun s hin hw => ?_, fun view => ?_⟩, by decide,
    by decide⟩
  · subst hw
    have hstep := step_of_undef hin ((decode_eq_none_iff _).2 h)
    exact ⟨hstep, cycle_of_fault hstep⟩
  · exact disassemble_of_undef view h

end Sys2Proof
end

section
/-! The words the encoders build (30_encoding.md rules R100 to R112): which member of the enumeration such a word decodes to, and
that its encoder builds it again from the fields read from it. -/

namespace Sys2Proof

/-! ### The constants of a row, read from a word of it -/

section
variable {w : Word} {id : InstrId} (h : w &&& rowMask id = rowMatch id)
include h

theorem opcodeOf_of_row : opcodeOf w = opcodeConst id := by
  rw [opcodeOf_eq, extractLsb'_of_and_eq h (by cases id <;> decide)]
  cases id <;> decide

theorem funct3Of_of_row (hu : formatOf id ≠ .u) (hj : formatOf id ≠ .j) : funct3Of w = funct3Const id := by
  rw [funct3Of_eq, extractLsb'_of_and_eq h (by revert hu hj; cases id <;> decide)]
  cases id <;> decide

theorem funct7Of_of_row (hm : rowMask id = 0xFE00707F#32) : funct7Of w = funct7Const id := by
  rw [funct7Of_eq, extractLsb'_of_and_eq h (by rw [hm]; decide)]
  revert hm
  cases id <;> decide

/-- A word of a row decodes to the row's instruction, but for the two FENCE words that rows of one word take (R133, R134). -/
theorem decodeId_of_row (hid : id ≠ .undef) (hfence : id = .fence → w ≠ 0x8330000F#32 ∧ w ≠ 0x0100000F#32) :
    decodeId w = id := by
  have hop := opcodeOf_of_row h
  have hf3 := funct3Of_of_row h
  have hf7 := funct7Of_of_row h
  cases id with
  | lui => exact decodeId_lui hop
  | auipc => exact decodeId_auipc hop
  | jal => exact decodeId_jal hop
  | jalr => rw [decodeId_jalr hop, hf3 (by decide) (by decide)]; rfl
  | beq | bne | blt | bge | bltu | bgeu => rw [decodeId_branch hop, hf3 (by decide) (by decide)]; rfl
  | lb | lh | lw | lbu | lhu => rw [decodeId_load hop, hf3 (by decide) (by decide)]; rfl
  | sb | sh | sw => rw [decodeId_store hop, hf3 (by decide) (by decide)]; rfl
  | addi | slti | sltiu | xori | ori | andi | slli => rw [decodeId_opImm hop, hf3 (by decide) (by decide)]; rfl
  | srli | srai => rw [decodeId_opImm hop, hf3 (by decide) (by decide), hf7 rfl]; rfl
  | add | sub | sll | slt | sltu | xor | srl | sra | or | and | mul | mulh | mulhsu | mulhu | div | divu | rem | remu =>
    rw [decodeId_op hop, hf3 (by decide) (by decide), hf7 rfl]; rfl
  | fence =>
    obtain ⟨htso, hpause⟩ := hfence rfl
    rw [decodeId_miscMem hop, miscMemId, if_neg htso, if_neg hpause, hf3 (by decide) (by decide)]; rfl
  | fenceTso | pause | ecall | ebreak =>
    refine (decodeId_eq_fixed_iff rfl w).2 ?_
    rw [← BitVec.and_allOnes (x := w)]
    exact h
  | undef => exact absurd rfl hid

end

/-- What an encoder builds decodes to its mnemonic, but for the FENCE operands that spell FENCE_TSO or PAUSE (R135). -/
theorem decodeId_encodePorts {id : InstrId} (hid : id ≠ .undef) (p : Ports) :
    decodeId (encodePorts id p) = id ∨
      encodePorts id p = fixedWord .fenceTso ∨ encodePorts id p = fixedWord .pause := by
  by_cases htso : encodePorts id p = fixedWord .fenceTso
  · exact .inr (.inl htso)
  by_cases hpause : encodePorts id p = fixedWord .pause
  · exact .inr (.inr hpause)
  exact .inl (decodeId_of_row (encodePorts_row id p) hid fun _ => ⟨htso, hpause⟩)

/-! ### A word rebuilt from its fields -/

section
variable (w : Word)

theorem encR_fields : encR (opcodeOf w) (funct3Of w) (funct7Of w) (rdOf w) (rs1Of w) (rs2Of w) = w := by
  rw [encR_eq_append, opcodeOf_eq, funct3Of_eq, funct7Of_eq, rdOf_eq, rs1Of_eq, rs2Of_eq, ← word_eq_fieldsR]

theorem encI_fields : encI (opcodeOf w) (funct3Of w) (rdOf w) (rs1Of w) (immI w) = w := by
  rw [encI_eq_append, opcodeOf_eq, funct3Of_eq, rdOf_eq, rs1Of_eq, immI_eq,
    extractLsb'_signExtend_of_le _ (by decide) (by decide), BitVec.extractLsb'_eq_self, ← word_eq_fieldsI]

theorem encShift_fields :
    encShift (opcodeOf w) (funct3Of w) (funct7Of w) (rdOf w) (rs1Of w) ((shamtOf w).setWidth 32) = w := by
  rw [encShift_eq_append, opcodeOf_eq, funct3Of_eq, funct7Of_eq, rdOf_eq, rs1Of_eq, shamtOf_eq,
    extractLsb'_setWidth_self _ (by decide), ← word_eq_fieldsR]

theorem encS_fields : encS (opcodeOf w) (funct3Of w) (rs2Of w) (rs1Of w) (immS w) = w := by
  rw [encS_eq_append, opcodeOf_eq, funct3Of_eq, rs2Of_eq, rs1Of_eq, immS_eq]
  simp (disch := decide) only [extractLsb'_signExtend_of_le]
  rw [BitVec.extractLsb'_append_eq_left, BitVec.extractLsb'_append_eq_right, ← word_eq_fieldsR]

theorem encB_fields : encB (opcodeOf w) (funct3Of w) (rs1Of w) (rs2Of w) (immB w) = w := by
  rw [encB_eq_append, opcodeOf_eq, funct3Of_eq, rs2Of_eq, rs1Of_eq, immB_eq]
  simp (disch := decide) only [extractLsb'_signExtend_of_le, BitVec.extractLsb'_append_eq_of_le,
    BitVec.extractLsb'_append_eq_of_add_le, Nat.reduceSub, BitVec.extractLsb'_eq_self]
  exact (word_eq_fieldsB w).symm

theorem encU_fields : encU (opcodeOf w) (rdOf w) (fieldU w) = w := by
  rw [encU_eq_append, opcodeOf_eq, rdOf_eq, fieldU_eq, extractLsb'_setWidth_self _ (by decide), ← word_eq_fieldsU]

theorem encJ_fields : encJ (opcodeOf w) (rdOf w) (immJ w) = w := by
  rw [encJ_eq_append, opcodeOf_eq, rdOf_eq, immJ_eq]
  simp (disch := decide) only [extractLsb'_signExtend_of_le, BitVec.extractLsb'_append_eq_of_le,
    BitVec.extractLsb'_append_eq_of_add_le, Nat.reduceSub, BitVec.extractLsb'_eq_self]
  exact (word_eq_fieldsJ w).symm

theorem encFence_fields :
    encFence (opcodeOf w) (funct3Of w) (rdOf w) (rs1Of w) ((succOf w).setWidth 32) ((predOf w).setWidth 32)
      ((fmOf w).setWidth 32) = w := by
  rw [encFence_eq_append, opcodeOf_eq, funct3Of_eq, rdOf_eq, rs1Of_eq, succOf_eq, predOf_eq, fmOf_eq,
    extractLsb'_setWidth_self _ (by decide), extractLsb'_setWidth_self _ (by decide),
    extractLsb'_setWidth_self _ (by decide), ← word_eq_fieldsFence]

end

/-- The ports an instruction's operands are on, read from its word with the getters of its format (R121, R141). -/
def fieldPorts (id : InstrId) (w : Word) : Ports :=
  match formatOf id with
  | .r => { rd := rdOf w, rs1 := rs1Of w, rs2 := rs2Of w }
  | .i => { rd := rdOf w, rs1 := rs1Of w, imm := immI w }
  | .shift => { rd := rdOf w, rs1 := rs1Of w, imm := (shamtOf w).setWidth 32 }
  | .s => { rs1 := rs1Of w, rs2 := rs2Of w, imm := immS w }
  | .b => { rs1 := rs1Of w, rs2 := rs2Of w, imm := immB w }
  | .u => { rd := rdOf w, imm := fieldU w }
  | .j => { rd := rdOf w, imm := immJ w }
  | .fence =>
    { rd := rdOf w, rs1 := rs1Of w, succ := (succOf w).setWidth 32, pred := (predOf w).setWidth 32, fm := (fmOf w).setWidth 32 }
  | .fixed | .none => {}

/-- The funct7 of what an R or shift encoder builds is its constant. -/
theorem funct7Of_encodePorts {id : InstrId} (p : Ports) (h : formatOf id = .r ∨ formatOf id = .shift) :
    funct7Of (encodePorts id p) = funct7Const id := by
  rw [funct7Of_eq, encodePorts]
  rcases h with h | h <;>
    simp (disch := decide) only [h, encR_eq_append, encShift_eq_append, BitVec.extractLsb'_append_eq_of_le] <;>
    exact BitVec.extractLsb'_eq_self

/-- An encoder builds its word again from the fields read from it, whatever was cut from its operands. -/
theorem encodePorts_fieldPorts (id : InstrId) (p : Ports) :
    encodePorts id (fieldPorts id (encodePorts id p)) = encodePorts id p := by
  have hrow := encodePorts_row id p
  have hf7 := funct7Of_encodePorts (id := id) p
  generalize hw : encodePorts id p = w at hrow hf7
  have hop := opcodeOf_of_row hrow
  have hf3 := funct3Of_of_row hrow
  unfold encodePorts fieldPorts
  cases hf : formatOf id with
  | r => simp only [← hop, ← hf3 (by simp [hf]) (by simp [hf]), ← hf7 (.inl hf), encR_fields]
  | i => simp only [← hop, ← hf3 (by simp [hf]) (by simp [hf]), encI_fields]
  | shift => simp only [← hop, ← hf3 (by simp [hf]) (by simp [hf]), ← hf7 (.inr hf), encShift_fields]
  | s => simp only [← hop, ← hf3 (by simp [hf]) (by simp [hf]), encS_fields]
  | b => simp only [← hop, ← hf3 (by simp [hf]) (by simp [hf]), encB_fields]
  | u => simp only [← hop, encU_fields]
  | j => simp only [← hop, encJ_fields]
  | fence => simp only [← hop, ← hf3 (by simp [hf]) (by simp [hf]), encFence_fields]
  | fixed | none => simpa only [encodePorts, hf] using hw

end Sys2Proof
end

section
/-! The normalized text of a word (30_encoding.md rules R140 to R143, R152): a number, a register and an immediate read back as
written, tokens split as joined, and the line of a word assembles to it. -/

namespace Sys2Proof.Machine

/-! ### Numbers -/

theorem digitsFrom_digit {d : Nat} (hd : d < 10) (k : Nat) (cs : Text) :
    digitsFrom k (Char.ofNat (d + 48) :: cs) = digitsFrom (k * 10 + d) cs := by
  interval_cases d <;> rfl

theorem isDigit_digit {d : Nat} (hd : d < 10) : (Char.ofNat (d + 48)).isDigit = true := by
  interval_cases d <;> rfl

/-- Reading the digits written for n gives n and goes on behind them. -/
theorem digitsFrom_digitsBefore {fuel n : Nat} (h : n < 10 ^ fuel) (acc : Text) :
    digitsFrom 0 (digitsBefore fuel n acc) = digitsFrom n acc := by
  induction fuel generalizing n acc with
  | zero => rw [show n = 0 by simpa using h]; rfl
  | succ fuel ih =>
    have hd : n % 10 < 10 := Nat.mod_lt n (by decide)
    unfold digitsBefore
    split
    · rw [digitsFrom_digit hd]
      congr 1
      omega
    · rw [ih (by rw [pow_succ] at h; omega), digitsFrom_digit hd]
      congr 1
      omega

theorem isDigit_of_mem_digitsBefore {c : Char} {fuel n : Nat} {acc : Text} (h : c ∈ digitsBefore fuel n acc) :
    c.isDigit = true ∨ c ∈ acc := by
  induction fuel generalizing n acc with
  | zero => exact .inr h
  | succ fuel ih =>
    have hd : (Char.ofNat (n % 10 + 48)).isDigit = true := isDigit_digit (Nat.mod_lt n (by decide))
    unfold digitsBefore at h
    split at h
    · rcases List.mem_cons.1 h with rfl | h
      · exact .inl hd
      · exact .inr h
    · rcases ih h with h | h
      · exact .inl h
      · rcases List.mem_cons.1 h with rfl | h
        · exact .inl hd
        · exact .inr h

theorem digitsBefore_ne_nil {fuel n : Nat} {acc : Text} (h : acc ≠ []) : digitsBefore fuel n acc ≠ [] := by
  induction fuel generalizing n acc with
  | zero => exact h
  | succ fuel ih =>
    unfold digitsBefore
    split
    · simp
    · exact ih (by simp)

theorem writeNat_ne_nil (n : Nat) : writeNat n ≠ [] := by
  unfold writeNat digitsBefore
  split
  · simp
  · exact digitsBefore_ne_nil (by simp)

theorem isDigit_of_mem_writeNat {c : Char} {n : Nat} (h : c ∈ writeNat n) : c.isDigit = true := by
  simpa using isDigit_of_mem_digitsBefore h

/-- A number of at most ten digits reads back as written. -/
theorem parseNat_writeNat {n : Nat} (h : n < 10 ^ 10) : parseNat (writeNat n) = some n := by
  rw [parseNat, if_neg (writeNat_ne_nil n)]
  exact digitsFrom_digitsBefore h []

/-! ### Operands -/

theorem parseIndex_writeNat (r : RegIdx) : parseIndex (writeNat r.toNat) = some r := by
  have hr := RegIdx.lt_32 r
  simp [parseIndex, parseNat_writeNat (n := r.toNat) (by omega), hr]

theorem parseReg_writeReg (r : RegIdx) : parseReg (writeReg r) = some r := by
  simp [parseReg, writeReg, parseIndex_writeNat]

/-- An unsigned number reads back as its pattern; it begins with a digit, so not with a minus sign. -/
theorem parseImm_writeNat {n : Nat} (h : n < 4294967296) : parseImm (writeNat n) = some (BitVec.ofNat 32 n) := by
  have hparse := parseNat_writeNat (n := n) (by omega)
  have hdigit : ∀ c ∈ writeNat n, c.isDigit = true := fun c => isDigit_of_mem_writeNat
  cases hw : writeNat n with
  | nil => exact absurd hw (writeNat_ne_nil n)
  | cons c rest =>
    rw [hw] at hparse hdigit
    have hc : c ≠ '-' := by
      rintro rfl
      exact absurd (hdigit '-' (by simp)) (by decide)
    simp [parseImm, hc, hparse, h]

theorem parseImm_neg_writeNat {n : Nat} (h : n ≤ 2147483648) : parseImm ('-' :: writeNat n) = some (-BitVec.ofNat 32 n) := by
  simp [parseImm, parseNat_writeNat (n := n) (by omega), h]

/-- A pattern written in signed decimal reads back as it was. -/
theorem parseImm_writeSigned (v : Word) : parseImm (writeSigned v) = some v := by
  have hv := v.isLt
  unfold writeSigned
  split
  · rename_i hmsb
    have hge : 2147483648 ≤ v.toNat := by simpa [BitVec.msb_eq_decide] using hmsb
    rw [parseImm_neg_writeNat (by omega)]
    congr 1
    apply BitVec.eq_of_toNat_eq
    simp only [BitVec.toNat_neg, BitVec.toNat_ofNat]
    omega
  · rw [parseImm_writeNat hv, BitVec.ofNat_toNat, BitVec.setWidth_eq]

theorem parseImm_writeField {n : Nat} (v : BitVec n) (h : n ≤ 32) : parseImm (writeNat v.toNat) = some (v.setWidth 32) := by
  have hv : v.toNat < 4294967296 := v.isLt.trans_le (Nat.pow_le_pow_right (by decide) h)
  rw [parseImm_writeNat hv, BitVec.ofNat_toNat]

theorem operand_writeReg (r : RegIdx) : operand parseReg (writeReg r) = .ok r := by
  rw [operand, parseReg_writeReg]

theorem operand_writeIndex (r : RegIdx) : operand parseIndex (writeNat r.toNat) = .ok r := by
  rw [operand, parseIndex_writeNat]

theorem operand_writeSigned (v : Word) : operand parseImm (writeSigned v) = .ok v := by
  rw [operand, parseImm_writeSigned]

theorem operand_writeField {n : Nat} (v : BitVec n) (h : n ≤ 32) :
    operand parseImm (writeNat v.toNat) = .ok (v.setWidth 32) := by
  rw [operand, parseImm_writeField v h]

/-! ### Tokens -/

theorem splitSpaces_append {t : Text} (ht : ' ' ∉ t) (rest : Text) :
    splitSpaces (t ++ ' ' :: rest) = t :: splitSpaces rest := by
  induction t with
  | nil => simp [splitSpaces]
  | cons c cs ih =>
    rw [List.mem_cons, not_or] at ht
    obtain ⟨hc, hcs⟩ := ht
    simp [splitSpaces, Ne.symm hc, ih hcs]

theorem splitSpaces_token {t : Text} (ht : ' ' ∉ t) : splitSpaces t = [t] := by
  induction t with
  | nil => rfl
  | cons c cs ih =>
    rw [List.mem_cons, not_or] at ht
    obtain ⟨hc, hcs⟩ := ht
    simp [splitSpaces, Ne.symm hc, ih hcs]

/-- Tokens without spaces come back from the line they are joined to (R140). -/
theorem splitSpaces_joinSpaces (t : Text) (ts : List Text) (h : ∀ u ∈ t :: ts, ' ' ∉ u) :
    splitSpaces (joinSpaces (t :: ts)) = t :: ts := by
  induction ts generalizing t with
  | nil => exact splitSpaces_token (h t (by simp))
  | cons u us ih =>
    rw [joinSpaces, splitSpaces_append (h t (by simp)), ih u fun x hx => h x (List.mem_cons_of_mem t hx)]

theorem space_not_mem_writeNat (n : Nat) : ' ' ∉ writeNat n := fun h =>
  absurd (isDigit_of_mem_writeNat h) (by decide)

theorem space_not_mem_writeReg (r : RegIdx) : ' ' ∉ writeReg r := by
  simp [writeReg, space_not_mem_writeNat]

theorem space_not_mem_writeSigned (v : Word) : ' ' ∉ writeSigned v := by
  unfold writeSigned
  split <;> simp [space_not_mem_writeNat]

theorem space_not_mem_nameOf (id : InstrId) : ' ' ∉ (nameOf id).toList := by
  cases id <;> decide

theorem space_not_mem_operandTokens (id : InstrId) (w : Word) : ∀ t ∈ operandTokens id w, ' ' ∉ t := by
  unfold operandTokens
  split <;> simp [space_not_mem_writeReg, space_not_mem_writeSigned, space_not_mem_writeNat]

/-! ### A line and its word -/

theorem mnemonicId_nameOf {id : InstrId} (h : id ≠ .undef) : mnemonicId (nameOf id).toList = some id := by
  revert h
  cases id <;> decide

theorem ne_undef_of_mnemonicId {tok : Text} {id : InstrId} (h : mnemonicId tok = some id) : id ≠ .undef := by
  have := List.find?_some h
  rintro rfl
  simp at this

/-- What assembles is a mnemonic's encoder over some ports (R140). -/
theorem assemble_ok {line : Text} {w : Word} (h : assemble line = .ok w) :
    ∃ id p, id ≠ .undef ∧ w = encodePorts id p := by
  unfold assemble at h
  split at h
  · cases h
  · split at h
    · cases h
    · rename_i id hid
      split at h
      · cases h
        exact ⟨id, _, ne_undef_of_mnemonicId hid, rfl⟩
      · cases h

/-- A line joined from a mnemonic's name and operand tokens assembles to the word of the ports the tokens stand for. -/
theorem assemble_joinSpaces {id : InstrId} (hid : id ≠ .undef) {toks : List Text} (hs : ∀ t ∈ toks, ' ' ∉ t) {p : Ports}
    (hp : parsePorts id toks = .ok p) : assemble (joinSpaces ((nameOf id).toList :: toks)) = .ok (encodePorts id p) := by
  have hsplit := splitSpaces_joinSpaces (nameOf id).toList toks (List.forall_mem_cons.2 ⟨space_not_mem_nameOf id, hs⟩)
  simp [assemble, hsplit, mnemonicId_nameOf hid, hp]

/-- The operand tokens of a word are read as the ports of its fields. -/
theorem parsePorts_operandTokens {id : InstrId} (hid : id ≠ .undef) (w : Word) :
    parsePorts id (operandTokens id w) = .ok (fieldPorts id w) := by
  unfold operandTokens fieldPorts
  cases hf : formatOf id with
  | r => simp only [parsePorts, hf, operand_writeReg]; rfl
  | i | s | b | j => simp only [parsePorts, hf, operand_writeReg, operand_writeSigned]; rfl
  | shift => simp (disch := decide) only [parsePorts, hf, operand_writeReg, operand_writeField]; rfl
  | u => simp (disch := decide) only [parsePorts, hf, operand_writeReg, operand_writeField, BitVec.setWidth_eq]; rfl
  | fence => simp (disch := decide) only [parsePorts, hf, operand_writeIndex, operand_writeField]; rfl
  | fixed => simp only [parsePorts, hf]; rfl
  | none => exact absurd (by revert hf; cases id <;> decide) hid

theorem disassembleNormalized_of_decodeId {w : Word} {id : InstrId} (h : decodeId w = id) (hid : id ≠ .undef) :
    disassembleNormalized w = .ok (joinSpaces ((nameOf id).toList :: operandTokens id w)) := by
  subst h
  unfold disassembleNormalized
  split
  · contradiction
  · rfl

/-- The word of an encoder has a normalized form, and it assembles to the word, where the word decodes to the encoder's mnemonic. -/
theorem normalized_roundTrip {id : InstrId} {p : Ports} (hid : id ≠ .undef) (hd : decodeId (encodePorts id p) = id) :
    ∃ text, disassembleNormalized (encodePorts id p) = .ok text ∧ assemble text = .ok (encodePorts id p) := by
  refine ⟨_, disassembleNormalized_of_decodeId hd hid, ?_⟩
  rw [assemble_joinSpaces hid (space_not_mem_operandTokens id _) (parsePorts_operandTokens hid _), encodePorts_fieldPorts]

/-- Settles O59: what assembles is an encoder's word; it decodes to its mnemonic, or it is one of the two fixed words a FENCE can
spell, and then it is the word of that mnemonic's encoder. -/
theorem normalizedTextRoundTrips : Obligations.NormalizedTextRoundTrips := by
  unfold Obligations.NormalizedTextRoundTrips
  refine ⟨fun line w h => ?_, rfl, rfl, rfl⟩
  obtain ⟨id, p, hid, rfl⟩ := assemble_ok h
  rcases decodeId_encodePorts hid p with hd | htso | hpause
  · exact normalized_roundTrip hid hd
  · rw [htso]
    exact normalized_roundTrip (id := .fenceTso) (p := {}) (by decide) rfl
  · rw [hpause]
    exact normalized_roundTrip (id := .pause) (p := {}) (by decide) rfl

end Sys2Proof.Machine
end

section
/-! The register-immediate instructions (45_op_imm.md rules R211, R214 to R216): an end by write-back in the claims' words, the
decoder's answer for a word of an I row, and the bits of a sign-extended immediate from its sign up. -/

namespace Sys2Proof.Machine

/-! ### An instruction that ends in a write-back -/

theorem writeBack_writesReg (s : State) (rd : RegIdx) (v : Word) : WritesReg (writeBack s rd v) s rd v (s.pc + 4#32) := by
  obtain ⟨t, hnext, hpc, hregs, -, hmem⟩ := writeBack_spec s rd v
  exact ⟨t, hnext, hpc, hregs, fun b => by rw [byteAt, byteAt, hmem]⟩

/-- A register-immediate instruction writes its operation's result with the sign-extended immediate (R210). -/
theorem aluImm_writesReg (op : Word → Word → Word) (rd rs1 : RegIdx) (imm : BitVec 12) (s : State) :
    WritesReg (aluImm op rd rs1 imm s) s rd (op (s.getReg rs1) (imm.signExtend 32)) (s.pc + 4#32) :=
  writeBack_writesReg s rd _

section
variable (rd rs1 : RegIdx) (imm : BitVec 12) (s : State)

theorem exec_addi_writesReg :
    WritesReg (exec (.addi rd rs1 imm) s) s rd (s.getReg rs1 + imm.signExtend 32) (s.pc + 4#32) :=
  aluImm_writesReg (· + ·) rd rs1 imm s

theorem exec_xori_writesReg :
    WritesReg (exec (.xori rd rs1 imm) s) s rd (s.getReg rs1 ^^^ imm.signExtend 32) (s.pc + 4#32) :=
  aluImm_writesReg (· ^^^ ·) rd rs1 imm s

theorem exec_ori_writesReg :
    WritesReg (exec (.ori rd rs1 imm) s) s rd (s.getReg rs1 ||| imm.signExtend 32) (s.pc + 4#32) :=
  aluImm_writesReg (· ||| ·) rd rs1 imm s

theorem exec_andi_writesReg :
    WritesReg (exec (.andi rd rs1 imm) s) s rd (s.getReg rs1 &&& imm.signExtend 32) (s.pc + 4#32) :=
  aluImm_writesReg (· &&& ·) rd rs1 imm s

/-- With x0 as rd a register-immediate instruction only moves pc on (R21). -/
theorem aluImm_zero_movesPc (op : Word → Word → Word) : MovesPc (aluImm op 0#5 rs1 imm s) s (s.pc + 4#32) := by
  rw [aluImm, writeBack_zero]
  exact goTo_movesPc s _

end

/-! ### The words of an I row -/

/-- The 12-bit operand the decoder reads from an I word is the word's immediate field. -/
theorem immI_setWidth (w : Word) : (immI w).setWidth 12 = w.extractLsb' 20 12 := by
  rw [immI_eq, BitVec.setWidth_eq_extractLsb' (by decide), extractLsb'_signExtend_of_le _ (by decide) (by decide),
    BitVec.extractLsb'_eq_self]

/-- A word of an I row decodes to the row's instruction, with its operands in the fields of the format (R102, R121). -/
theorem decode_of_rowI {id : InstrId} {w : Word} {instr : RegIdx → RegIdx → BitVec 12 → Instr}
    (h : w &&& rowMask id = rowMatch id) (hf : formatOf id = .i)
    (hops : operandsOf id w = some (instr (rdOf w) (rs1Of w) ((immI w).setWidth 12))) :
    decode w = some (instr (w.extractLsb' 7 5) (w.extractLsb' 15 5) (w.extractLsb' 20 12)) := by
  have hundef : id ≠ .undef := by rintro rfl; cases hf
  have hfence : id ≠ .fence := by rintro rfl; cases hf
  rw [decode, decodeId_of_row h hundef fun hid => absurd hid hfence, hops, rdOf_eq, rs1Of_eq, immI_setWidth]

/-- Settles O33: ADDI is a write-back of the sum, and its words are those of its row. -/
theorem addiAddsImmediate : Obligations.AddiAddsImmediate := by
  unfold Obligations.AddiAddsImmediate
  exact ⟨exec_addi_writesReg, fun w h => decode_of_rowI (id := .addi) h rfl rfl, fun rd rs1 imm => encodePorts_row .addi _,
    rfl, rfl, rfl, fun s => aluImm_zero_movesPc 0#5 0#12 s (· + ·)⟩

/-! ### The sign-extended immediate -/

/-- From its sign up, a sign-extended value holds copies of its sign. -/
theorem extractLsb'_signExtend_sign {m : Nat} (v : BitVec (m + 1)) (n : Nat) :
    (v.signExtend (m + n)).extractLsb' m n = BitVec.fill n v.msb := by
  apply BitVec.eq_of_getLsbD_eq
  intro i hi
  rw [BitVec.getLsbD_extractLsb', BitVec.getLsbD_signExtend, BitVec.msb_eq_getLsbD_last]
  cases i with
  | zero => simp [hi]
  | succ j => simp [hi]

theorem signExtend_neg_one : (-1#12).signExtend 32 = BitVec.allOnes 32 := by decide

/-- A negative immediate sets bits 31:11 of what ORI writes (R215). -/
theorem or_signExtend_high {imm : BitVec 12} (v : Word) (h : imm.msb = true) :
    (v ||| imm.signExtend 32).extractLsb' 11 21 = -1#21 := by
  have hones : (imm.signExtend 32).extractLsb' 11 21 = BitVec.allOnes 21 := by
    rw [extractLsb'_signExtend_sign imm 21, h, BitVec.fill_true]
  rw [BitVec.extractLsb'_or, hones, BitVec.or_allOnes]
  rfl

/-- A non-negative immediate clears bits 31:11 of what ANDI writes (R216). -/
theorem and_signExtend_high {imm : BitVec 12} (v : Word) (h : imm.msb = false) :
    (v &&& imm.signExtend 32).extractLsb' 11 21 = 0#21 := by
  have hzero : (imm.signExtend 32).extractLsb' 11 21 = 0#21 := by
    rw [extractLsb'_signExtend_sign imm 21, h, BitVec.fill_false]
  rw [BitVec.extractLsb'_and, hzero, BitVec.and_zero]

/-- Settles O34: each instruction is a write-back of its bitwise result, immediate -1 is all ones, and from bit 11 up every
immediate is all ones or all zeros. -/
theorem logicalImmediates : Obligations.LogicalImmediates := by
  unfold Obligations.LogicalImmediates
  refine ⟨fun rd rs1 imm s => ?results, fun w => ?words, fun rd rs1 imm => ?encodings, fun rd rs1 s => ?minusOne,
    fun imm v => ⟨or_signExtend_high v, and_signExtend_high v⟩, rfl, rfl, rfl⟩
  case results => exact ⟨exec_xori_writesReg rd rs1 imm s, exec_ori_writesReg rd rs1 imm s, exec_andi_writesReg rd rs1 imm s⟩
  case words =>
    exact ⟨fun h => decode_of_rowI (id := .xori) h rfl rfl, fun h => decode_of_rowI (id := .ori) h rfl rfl,
      fun h => decode_of_rowI (id := .andi) h rfl rfl⟩
  case encodings =>
    exact ⟨encodePorts_row .xori _, encodePorts_row .ori _, encodePorts_row .andi _⟩
  case minusOne =>
    have hxor := exec_xori_writesReg rd rs1 (-1#12) s
    have hand := exec_andi_writesReg rd rs1 (-1#12) s
    rw [signExtend_neg_one, BitVec.xor_allOnes] at hxor
    rw [signExtend_neg_one, BitVec.and_allOnes] at hand
    exact ⟨hxor, hand⟩

end Sys2Proof.Machine
end

section
/-! The register-register instructions (46_op.md rules R226, R227, R231, R234, R235): each as a write-back of its operation's
result, and the decoder's answer for a word of an R row. -/

namespace Sys2Proof.Machine

/-- A register-register instruction writes its operation's result on the values both sources held before it (R225, R240). -/
theorem aluReg_writesReg (op : Word → Word → Word) (rd rs1 rs2 : RegIdx) (s : State) :
    WritesReg (aluReg op rd rs1 rs2 s) s rd (op (s.getReg rs1) (s.getReg rs2)) (s.pc + 4#32) :=
  writeBack_writesReg s rd _

section
variable (rd rs1 rs2 : RegIdx) (s : State)

theorem exec_add_writesReg : WritesReg (exec (.add rd rs1 rs2) s) s rd (s.getReg rs1 + s.getReg rs2) (s.pc + 4#32) :=
  aluReg_writesReg (· + ·) rd rs1 rs2 s

theorem exec_sub_writesReg : WritesReg (exec (.sub rd rs1 rs2) s) s rd (s.getReg rs1 - s.getReg rs2) (s.pc + 4#32) :=
  aluReg_writesReg (· - ·) rd rs1 rs2 s

theorem exec_xor_writesReg : WritesReg (exec (.xor rd rs1 rs2) s) s rd (s.getReg rs1 ^^^ s.getReg rs2) (s.pc + 4#32) :=
  aluReg_writesReg (· ^^^ ·) rd rs1 rs2 s

theorem exec_or_writesReg : WritesReg (exec (.or rd rs1 rs2) s) s rd (s.getReg rs1 ||| s.getReg rs2) (s.pc + 4#32) :=
  aluReg_writesReg (· ||| ·) rd rs1 rs2 s

theorem exec_and_writesReg : WritesReg (exec (.and rd rs1 rs2) s) s rd (s.getReg rs1 &&& s.getReg rs2) (s.pc + 4#32) :=
  aluReg_writesReg (· &&& ·) rd rs1 rs2 s

end

/-- A word of an R row decodes to the row's instruction, with its operands in the fields of the format (R101, R121). -/
theorem decode_of_rowR {id : InstrId} {w : Word} {instr : RegIdx → RegIdx → RegIdx → Instr}
    (h : w &&& rowMask id = rowMatch id) (hf : formatOf id = .r)
    (hops : operandsOf id w = some (instr (rdOf w) (rs1Of w) (rs2Of w))) :
    decode w = some (instr (w.extractLsb' 7 5) (w.extractLsb' 15 5) (w.extractLsb' 20 5)) := by
  have hundef : id ≠ .undef := by rintro rfl; cases hf
  have hfence : id ≠ .fence := by rintro rfl; cases hf
  rw [decode, decodeId_of_row h hundef fun hid => absurd hid hfence, hops, rdOf_eq, rs1Of_eq, rs2Of_eq]

/-- Settles O37: each instruction is a write-back of its sum or difference, its words are those of its row, and the corner cases
are `x - x = 0` and `0 - x = -x`. -/
theorem addAndSubtract : Obligations.AddAndSubtract := by
  unfold Obligations.AddAndSubtract
  refine ⟨fun rd rs1 rs2 s => ⟨exec_add_writesReg rd rs1 rs2 s, exec_sub_writesReg rd rs1 rs2 s⟩,
    fun w => ⟨fun h => decode_of_rowR (id := .add) h rfl rfl, fun h => decode_of_rowR (id := .sub) h rfl rfl⟩,
    fun rd rs1 rs2 => ⟨encodePorts_row .add _, encodePorts_row .sub _⟩, fun rd rs s => ?corners, rfl, rfl⟩
  case corners =>
    have hself := exec_sub_writesReg rd rs rs s
    have hneg := exec_sub_writesReg rd 0#5 rs s
    rw [BitVec.sub_self] at hself
    rw [State.getReg_zero, BitVec.zero_sub] at hneg
    exact ⟨hself, hneg⟩

/-- Settles O38: each instruction is a write-back of its bitwise result, its words are those of its row, and the corner cases are
`x ^^^ x = 0`, `x ||| x = x`, `x &&& x = x` and `x &&& 0 = 0`. -/
theorem logicalRegisters : Obligations.LogicalRegisters := by
  unfold Obligations.LogicalRegisters
  refine ⟨fun rd rs1 rs2 s => ?results, fun w => ?words, fun rd rs1 rs2 => ?encodings, fun rd rs s => ?corners, rfl, rfl, rfl⟩
  case results => exact ⟨exec_xor_writesReg rd rs1 rs2 s, exec_or_writesReg rd rs1 rs2 s, exec_and_writesReg rd rs1 rs2 s⟩
  case words =>
    exact ⟨fun h => decode_of_rowR (id := .xor) h rfl rfl, fun h => decode_of_rowR (id := .or) h rfl rfl,
      fun h => decode_of_rowR (id := .and) h rfl rfl⟩
  case encodings => exact ⟨encodePorts_row .xor _, encodePorts_row .or _, encodePorts_row .and _⟩
  case corners =>
    have hxor := exec_xor_writesReg rd rs rs s
    have hor := exec_or_writesReg rd rs rs s
    have hand := exec_and_writesReg rd rs rs s
    have hzero := exec_and_writesReg rd rs 0#5 s
    rw [BitVec.xor_self] at hxor
    rw [BitVec.or_self] at hor
    rw [BitVec.and_self] at hand
    rw [State.getReg_zero, BitVec.and_zero] at hzero
    exact ⟨hxor, hor, hand, hzero⟩

end Sys2Proof.Machine
end

section
/-! Immediates that come back (30_encoding.md rules R82, R90 to R96): the sign extension at a bit, what a getter reads from the
word its setter made, and that an immediate in its field's range is its own sign extension. -/

namespace Sys2Proof

/-! ### The sign extension at a bit -/

/-- From the sign bit up, every bit of the extension is the sign bit (R82, D25). -/
theorem getLsbD_signExtendAt (x : Word) {bit i : Nat} (hi : i < 32) :
    (signExtendAt x bit).getLsbD i = x.getLsbD (min i bit) := by
  rw [signExtendAt, sext, BitVec.getLsbD_signExtend, BitVec.msb_eq_getLsbD_last, BitVec.getLsbD_setWidth,
    BitVec.getLsbD_setWidth, Nat.add_sub_cancel]
  by_cases h : i < bit + 1
  · simp [hi, h, show min i bit = i by omega]
  · simp [hi, h, show min i bit = bit by omega]

theorem toInt_signExtendAt (x : Word) {bit : Nat} (hbit : bit < 32) :
    (signExtendAt x bit).toInt =
      if x.getLsbD bit then ((x.toNat % 2 ^ (bit + 1) : Nat) : Int) - 2 ^ (bit + 1)
      else ((x.toNat % 2 ^ (bit + 1) : Nat) : Int) := by
  rw [signExtendAt, sext, BitVec.toInt_signExtend_of_le (by omega), BitVec.toInt_eq_msb_cond,
    BitVec.msb_eq_getLsbD_last, BitVec.getLsbD_setWidth, BitVec.toNat_setWidth, Nat.add_sub_cancel]
  simp

/-- Settles O3: the bits of the extension one by one, and its value by the sign bit. -/
theorem signExtendCopiesSignBit : Obligations.SignExtendCopiesSignBit := by
  unfold Obligations.SignExtendCopiesSignBit
  exact fun x bit hbit => ⟨fun i hi => getLsbD_signExtendAt x hi, toInt_signExtendAt x hbit⟩

/-! ### What a getter reads from what its setter put -/

/-- Clearing bit 0 of a value is cutting it off and appending a zero bit. -/
theorem setWidth_clearBit0 (v : Word) {n : Nat} (hn : n + 1 ≤ 32) :
    (v &&& 0xFFFFFFFE#32).setWidth (n + 1) = v.extractLsb' 1 n ++ 0#1 := by
  apply BitVec.eq_of_getLsbD_eq
  intro i hi
  have hmask : (0xFFFFFFFE#32).getLsbD i = (decide (i < 32) && (decide (1 ≤ i) && decide (i - 1 < 31))) :=
    getLsbD_ones 1 31 i
  rw [BitVec.getLsbD_setWidth, BitVec.getLsbD_and, BitVec.getLsbD_append, hmask]
  cases i with
  | zero => simp
  | succ j =>
    have hj : j < n := by omega
    have hj31 : j < 31 := by omega
    have hj32 : j + 1 < 32 := by omega
    simp [hj, hj31, hj32, Nat.add_comm]

theorem immI_setImmI (w imm : Word) : immI (setImmI w imm) = (imm.setWidth 12).signExtend 32 := by
  rw [immI_eq, setImmI_field, BitVec.setWidth_eq_extractLsb' (by decide)]

theorem immS_setImmS (w imm : Word) : immS (setImmS w imm) = (imm.setWidth 12).signExtend 32 := by
  obtain ⟨hlo, hhi⟩ := setImmS_fields w imm
  rw [immS_eq, hlo, hhi, BitVec.setWidth_eq_extractLsb' (by decide)]
  simp only [BitVec.extractLsb'_append_extractLsb'_eq_extractLsb']

theorem immB_setImmB (w imm : Word) : immB (setImmB w imm) = ((imm &&& 0xFFFFFFFE#32).setWidth 13).signExtend 32 := by
  obtain ⟨h11, h4, h10, h12⟩ := setImmB_fields w imm
  rw [immB_eq, h11, h4, h10, h12, setWidth_clearBit0 imm (by decide)]
  simp only [BitVec.extractLsb'_append_extractLsb'_eq_extractLsb']

theorem immJ_setImmJ (w imm : Word) : immJ (setImmJ w imm) = ((imm &&& 0xFFFFFFFE#32).setWidth 21).signExtend 32 := by
  obtain ⟨h10, h11, h19, h20⟩ := setImmJ_fields w imm
  rw [immJ_eq, h10, h11, h19, h20, setWidth_clearBit0 imm (by decide)]
  simp only [BitVec.extractLsb'_append_extractLsb'_eq_extractLsb']

theorem fieldU_setImmU (w v : Word) : fieldU (setImmU w v) = v &&& 0x000FFFFF#32 :=
  sliceUImm.get_set_self w v

/-! ### Immediates in range -/

/-- A number that fits in m + 1 bits is the sign extension of its low m + 1 bits. -/
theorem signExtend_setWidth_of_range {v : Word} {m : Nat} (hm : m + 1 ≤ 32) (hlo : -2 ^ m ≤ v.toInt) (hhi : v.toInt < 2 ^ m) :
    (v.setWidth (m + 1)).signExtend 32 = v := by
  apply BitVec.eq_of_toInt_eq
  have hpow : ((2 ^ (m + 1) : Nat) : Int) = 2 ^ m * 2 := by push_cast; ring
  rw [BitVec.toInt_signExtend_of_le hm, BitVec.toInt_setWidth, ← Int.bmod_bmod_of_dvd (Nat.pow_dvd_pow 2 hm),
    ← BitVec.toInt_eq_toNat_bmod, Int.bmod_eq_of_le_mul_two (by omega) (by omega)]

/-- Clearing bit 0 goes through a sign extension, so it leaves a number in range in range. -/
theorem signExtend_clearBit0_of_range {v : Word} {m : Nat} (hm : m + 1 ≤ 32) (hlo : -2 ^ m ≤ v.toInt) (hhi : v.toInt < 2 ^ m)
    (hmask : ((0xFFFFFFFE#32).setWidth (m + 1)).signExtend 32 = 0xFFFFFFFE#32) :
    ((v &&& 0xFFFFFFFE#32).setWidth (m + 1)).signExtend 32 = v &&& 0xFFFFFFFE#32 := by
  rw [BitVec.setWidth_and, BitVec.signExtend_and, signExtend_setWidth_of_range hm hlo hhi, hmask]

/-- A U field value in range has no bits above the field. -/
theorem and_fieldMask_of_le {v : Word} (h : v.toNat ≤ 1048575) : v &&& 0x000FFFFF#32 = v := by
  apply BitVec.eq_of_toNat_eq
  have hmask : (0x000FFFFF#32).toNat = 2 ^ 20 - 1 := by decide
  rw [BitVec.toNat_and, hmask, Nat.and_two_pow_sub_one_eq_mod, Nat.mod_eq_of_lt (by omega)]

/-! ### What a setter leaves alone -/

theorem setImmI_frame (w imm : Word) : setImmI w imm &&& 0x000FFFFF#32 = w &&& 0x000FFFFF#32 :=
  sliceIImm.set_and_apart w imm _ (by decide)

theorem setImmS_frame (w imm : Word) : setImmS w imm &&& 0x01FFF07F#32 = w &&& 0x01FFF07F#32 := by
  simp (disch := decide) only [setImmS, Slice.set_and_apart]

theorem setImmB_frame (w imm : Word) : setImmB w imm &&& 0x01FFF07F#32 = w &&& 0x01FFF07F#32 := by
  simp (disch := decide) only [setImmB, Slice.set_and_apart]

theorem setImmU_frame (w v : Word) : setImmU w v &&& 0x00000FFF#32 = w &&& 0x00000FFF#32 :=
  sliceUImm.set_and_apart w v _ (by decide)

theorem setImmJ_frame (w imm : Word) : setImmJ w imm &&& 0x00000FFF#32 = w &&& 0x00000FFF#32 := by
  simp (disch := decide) only [setImmJ, Slice.set_and_apart]

/-- Settles O5: a getter reads the sign extension of the bits its setter kept, which in range is the immediate itself. -/
theorem splitImmediatesComeBack : Obligations.SplitImmediatesComeBack := by
  unfold Obligations.SplitImmediatesComeBack
  intro w imm
  refine ⟨fun hlo hhi => ?rangeIS, fun hlo hhi => ?rangeB, fun hlo hhi => ?rangeJ, fun h => ?rangeU, fieldU_setImmU w imm,
    immI_setImmI w imm, immS_setImmS w imm, immB_setImmB w imm, immJ_setImmJ w imm, setImmI_frame w imm,
    setImmS_frame w imm, setImmB_frame w imm, setImmU_frame w imm, setImmJ_frame w imm⟩
  case rangeIS =>
    have hself := signExtend_setWidth_of_range (v := imm) (m := 11) (by decide) hlo (by omega)
    exact ⟨(immI_setImmI w imm).trans hself, (immS_setImmS w imm).trans hself⟩
  case rangeB =>
    exact (immB_setImmB w imm).trans (signExtend_clearBit0_of_range (m := 12) (by decide) hlo (by omega) (by decide))
  case rangeJ =>
    exact (immJ_setImmJ w imm).trans (signExtend_clearBit0_of_range (m := 20) (by decide) hlo (by omega) (by decide))
  case rangeU => rw [fieldU_setImmU, and_fieldMask_of_le h]

end Sys2Proof
end

section
/-! The round trips of the codec (30_encoding.md rules R100 to R136): what each field of an encoder's word reads as, that a
well-formed instruction is read back from its word, that a decoded word is its instruction's word, that the tree and the table
agree, and the same laid out as bytes. -/

namespace Sys2Proof

/-! ### The fields of an encoder's word -/

section
variable (op : BitVec 7) (f3 : BitVec 3) (f7 : BitVec 7) (rd rs1 rs2 : RegIdx) (imm succ pred fm : Word)

theorem encR_getters :
    rdOf (encR op f3 f7 rd rs1 rs2) = rd ∧ rs1Of (encR op f3 f7 rd rs1 rs2) = rs1 ∧
    rs2Of (encR op f3 f7 rd rs1 rs2) = rs2 := by
  rw [rdOf_eq, rs1Of_eq, rs2Of_eq, encR_eq_append]
  simp (disch := decide) only [BitVec.extractLsb'_append_eq_of_add_le, BitVec.extractLsb'_append_eq_of_le, Nat.reduceSub,
    BitVec.extractLsb'_eq_self, and_self]

theorem encI_getters :
    rdOf (encI op f3 rd rs1 imm) = rd ∧ rs1Of (encI op f3 rd rs1 imm) = rs1 ∧
    immI (encI op f3 rd rs1 imm) = (imm.setWidth 12).signExtend 32 := by
  refine ⟨?_, ?_, immI_setImmI _ imm⟩
  all_goals
    rw [encI_eq_append]
    simp (disch := decide) only [rdOf_eq, rs1Of_eq, BitVec.extractLsb'_append_eq_of_add_le,
      BitVec.extractLsb'_append_eq_of_le, Nat.reduceSub, BitVec.extractLsb'_eq_self]

theorem encShift_getters :
    rdOf (encShift op f3 f7 rd rs1 imm) = rd ∧ rs1Of (encShift op f3 f7 rd rs1 imm) = rs1 ∧
    shamtOf (encShift op f3 f7 rd rs1 imm) = imm.extractLsb' 0 5 := by
  rw [rdOf_eq, rs1Of_eq, shamtOf_eq, encShift_eq_append]
  simp (disch := decide) only [BitVec.extractLsb'_append_eq_of_add_le, BitVec.extractLsb'_append_eq_of_le, Nat.reduceSub,
    BitVec.extractLsb'_eq_self, and_self]

theorem encS_getters :
    rs2Of (encS op f3 rs2 rs1 imm) = rs2 ∧ rs1Of (encS op f3 rs2 rs1 imm) = rs1 ∧
    immS (encS op f3 rs2 rs1 imm) = (imm.setWidth 12).signExtend 32 := by
  refine ⟨?_, ?_, immS_setImmS _ imm⟩
  all_goals
    rw [encS_eq_append]
    simp (disch := decide) only [rs2Of_eq, rs1Of_eq, BitVec.extractLsb'_append_eq_of_add_le,
      BitVec.extractLsb'_append_eq_of_le, Nat.reduceSub, BitVec.extractLsb'_eq_self]

theorem encB_getters :
    rs1Of (encB op f3 rs1 rs2 imm) = rs1 ∧ rs2Of (encB op f3 rs1 rs2 imm) = rs2 ∧
    immB (encB op f3 rs1 rs2 imm) = ((imm &&& 0xFFFFFFFE#32).setWidth 13).signExtend 32 := by
  refine ⟨?_, ?_, immB_setImmB _ imm⟩
  all_goals
    rw [encB_eq_append]
    simp (disch := decide) only [rs1Of_eq, rs2Of_eq, BitVec.extractLsb'_append_eq_of_add_le,
      BitVec.extractLsb'_append_eq_of_le, Nat.reduceSub, BitVec.extractLsb'_eq_self]

theorem encU_getters :
    rdOf (encU op rd imm) = rd ∧ fieldU (encU op rd imm) = (imm.extractLsb' 0 20).setWidth 32 := by
  rw [rdOf_eq, fieldU_eq, encU_eq_append]
  simp (disch := decide) only [BitVec.extractLsb'_append_eq_of_add_le, BitVec.extractLsb'_append_eq_of_le, Nat.reduceSub,
    BitVec.extractLsb'_eq_self, and_self]

theorem encJ_getters :
    rdOf (encJ op rd imm) = rd ∧ immJ (encJ op rd imm) = ((imm &&& 0xFFFFFFFE#32).setWidth 21).signExtend 32 := by
  refine ⟨?_, immJ_setImmJ _ imm⟩
  rw [rdOf_eq, encJ_eq_append]
  simp (disch := decide) only [BitVec.extractLsb'_append_eq_of_add_le, BitVec.extractLsb'_append_eq_of_le, Nat.reduceSub,
    BitVec.extractLsb'_eq_self]

theorem encFence_getters :
    rdOf (encFence op f3 rd rs1 succ pred fm) = rd ∧ rs1Of (encFence op f3 rd rs1 succ pred fm) = rs1 ∧
    succOf (encFence op f3 rd rs1 succ pred fm) = succ.extractLsb' 0 4 ∧
    predOf (encFence op f3 rd rs1 succ pred fm) = pred.extractLsb' 0 4 ∧
    fmOf (encFence op f3 rd rs1 succ pred fm) = fm.extractLsb' 0 4 := by
  rw [rdOf_eq, rs1Of_eq, succOf_eq, predOf_eq, fmOf_eq, encFence_eq_append]
  simp (disch := decide) only [BitVec.extractLsb'_append_eq_of_add_le, BitVec.extractLsb'_append_eq_of_le, Nat.reduceSub,
    BitVec.extractLsb'_eq_self, and_self]

end

/-! ### Operands put on a port and cut back to their width -/

theorem setWidth_signExtend_self {m : Nat} (v : BitVec m) (h : m ≤ 32) : (v.signExtend 32).setWidth m = v := by
  rw [BitVec.setWidth_eq_extractLsb' h, extractLsb'_signExtend_of_le v (by omega) h, BitVec.extractLsb'_eq_self]

/-- An even offset loses nothing when its bit 0 is dropped (R92, R94). -/
theorem setWidth_clearBit0_signExtend {m : Nat} {v : BitVec m} (h : m ≤ 32) (heven : v.getLsbD 0 = false) :
    (v.signExtend 32 &&& 0xFFFFFFFE#32).setWidth m = v := by
  apply BitVec.eq_of_getLsbD_eq
  intro i hi
  have hmask : (0xFFFFFFFE#32).getLsbD i = (decide (i < 32) && (decide (1 ≤ i) && decide (i - 1 < 31))) :=
    getLsbD_ones 1 31 i
  have hi32 : i < 32 := by omega
  rw [BitVec.getLsbD_setWidth, BitVec.getLsbD_and, BitVec.getLsbD_signExtend, hmask]
  cases i with
  | zero => simp [heven]
  | succ j =>
    have hj : j < 31 := by omega
    simp [hi, hi32, hj]

/-! ### Which words are a FENCE's own -/

/-- A FENCE word spells FENCE_TSO or PAUSE exactly when its fields are one of the two tuples (R133, R135). -/
theorem fenceIsFixedWord_fields_iff {w : Word} (hop : opcodeOf w = 0x0F#7) (hf3 : funct3Of w = 0#3) :
    fenceIsFixedWord (rdOf w) (rs1Of w) (succOf w) (predOf w) (fmOf w) = true ↔
      w = fixedWord .fenceTso ∨ w = fixedWord .pause := by
  constructor
  · intro h
    simp only [fenceIsFixedWord, Bool.and_eq_true, Bool.or_eq_true, beq_iff_eq] at h
    have hw := encFence_fields w
    rw [hop, hf3] at hw
    obtain ⟨⟨hrd, hrs1⟩, ⟨⟨hsucc, hpred⟩, hfm⟩ | ⟨⟨hsucc, hpred⟩, hfm⟩⟩ := h
    all_goals rw [hrd, hrs1, hsucc, hpred, hfm] at hw
    · exact .inl hw.symm
    · exact .inr hw.symm
  · rintro (rfl | rfl) <;> decide

theorem encode_fence_getters (rd rs1 : RegIdx) (succ pred fm : BitVec 4) :
    rdOf (encode (.fence rd rs1 succ pred fm)) = rd ∧ rs1Of (encode (.fence rd rs1 succ pred fm)) = rs1 ∧
    succOf (encode (.fence rd rs1 succ pred fm)) = succ ∧ predOf (encode (.fence rd rs1 succ pred fm)) = pred ∧
    fmOf (encode (.fence rd rs1 succ pred fm)) = fm := by
  simp (disch := decide) only [encode, encodePorts, idOf, portsOf, formatOf, encFence_getters, extractLsb'_setWidth_self,
    and_self]

/-- The word of a well-formed FENCE is neither FENCE_TSO's nor PAUSE's (R135). -/
theorem encode_fence_ne_fixed {rd rs1 : RegIdx} {succ pred fm : BitVec 4}
    (h : (Instr.fence rd rs1 succ pred fm).wellFormed = true) :
    encode (.fence rd rs1 succ pred fm) ≠ fixedWord .fenceTso ∧ encode (.fence rd rs1 succ pred fm) ≠ fixedWord .pause := by
  have hrow := encode_row (.fence rd rs1 succ pred fm)
  have hiff := fenceIsFixedWord_fields_iff (opcodeOf_of_row hrow) (funct3Of_of_row hrow nofun nofun)
  obtain ⟨hrd, hrs1, hsucc, hpred, hfm⟩ := encode_fence_getters rd rs1 succ pred fm
  rw [hrd, hrs1, hsucc, hpred, hfm] at hiff
  have hnot : ¬ fenceIsFixedWord rd rs1 succ pred fm = true := by simpa [Instr.wellFormed] using h
  rwa [hiff, not_or] at hnot

/-! ### An instruction is read back from its word -/

theorem idOf_ne_undef (i : Instr) : idOf i ≠ .undef := by
  cases i <;> nofun

/-- The word of a well-formed instruction decodes to its mnemonic. -/
theorem decodeId_encode {i : Instr} (h : i.wellFormed = true) : decodeId (encode i) = idOf i := by
  refine decodeId_of_row (encode_row i) (idOf_ne_undef i) fun hid => ?_
  cases i with
  | fence => exact encode_fence_ne_fixed h
  | _ => cases hid

/-- The operands of a well-formed instruction are read back from its word. -/
theorem operandsOf_encode {i : Instr} (h : i.wellFormed = true) : operandsOf (idOf i) (encode i) = some i := by
  cases i with
  | lui | auipc =>
    simp (disch := decide) only [operandsOf, encode, encodePorts, idOf, portsOf, formatOf, encU_getters,
      extractLsb'_setWidth_self, BitVec.setWidth_setWidth_of_le, BitVec.setWidth_eq]
  | jal rd imm =>
    have heven : imm.getLsbD 0 = false := by simpa [Instr.wellFormed] using h
    simp (disch := decide) only [operandsOf, encode, encodePorts, idOf, portsOf, formatOf, encJ_getters,
      setWidth_signExtend_self, setWidth_clearBit0_signExtend (by decide) heven]
  | beq rs1 rs2 imm | bne rs1 rs2 imm | blt rs1 rs2 imm | bge rs1 rs2 imm | bltu rs1 rs2 imm | bgeu rs1 rs2 imm =>
    have heven : imm.getLsbD 0 = false := by simpa [Instr.wellFormed] using h
    simp (disch := decide) only [operandsOf, encode, encodePorts, idOf, portsOf, formatOf, encB_getters,
      setWidth_signExtend_self, setWidth_clearBit0_signExtend (by decide) heven]
  | jalr | lb | lh | lw | lbu | lhu | addi | slti | sltiu | xori | ori | andi =>
    simp (disch := decide) only [operandsOf, encode, encodePorts, idOf, portsOf, formatOf, encI_getters,
      setWidth_signExtend_self]
  | sb | sh | sw =>
    simp (disch := decide) only [operandsOf, encode, encodePorts, idOf, portsOf, formatOf, encS_getters,
      setWidth_signExtend_self]
  | slli | srli | srai =>
    simp (disch := decide) only [operandsOf, encode, encodePorts, idOf, portsOf, formatOf, encShift_getters,
      extractLsb'_setWidth_self]
  | add | sub | sll | slt | sltu | xor | srl | sra | or | and | mul | mulh | mulhsu | mulhu | div | divu | rem | remu =>
    simp only [operandsOf, encode, encodePorts, idOf, portsOf, formatOf, encR_getters]
  | fence => simp only [operandsOf, idOf, encode_fence_getters]
  | fenceTso | pause | ecall | ebreak => rfl

theorem decode_encode {i : Instr} (h : i.wellFormed = true) : decode (encode i) = some i := by
  rw [decode, decodeId_encode h, operandsOf_encode h]

/-- Settles O11: the word is of the instruction's row, so it decodes to its mnemonic, and each field holds its operand. -/
theorem decodeOfEncode : Obligations.DecodeOfEncode := by
  unfold Obligations.DecodeOfEncode
  exact fun i => decode_encode


/-! ### A decoded word is a word of its instruction's row -/

theorem branchId_funct3 : ∀ f3, branchId f3 ≠ .undef → funct3Const (branchId f3) = f3 := by decide

theorem loadId_funct3 : ∀ f3, loadId f3 ≠ .undef → funct3Const (loadId f3) = f3 := by decide

theorem storeId_funct3 : ∀ f3, storeId f3 ≠ .undef → funct3Const (storeId f3) = f3 := by decide

theorem opImmId_funct3 : ∀ f3 f7, opImmId f3 f7 ≠ .undef → funct3Const (opImmId f3 f7) = f3 := by decide

theorem opId_funct3 : ∀ f3 f7, opId f3 f7 ≠ .undef → funct3Const (opId f3 f7) = f3 := by decide

theorem opImmId_funct7 : ∀ f3 f7, opImmId f3 f7 ≠ .undef → rowMask (opImmId f3 f7) = 0xFE00707F#32 →
    funct7Const (opImmId f3 f7) = f7 := by decide

theorem opId_funct7 : ∀ f3 f7, opId f3 f7 ≠ .undef → funct7Const (opId f3 f7) = f7 := by decide

section
variable {w : Word} {id : InstrId} (h : decodeId w = id) (hid : id ≠ .undef)
include h hid

/-- A word that decodes to an instruction has the instruction's funct3, where its format has one. -/
theorem funct3Of_of_decodeId (hu : formatOf id ≠ .u) (hj : formatOf id ≠ .j) : funct3Of w = funct3Const id := by
  have hop := opcodeOf_of_decodeId h hid
  cases id with
  | lui | auipc => exact absurd rfl hu
  | jal => exact absurd rfl hj
  | jalr => exact ((decodeId_eq_jalr_iff w).1 h).2
  | beq | bne | blt | bge | bltu | bgeu =>
    rw [decodeId_branch hop] at h
    rw [← h, branchId_funct3 _ (by rwa [h])]
  | lb | lh | lw | lbu | lhu =>
    rw [decodeId_load hop] at h
    rw [← h, loadId_funct3 _ (by rwa [h])]
  | sb | sh | sw =>
    rw [decodeId_store hop] at h
    rw [← h, storeId_funct3 _ (by rwa [h])]
  | addi | slti | sltiu | xori | ori | andi | slli | srli | srai =>
    rw [decodeId_opImm hop] at h
    rw [← h, opImmId_funct3 _ _ (by rwa [h])]
  | add | sub | sll | slt | sltu | xor | srl | sra | or | and | mul | mulh | mulhsu | mulhu | div | divu | rem | remu =>
    rw [decodeId_op hop] at h
    rw [← h, opId_funct3 _ _ (by rwa [h])]
  | fence =>
    by_contra hne
    rw [decodeId_miscMem hop, (miscMemId_eq_undef_iff w).2 hne] at h
    cases h
  | fenceTso | pause | ecall | ebreak => rw [(decodeId_eq_fixed_iff rfl w).1 h]; rfl
  | undef => exact absurd rfl hid

/-- A word that decodes to an instruction has the instruction's funct7, where the tree looks at it. -/
theorem funct7Of_of_decodeId (hf : formatOf id = .r ∨ id = .srli ∨ id = .srai) : funct7Of w = funct7Const id := by
  have hop := opcodeOf_of_decodeId h hid
  rcases hf with hf | rfl | rfl
  · rw [show opcodeConst id = 0x33#7 by revert hf; cases id <;> decide] at hop
    rw [decodeId_op hop] at h
    rw [← h, opId_funct7 _ _ (by rwa [h])]
  all_goals
    rw [decodeId_opImm hop] at h
    rw [← h, opImmId_funct7 _ _ (by rwa [h]) (by rw [h]; rfl)]

end

/-- Under the mask of the R rows a word is its opcode, funct3 and funct7. -/
theorem and_opcodeFunctsMask_of_fields {w : Word} {op : BitVec 7} {f3 : BitVec 3} {f7 : BitVec 7} (hop : opcodeOf w = op)
    (hf3 : funct3Of w = f3) (hf7 : funct7Of w = f7) :
    w &&& 0xFE00707F#32 = f7 ++ 0#5 ++ 0#5 ++ f3 ++ 0#5 ++ op := by
  subst hop hf3 hf7
  have hop7 : (0xFE00707F#32).extractLsb' 0 7 = BitVec.allOnes 7 := by decide
  have hf3' : (0xFE00707F#32).extractLsb' 12 3 = BitVec.allOnes 3 := by decide
  have hf7' : (0xFE00707F#32).extractLsb' 25 7 = BitVec.allOnes 7 := by decide
  rw [word_eq_fieldsR (w &&& 0xFE00707F#32), opcodeOf_eq, funct3Of_eq, funct7Of_eq]
  simp only [BitVec.extractLsb'_and, hop7, hf3', hf7', BitVec.and_allOnes]
  simp

/-! ### The match of a row, as the fields its mask covers -/

theorem rowMatch_of_opcodeMask : ∀ {id : InstrId}, rowMask id = 0x0000007F#32 →
    rowMatch id = 0#20 ++ 0#5 ++ opcodeConst id := by
  intro id
  cases id <;> decide

theorem rowMatch_of_funct3Mask : ∀ {id : InstrId}, rowMask id = 0x0000707F#32 →
    rowMatch id = 0#12 ++ 0#5 ++ funct3Const id ++ 0#5 ++ opcodeConst id := by
  intro id
  cases id <;> decide

theorem rowMatch_of_functsMask : ∀ {id : InstrId}, rowMask id = 0xFE00707F#32 →
    rowMatch id = funct7Const id ++ 0#5 ++ 0#5 ++ funct3Const id ++ 0#5 ++ opcodeConst id := by
  intro id
  cases id <;> decide

/-- A word that decodes to an instruction is a word of the instruction's row of the table. -/
theorem row_of_decodeId {w : Word} {id : InstrId} (h : decodeId w = id) (hid : id ≠ .undef) :
    w &&& rowMask id = rowMatch id := by
  have hop := opcodeOf_of_decodeId h hid
  have hf3 := funct3Of_of_decodeId h hid
  have hf7 := funct7Of_of_decodeId h hid
  cases id with
  | lui | auipc | jal =>
    rw [rowMatch_of_opcodeMask rfl]
    exact (and_opcodeMask_iff w _).2 hop
  | jalr | beq | bne | blt | bge | bltu | bgeu | lb | lh | lw | lbu | lhu | sb | sh | sw | addi | slti | sltiu | xori | ori
  | andi | slli | fence =>
    rw [rowMatch_of_funct3Mask rfl]
    exact (and_opcodeFunct3Mask_iff w _ _).2 ⟨hop, hf3 nofun nofun⟩
  | srli | srai | add | sub | sll | slt | sltu | xor | srl | sra | or | and | mul | mulh | mulhsu | mulhu | div | divu | rem
  | remu =>
    rw [rowMatch_of_functsMask rfl]
    exact and_opcodeFunctsMask_of_fields hop (hf3 nofun nofun) (hf7 (by decide))
  | fenceTso | pause | ecall | ebreak =>
    rw [(decodeId_eq_fixed_iff rfl w).1 h]
    decide
  | undef => exact absurd rfl hid

/-! ### The tree and the table (R134) -/

theorem mem_allInstrIds (id : InstrId) : id ∈ allInstrIds := by
  cases id <;> decide

/-- A word is one of the fixed words exactly when a row of one word matches it. -/
theorem and_fixedRow_iff {w : Word} {id : InstrId} (hf : formatOf id = .fixed) :
    w &&& rowMask id = rowMatch id ↔ decodeId w = id := by
  have hid : id ≠ .undef := by rintro rfl; cases hf
  have hfence : id ≠ .fence := by rintro rfl; cases hf
  exact ⟨fun h => decodeId_of_row h hid fun he => absurd he hfence, fun h => row_of_decodeId h hid⟩

/-- Where a row of one word matches, the tree answers its instruction. -/
theorem decodeId_of_find?_fixed {w : Word} {id : InstrId}
    (h : (allInstrIds.filter fun id => formatOf id == .fixed).find? (fun id => w &&& rowMask id == rowMatch id) = some id) :
    decodeId w = id := by
  have hfixed := (List.mem_filter.1 (List.mem_of_find?_eq_some h)).2
  exact (and_fixedRow_iff (by simpa using hfixed)).1 (by simpa using List.find?_some h)

/-- The other rows are looked at only for words that no row of one word matches; so a FENCE row that matches is FENCE's own. -/
theorem decodeId_of_find?_rest {w : Word} {id : InstrId}
    (hfixed : (allInstrIds.filter fun id => formatOf id == .fixed).find? (fun id => w &&& rowMask id == rowMatch id) = none)
    (h : (allInstrIds.filter fun id => formatOf id != .fixed && id != .undef).find?
      (fun id => w &&& rowMask id == rowMatch id) = some id) : decodeId w = id := by
  have hid : id ≠ .undef := by
    rintro rfl
    exact absurd (List.mem_of_find?_eq_some h) (by decide)
  have hne : ∀ id' : InstrId, formatOf id' = .fixed → w ≠ fixedWord id' := by
    intro id' hf hw
    have hrow := (and_fixedRow_iff hf).2 ((decodeId_eq_fixed_iff hf w).2 hw)
    have := List.find?_eq_none.1 hfixed id' (by simp [mem_allInstrIds, hf])
    exact this (by simpa using hrow)
  exact decodeId_of_row (by simpa using List.find?_some h) hid fun _ => ⟨hne .fenceTso rfl, hne .pause rfl⟩

/-- Settles O10: the first matching row is the row of what the tree answers, and a word the tree gives an instruction has that
instruction's row among the rows. -/
theorem treeAgreesWithTable : Obligations.TreeAgreesWithTable := by
  unfold Obligations.TreeAgreesWithTable
  intro w
  unfold decodeByTable
  split
  · rename_i id h
    rw [rowOrder, List.find?_append, Option.or_eq_some_iff] at h
    rcases h with h | ⟨hfixed, h⟩
    · exact decodeId_of_find?_fixed h
    · exact decodeId_of_find?_rest hfixed h
  · rename_i h
    by_contra hid
    have hmem : decodeId w ∈ rowOrder := by
      by_cases hf : formatOf (decodeId w) = .fixed <;> simp [rowOrder, mem_allInstrIds, hf, hid]
    exact List.find?_eq_none.1 h _ hmem (by simpa using row_of_decodeId rfl hid)

/-! ### A decoded word is its instruction's word -/

theorem idOf_of_operandsOf {id : InstrId} {w : Word} {i : Instr} (h : operandsOf id w = some i) : idOf i = id := by
  cases id <;> cases h <;> rfl

/-- The operands read from a word go back on the ports as the fields of its format. -/
theorem portsOf_of_operandsOf {id : InstrId} {w : Word} {i : Instr} (h : operandsOf id w = some i) :
    portsOf i = fieldPorts id w := by
  cases id with
  | undef => cases h
  | _ =>
    cases h
    simp (disch := decide) only [portsOf, fieldPorts, formatOf, immI_eq, immS_eq, immB_eq, immJ_eq, fieldU_eq,
      setWidth_signExtend_self, BitVec.setWidth_setWidth_of_le, BitVec.setWidth_eq]

/-- An encoder builds a word of its own again from the word's fields; only SLLI's writes bits the tree does not look at (D14). -/
theorem encodePorts_fieldPorts_of_decodeId {w : Word} {id : InstrId} (h : decodeId w = id) (hid : id ≠ .undef)
    (hslli : id ≠ .slli) : encodePorts id (fieldPorts id w) = w := by
  have hop := opcodeOf_of_decodeId h hid
  have hf3 := funct3Of_of_decodeId h hid
  have hf7 := funct7Of_of_decodeId h hid
  unfold encodePorts fieldPorts
  cases hf : formatOf id with
  | r => simp only [← hop, ← hf3 (by simp [hf]) (by simp [hf]), ← hf7 (.inl hf), encR_fields]
  | i => simp only [← hop, ← hf3 (by simp [hf]) (by simp [hf]), encI_fields]
  | shift =>
    have hright : id = .srli ∨ id = .srai := by
      revert hf hslli
      cases id <;> decide
    simp only [← hop, ← hf3 (by simp [hf]) (by simp [hf]), ← hf7 (.inr hright), encShift_fields]
  | s => simp only [← hop, ← hf3 (by simp [hf]) (by simp [hf]), encS_fields]
  | b => simp only [← hop, ← hf3 (by simp [hf]) (by simp [hf]), encB_fields]
  | u => simp only [← hop, encU_fields]
  | j => simp only [← hop, encJ_fields]
  | fence => simp only [← hop, ← hf3 (by simp [hf]) (by simp [hf]), encFence_fields]
  | fixed => exact ((decodeId_eq_fixed_iff hf w).1 h).symm
  | none => exact absurd (by revert hf; cases id <;> decide) hid

/-- SLLI's encoder clears the seven bits above the shift amount and builds the rest of the word again (D14). -/
theorem encodePorts_slli_fieldPorts {w : Word} (h : decodeId w = .slli) :
    encodePorts .slli (fieldPorts .slli w) = w &&& 0x01FFFFFF#32 := by
  have hop := opcodeOf_of_decodeId h (by decide)
  have hf3 := funct3Of_of_decodeId h (by decide) (by decide) (by decide)
  have h7 : (0x01FFFFFF#32).extractLsb' 25 7 = 0#7 := by decide
  have hrs2 : (0x01FFFFFF#32).extractLsb' 20 5 = BitVec.allOnes 5 := by decide
  have hrs1 : (0x01FFFFFF#32).extractLsb' 15 5 = BitVec.allOnes 5 := by decide
  have h3 : (0x01FFFFFF#32).extractLsb' 12 3 = BitVec.allOnes 3 := by decide
  have hrd : (0x01FFFFFF#32).extractLsb' 7 5 = BitVec.allOnes 5 := by decide
  have hlow : (0x01FFFFFF#32).extractLsb' 0 7 = BitVec.allOnes 7 := by decide
  rw [word_eq_fieldsR (w &&& 0x01FFFFFF#32)]
  simp only [BitVec.extractLsb'_and, h7, hrs2, hrs1, h3, hrd, hlow, BitVec.and_allOnes, BitVec.and_zero]
  rw [encodePorts]
  simp only [formatOf, fieldPorts, ← hop, ← hf3, encShift_eq_append]
  rw [extractLsb'_setWidth_self _ (by decide), opcodeOf_eq, funct3Of_eq, shamtOf_eq, rs1Of_eq, rdOf_eq]
  rfl

/-- The operands read from a word are those of a well-formed instruction: the split offsets end in a zero bit, and a word whose
FENCE fields spell FENCE_TSO or PAUSE decodes to that instruction instead. -/
theorem wellFormed_of_operandsOf {w : Word} {i : Instr} (h : operandsOf (decodeId w) w = some i) : i.wellFormed = true := by
  generalize hd : decodeId w = id at h
  cases id with
  | jal =>
    cases h
    simpa [Instr.wellFormed] using (immJ_range w).1
  | beq | bne | blt | bge | bltu | bgeu =>
    cases h
    simpa [Instr.wellFormed] using (immB_range w).1
  | fence =>
    cases h
    have hop : opcodeOf w = 0x0F#7 := opcodeOf_of_decodeId hd (by decide)
    have hf3 : funct3Of w = 0#3 := funct3Of_of_decodeId hd (by decide) (by decide) (by decide)
    rw [Instr.wellFormed, Bool.not_eq_true', ← Bool.not_eq_true, fenceIsFixedWord_fields_iff hop hf3]
    rintro (rfl | rfl) <;> exact absurd hd (by decide)
  | undef => cases h
  | _ =>
    cases h
    rfl

/-- Settles O12: the decoded instruction's ports are the word's fields, from which its encoder builds the word again. -/
theorem encodeOfDecode : Obligations.EncodeOfDecode := by
  unfold Obligations.EncodeOfDecode
  intro w i h
  refine ⟨wellFormed_of_operandsOf h, ?_⟩
  have hid : decodeId w ≠ .undef := by
    intro hu
    rw [(decode_eq_none_iff w).2 hu] at h
    cases h
  rw [encode, idOf_of_operandsOf h, portsOf_of_operandsOf h]
  split
  · rename_i hslli
    rw [hslli, encodePorts_slli_fieldPorts hslli]
  · rename_i hslli
    exact encodePorts_fieldPorts_of_decodeId rfl hid hslli

/-! ### Words as bytes -/

/-- The four bytes of a word put together are the word (20_memory.md rule R52). -/
theorem wordOfBytes_extract (w : Word) :
    wordOfBytes (w.extractLsb' 0 8) (w.extractLsb' 8 8) (w.extractLsb' 16 8) (w.extractLsb' 24 8) = w := by
  rw [wordOfBytes]
  simp only [BitVec.extractLsb'_append_extractLsb'_eq_extractLsb']
  exact BitVec.extractLsb'_eq_self

theorem bytesOfWord_eq (w : Word) :
    bytesOfWord w = [w.extractLsb' 0 8, w.extractLsb' 8 8, w.extractLsb' 16 8, w.extractLsb' 24 8] := by
  simp only [bytesOfWord, BitVec.setWidth_eq_extractLsb' (show 8 ≤ 32 by decide), extractLsb'_ushiftRight_zero]

/-- The bytes of a well-formed instruction's word decode to it, whatever follows them. -/
theorem decodeBytes_encode {i : Instr} (h : i.wellFormed = true) (rest : List Byte) :
    decodeBytes (bytesOfWord (encode i) ++ rest) = .ok (i, rest) := by
  rw [bytesOfWord_eq]
  simp [decodeBytes, wordOfBytes_extract, decode_encode h]

theorem decodeTableWord_encode {i : Instr} (h : i.wellFormed = true) : decodeTableWord 32 (encode i).toNat = some i := by
  have hbytes := decodeBytes_encode h []
  rw [List.append_nil] at hbytes
  rw [decodeTableWord, Nat.mod_eq_of_lt (encode i).isLt, BitVec.ofNat_toNat, BitVec.setWidth_eq, hbytes]

theorem decodeBytes_of_short : ∀ {bytes : List Byte}, bytes.length < 4 → decodeBytes bytes = .error (.tooShort bytes.length)
  | [], _ | [_], _ | [_, _], _ | [_, _, _], _ => rfl
  | _ :: _ :: _ :: _ :: _, h => absurd h (by simp)

/-- Settles O13: the four bytes are the word again, which decodes to its instruction. -/
theorem decodeBytesOfEncode : Obligations.DecodeBytesOfEncode := by
  unfold Obligations.DecodeBytesOfEncode
  refine ⟨fun i rest h => ⟨?_, decodeTableWord_encode h⟩, fun bytes => decodeBytes_of_short⟩
  have hbytes := decodeBytes_encode h rest
  rwa [bytesOfWord_eq] at hbytes

/-! ### The decided layouts and known words -/

/-- Settles O7: the words of these encoders are their fields put together, and the format column says who uses them. -/
theorem decidedEncodersLayFieldsOut : Obligations.DecidedEncodersLayFieldsOut := by
  unfold Obligations.DecidedEncodersLayFieldsOut
  refine ⟨fun op f3 f7 rd rs1 imm succ pred fm => ⟨encU_eq_append .., encShift_eq_append .., encFence_eq_append ..⟩,
    fun id => ?formats, fun p => ⟨rfl, rfl, rfl, rfl, rfl, rfl, rfl, rfl, rfl, rfl⟩, by decide, by decide, by decide, by decide,
    rfl, rfl, rfl, rfl⟩
  case formats => cases id <;> decide

/-- Settles O14: each word is decoded by evaluation. -/
theorem knownWordsDecode : Obligations.KnownWordsDecode := by
  unfold Obligations.KnownWordsDecode
  decide

end Sys2Proof
end

section
/-! Memory after a write and after a program is loaded (20_memory.md rules R51 to R54, 70_reset_and_hazards.md rule R302): what a
read gives at the address of a write and apart from it, and that a loaded program is what the fetch reads. -/

namespace Sys2Proof.Machine

/-- For the widths the machine has, an access lies in memory exactly when it ends there; no wrapping one does (R51). -/
theorem inMemory_iff_le (a : Word) {n : Nat} (h1 : 1 ≤ n) (h4 : n ≤ 4) : InMemory a n ↔ a.toNat + n ≤ 16777216 := by
  rw [← validAccess_iff_inMemory, validAccess_iff_le a h1 h4]

/-! ### A read after a write -/

/-- The low k bits of a word, zero-extended, are the word under the mask of k ones. -/
theorem setWidth_extractLsb'_zero (v : Word) (k : Nat) :
    (v.extractLsb' 0 k).setWidth 32 = v &&& BitVec.ofNat 32 (2 ^ k - 1) := by
  apply BitVec.eq_of_getLsbD_eq
  intro i hi
  have hones := getLsbD_ones 0 k i
  rw [pow_zero, mul_one] at hones
  rw [BitVec.getLsbD_setWidth, BitVec.getLsbD_extractLsb', BitVec.getLsbD_and, hones]
  simp [hi, Bool.and_comm]

section
variable {s t : State} {a v : Word} {n : Nat} (h : memWrite s a n v = .ok t)
include h

/-- A write changes memory alone, and there only its own bytes. -/
theorem memWrite_frame : t.pc = s.pc ∧ (∀ r, t.getReg r = s.getReg r) ∧
    ∀ b : Word, (∀ i < n, b ≠ a + BitVec.ofNat 32 i) → byteAt t b = byteAt s b := by
  obtain ⟨-, rfl⟩ := memWrite_ok h
  exact ⟨rfl, fun r => rfl, fun b hb => read_storeLE_of_ne s.mem a v n b.toNat fun i hi e => hb i hi (BitVec.eq_of_toNat_eq e)⟩

/-- A read none of whose bytes was written gives what it gave before. -/
theorem memRead_apart {b : Word} {m : Nat} (hne : ∀ i < n, ∀ j < m, a + BitVec.ofNat 32 i ≠ b + BitVec.ofNat 32 j) :
    memRead t b m = memRead s b m := by
  obtain ⟨-, -, hbytes⟩ := memWrite_frame h
  have hload : loadLE t.mem b m = loadLE s.mem b m :=
    loadLE_congr b fun j hj => hbytes (byteAddr b j) fun i hi => (hne i hi j hj).symm
  rw [memRead, memRead, hload]

end

/-- A halfword written is the halfword that stands there. -/
theorem halfAt_memWrite {s t : State} {a v : Word} (h : memWrite s a 2 v = .ok t) : halfAt t a = v.extractLsb' 0 16 := by
  rw [halfAt, byteAt_memWrite_zero h (by decide) (by decide), byteAt_memWrite h (by decide) (i := 1) (by decide)]
  simp only [BitVec.extractLsb'_append_extractLsb'_eq_extractLsb']

/-- A word written is the word that stands there. -/
theorem wordAt_memWrite {s t : State} {a v : Word} (h : memWrite s a 4 v = .ok t) : wordAt t a = v := by
  rw [wordAt, byteAt_memWrite_zero h le_rfl (by decide), byteAt_memWrite h le_rfl (i := 1) (by decide),
    byteAt_memWrite h le_rfl (i := 2) (by decide), byteAt_memWrite h le_rfl (i := 3) (by decide)]
  simp only [BitVec.extractLsb'_append_extractLsb'_eq_extractLsb']
  exact BitVec.extractLsb'_eq_self

/-- A read at the address and width of a write gives the low bytes written (D27). -/
theorem memRead_same {s t : State} {a v : Word} {n : Nat} (hn : n ∈ [1, 2, 4]) (h : memWrite s a n v = .ok t) :
    memRead t a n = .ok (v &&& BitVec.ofNat 32 (2 ^ (8 * n) - 1)) := by
  have hin := inMemory_of_memWrite h
  simp only [List.mem_cons, List.not_mem_nil, or_false] at hn
  rcases hn with rfl | rfl | rfl
  · rw [memRead_one hin, byteAt_memWrite_zero h (by decide) (by decide), setWidth_extractLsb'_zero]
  · rw [memRead_two hin, halfAt_memWrite h, setWidth_extractLsb'_zero]
  · rw [memRead_four hin, wordAt_memWrite h, ← setWidth_extractLsb'_zero, BitVec.setWidth_eq, BitVec.extractLsb'_eq_self]

/-- Settles O31: the bytes of the read are the bytes of the write, or none of them is. -/
theorem loadAfterStore : Obligations.LoadAfterStore := by
  unfold Obligations.LoadAfterStore
  exact fun s t a v n hn h => ⟨memRead_same hn h, fun b m _ hne => memRead_apart h hne⟩

/-! ### A loaded program -/

theorem loadProgram_cons {s t : State} {base w : Word} {ws : List Word} (h : loadProgram s base (w :: ws) = some t) :
    ∃ u, memWrite s base 4 w = .ok u ∧ loadProgram u (base + 4#32) ws = some t := by
  rw [loadProgram] at h
  split at h
  · rename_i u hu
    exact ⟨u, hu, h⟩
  · cases h

theorem add_four_add_ofNat (a : Word) (k : Nat) : a + 4#32 + BitVec.ofNat 32 k = a + BitVec.ofNat 32 (4 + k) := by
  rw [BitVec.add_assoc, ← BitVec.ofNat_add]

/-- Loading a program changes memory alone, and there only the program's bytes. -/
theorem loadProgram_frame {s t : State} {base : Word} {ws : List Word} (h : loadProgram s base ws = some t) :
    t.pc = s.pc ∧ (∀ r, t.getReg r = s.getReg r) ∧
    ∀ b : Word, (∀ k < 4 * ws.length, b ≠ base + BitVec.ofNat 32 k) → byteAt t b = byteAt s b := by
  induction ws generalizing s base with
  | nil =>
    cases h
    exact ⟨rfl, fun _ => rfl, fun _ _ => rfl⟩
  | cons w ws ih =>
    obtain ⟨u, hu, hrest⟩ := loadProgram_cons h
    obtain ⟨hpc, hregs, hbytes⟩ := ih hrest
    obtain ⟨hpcW, hregsW, hbytesW⟩ := memWrite_frame hu
    rw [List.length_cons]
    refine ⟨hpc.trans hpcW, fun r => (hregs r).trans (hregsW r), fun b hb => ?_⟩
    rw [hbytes b fun k hk => by rw [add_four_add_ofNat]; exact hb _ (by omega), hbytesW b fun i hi => hb i (by omega)]

/-- A program that loads lies in memory from its base to its end, without wrapping. -/
theorem loadProgram_fits {s t : State} {base w : Word} {ws : List Word} (h : loadProgram s base (w :: ws) = some t) :
    base.toNat + 4 * (ws.length + 1) ≤ 16777216 := by
  induction ws generalizing s base w with
  | nil =>
    obtain ⟨u, hu, -⟩ := loadProgram_cons h
    simpa using (inMemory_iff_le base (by decide) (by decide)).1 (inMemory_of_memWrite hu)
  | cons w' ws ih =>
    obtain ⟨u, hu, hrest⟩ := loadProgram_cons h
    have hfirst := (inMemory_iff_le base (by decide) (by decide)).1 (inMemory_of_memWrite hu)
    have hnext := ih hrest
    rw [BitVec.toNat_add, Nat.mod_eq_of_lt (by simp; omega)] at hnext
    simp only [List.length_cons, BitVec.toNat_ofNat] at hnext ⊢
    omega

/-- The words loaded after the first leave it as it was written. -/
theorem wordAt_loadProgram {s t : State} {base w : Word} {ws : List Word} (h : loadProgram s base (w :: ws) = some t) :
    wordAt t base = w := by
  have hfits := loadProgram_fits h
  obtain ⟨u, hu, hrest⟩ := loadProgram_cons h
  obtain ⟨-, -, hbytes⟩ := loadProgram_frame hrest
  have hkept : ∀ j < 4, byteAt t (base + BitVec.ofNat 32 j) = byteAt u (base + BitVec.ofNat 32 j) := by
    intro j hj
    refine hbytes _ fun k hk e => ?_
    rw [add_four_add_ofNat] at e
    exact absurd (byteAddr_inj base (by omega) (by omega) (congrArg BitVec.toNat e)) (by omega)
  have hzero := hkept 0 (by decide)
  rw [BitVec.add_zero] at hzero
  rw [← wordAt_memWrite hu, wordAt, wordAt, hzero, hkept 1 (by decide), hkept 2 (by decide), hkept 3 (by decide)]

/-- Word i of a loaded program is what a fetch at its address reads (D22). -/
theorem fetch_loadProgram {s t : State} {base : Word} {ws : List Word} (h : loadProgram s base ws = some t) {i : Nat}
    (hi : i < ws.length) : fetch (t.setPc (base + BitVec.ofNat 32 (4 * i))) = .ok ws[i] := by
  induction ws generalizing s base i with
  | nil => exact absurd hi (by simp)
  | cons w ws ih =>
    obtain ⟨u, hu, hrest⟩ := loadProgram_cons h
    cases i with
    | zero =>
      have hword : wordAt t base = w := wordAt_loadProgram h
      rw [Nat.mul_zero, BitVec.add_zero, fetch_eq_wordAt (s := t.setPc base) (inMemory_of_memWrite hu)]
      exact congrArg Except.ok hword
    | succ i =>
      have hnext := ih hrest (i := i) (by simpa using hi)
      rwa [add_four_add_ofNat, show 4 + 4 * i = 4 * (i + 1) by ring] at hnext

/-- Settles O32: by induction on the program, each word is fetched from where it was written, and the rest is as before. -/
theorem loadedProgramIsFetched : Obligations.LoadedProgramIsFetched := by
  unfold Obligations.LoadedProgramIsFetched
  exact fun s t base ws h => ⟨fun i hi => fetch_loadProgram h hi, loadProgram_frame h⟩

end Sys2Proof.Machine
end

section
/-! What an instruction and a step can do (10_state.md, 20_memory.md, 60_exceptions.md): the ends an instruction can come to, said
once, and from them the invariant, the failures, the frame of memory and the way of pc. -/

namespace Sys2Proof.Machine

/-! ### The ends an instruction can come to -/

/-- The loads, each with its width. -/
def loadForms (rd rs1 : RegIdx) (imm : BitVec 12) : List (Instr × Nat) :=
  [(.lb rd rs1 imm, 1), (.lh rd rs1 imm, 2), (.lw rd rs1 imm, 4), (.lbu rd rs1 imm, 1), (.lhu rd rs1 imm, 2)]

/-- The stores, each with its width. -/
def storeForms (rs2 rs1 : RegIdx) (imm : BitVec 12) : List (Instr × Nat) :=
  [(.sb rs2 rs1 imm, 1), (.sh rs2 rs1 imm, 2), (.sw rs2 rs1 imm, 4)]

/-- The instructions that may send pc elsewhere than to the next one. -/
def jumpIds : List InstrId := [.jal, .jalr, .beq, .bne, .blt, .bge, .bltu, .bgeu]

/-- How the execution of an instruction can end: in one of the three ends that write no memory, in a store, or in a failure of the
instruction's own. -/
inductive ExecEnd (i : Instr) (s : State) : Host.Outcome State Fault Refusal → Prop where
  /-- A register is written and pc moves on by 4. -/
  | writesBack (rd : RegIdx) (v : Word) : ExecEnd i s (.next ((s.setReg rd v).setPc (s.pc + 4#32)))
  /-- A register holds the link and pc is the jump's target. -/
  | links (rd : RegIdx) (a : Word) (hid : idOf i ∈ jumpIds) : ExecEnd i s (.next ((s.setReg rd (s.pc + 4#32)).setPc a))
  /-- Only pc moves, by 4 but for a branch. -/
  | moves (a : Word) (ha : idOf i ∉ jumpIds → a = s.pc + 4#32) : ExecEnd i s (.next (s.setPc a))
  /-- A store inside memory. -/
  | stores (rs2 rs1 : RegIdx) (imm : BitVec 12) (n : Nat) (hi : (i, n) ∈ storeForms rs2 rs1 imm) :
      ExecEnd i s (.next { s with pc := s.pc + 4#32, mem := storeLE s.mem (effectiveAddr s rs1 imm) (s.getReg rs2) n })
  /-- A load with a byte outside memory. -/
  | loadFails (rd rs1 : RegIdx) (imm : BitVec 12) (n : Nat) (hi : (i, n) ∈ loadForms rd rs1 imm)
      (hout : ¬ InMemory (effectiveAddr s rs1 imm) n) :
      ExecEnd i s (.fault (.memoryFault .load (effectiveAddr s rs1 imm) n))
  /-- A store with a byte outside memory. -/
  | storeFails (rs2 rs1 : RegIdx) (imm : BitVec 12) (n : Nat) (hi : (i, n) ∈ storeForms rs2 rs1 imm)
      (hout : ¬ InMemory (effectiveAddr s rs1 imm) n) :
      ExecEnd i s (.fault (.memoryFault .store (effectiveAddr s rs1 imm) n))
  /-- ECALL. -/
  | calls (hi : i = .ecall) : ExecEnd i s (.fault (.environmentCall s.pc))
  /-- EBREAK. -/
  | breaks (hi : i = .ebreak) : ExecEnd i s (.fault (.breakpoint s.pc))

/-- A load writes back where its bytes are in memory and fails where they are not. -/
theorem ExecEnd.of_load {i : Instr} {n : Nat} {rd rs1 : RegIdx} {imm : BitVec 12} (ext : Word → Word) (s : State)
    (hi : (i, n) ∈ loadForms rd rs1 imm) : ExecEnd i s (load n ext rd rs1 imm s) := by
  by_cases hin : InMemory (effectiveAddr s rs1 imm) n
  · rw [load_of_valid _ _ _ _ _ ((validAccess_iff_inMemory _ _).2 hin)]
    exact .writesBack _ _
  · rw [load_of_invalid _ _ _ _ _ ((validAccess_eq_false_iff _ _).2 hin)]
    exact .loadFails rd rs1 imm n hi hin

/-- A store writes its bytes where they are in memory and fails where they are not. -/
theorem ExecEnd.of_store {i : Instr} {n : Nat} {rs2 rs1 : RegIdx} {imm : BitVec 12} (s : State)
    (hi : (i, n) ∈ storeForms rs2 rs1 imm) : ExecEnd i s (store n rs2 rs1 imm s) := by
  by_cases hin : InMemory (effectiveAddr s rs1 imm) n
  · rw [store_of_valid _ _ _ _ ((validAccess_iff_inMemory _ _).2 hin)]
    exact .stores rs2 rs1 imm n hi
  · rw [store_of_invalid _ _ _ _ ((validAccess_eq_false_iff _ _).2 hin)]
    exact .storeFails rs2 rs1 imm n hi hin

/-- Every instruction comes to one of these ends. -/
theorem exec_end (i : Instr) (s : State) : ExecEnd i s (exec i s) := by
  cases i with
  | lui | auipc | addi | slti | sltiu | xori | ori | andi | slli | srli | srai => exact .writesBack _ _
  | add | sub | sll | slt | sltu | xor | srl | sra | or | and => exact .writesBack _ _
  | mul | mulh | mulhsu | mulhu | div | divu | rem | remu => exact .writesBack _ _
  | jal | jalr => exact .links _ _ (by simp [idOf, jumpIds])
  | beq | bne | blt | bge | bltu | bgeu => exact .moves _ (by simp [idOf, jumpIds])
  | fence | fenceTso | pause => exact .moves _ fun _ => rfl
  | lb | lh | lw | lbu | lhu => exact .of_load _ s (by simp [loadForms])
  | sb | sh | sw => exact .of_store s (by simp [storeForms])
  | ecall => exact .calls rfl
  | ebreak => exact .breaks rfl

/-- An outcome of an instruction is one of its ends. -/
theorem ExecEnd.of_eq {i : Instr} {s : State} {o : Host.Outcome State Fault Refusal} (h : exec i s = o) : ExecEnd i s o :=
  h ▸ exec_end i s

/-! ### Failures (60_exceptions.md rule R271) -/

theorem exec_ne_refused (i : Instr) (s : State) (r : Refusal) : exec i s ≠ .refused r := fun h =>
  nomatch ExecEnd.of_eq h

theorem step_ne_refused (s : State) (r : Refusal) : step s ≠ .refused r := by
  unfold step
  split
  · unfold execWord
    split
    · exact exec_ne_refused _ s r
    · nofun
  · nofun

/-- Settles O20: no end of an instruction is a refusal, nor is the failure of the fetch or of the sentinel. -/
theorem nothingIsRefused : Obligations.NothingIsRefused := by
  unfold Obligations.NothingIsRefused
  exact ⟨exec_ne_refused, step_ne_refused⟩

/-- Settles O19: the ends of an instruction that are failures. -/
theorem eachFailureHasItsInstruction : Obligations.EachFailureHasItsInstruction := by
  unfold Obligations.EachFailureHasItsInstruction
  intro i s f hf
  cases ExecEnd.of_eq hf with
  | calls hi => exact .inl ⟨hi, rfl⟩
  | breaks hi => exact .inr (.inl ⟨hi, rfl⟩)
  | loadFails rd rs1 imm n hi hout => exact .inr (.inr (.inl ⟨rd, rs1, imm, n, hi, rfl, hout⟩))
  | storeFails rs2 rs1 imm n hi hout => exact .inr (.inr (.inr ⟨rs2, rs1, imm, n, hi, rfl, hout⟩))

/-! ### The frame of memory and the way of pc -/

/-- Settles O26: of the ends that go on only a store changes memory, and a byte it changes is one of its own. -/
theorem onlyStoresChangeMemory : Obligations.OnlyStoresChangeMemory := by
  unfold Obligations.OnlyStoresChangeMemory
  intro i s t b ht hb
  cases ExecEnd.of_eq ht with
  | writesBack | links => exact absurd (by simp [byteAt]) hb
  | moves => exact absurd rfl hb
  | stores rs2 rs1 imm n hi =>
    refine ⟨rs2, rs1, imm, n, hi, ?_⟩
    by_contra hne
    push Not at hne
    exact hb (read_storeLE_of_ne _ _ _ n _ fun k hk e => hne k hk (BitVec.eq_of_toNat_eq e))

/-- An instruction that goes on and is no jump or branch moves pc on by 4. -/
theorem exec_pc_of_not_jump {i : Instr} {s t : State} (ht : exec i s = .next t) (hid : idOf i ∉ jumpIds) :
    t.pc = s.pc + 4#32 := by
  cases ExecEnd.of_eq ht with
  | writesBack | stores => rfl
  | links _ _ hjump => exact absurd hjump hid
  | moves _ ha => exact ha hid

/-- Adding an even number keeps bit 0. -/
theorem getLsbD_zero_add_even (v : Word) {d : Word} (h : d.getLsbD 0 = false) : (v + d).getLsbD 0 = v.getLsbD 0 := by
  simp only [BitVec.getLsbD, Nat.testBit_zero, BitVec.toNat_add, decide_eq_decide, decide_eq_false_iff_not] at h ⊢
  omega

/-- A relative target with an even offset has pc's parity. -/
theorem getLsbD_zero_add_signExtend (v : Word) {m : Nat} {imm : BitVec m} (h : imm.getLsbD 0 = false) (hm : 0 < m) :
    (v + imm.signExtend 32).getLsbD 0 = v.getLsbD 0 :=
  getLsbD_zero_add_even v (by rw [BitVec.getLsbD_signExtend]; simpa [hm] using h)

theorem branch_pc_parity {p : Word → Word → Bool} {rs1 rs2 : RegIdx} {imm : BitVec 13} {s t : State}
    (ht : branch p rs1 rs2 imm s = .next t) (h : imm.getLsbD 0 = false) : t.pc.getLsbD 0 = s.pc.getLsbD 0 := by
  cases ht
  rw [State.setPc_pc]
  split
  · exact getLsbD_zero_add_signExtend s.pc h (by decide)
  · exact getLsbD_zero_add_even s.pc (by decide)

/-- A well-formed instruction but JALR keeps bit 0 of pc. -/
theorem exec_pc_parity {i : Instr} {s t : State} (ht : exec i s = .next t) (hwf : i.wellFormed = true) (hid : idOf i ≠ .jalr) :
    t.pc.getLsbD 0 = s.pc.getLsbD 0 := by
  by_cases hjump : idOf i ∈ jumpIds
  · cases i with
    | jal rd imm =>
      cases ht
      exact getLsbD_zero_add_signExtend s.pc (by simpa [Instr.wellFormed] using hwf) (by decide)
    | jalr => exact absurd rfl hid
    | beq | bne | blt | bge | bltu | bgeu =>
      simp only [exec, execBeq, execBne, execBlt, execBge, execBltu, execBgeu] at ht
      exact branch_pc_parity ht (by simpa [Instr.wellFormed] using hwf)
    | _ => simp [idOf, jumpIds] at hjump
  · rw [exec_pc_of_not_jump ht hjump]
    exact getLsbD_zero_add_even s.pc (by decide)

/-- Settles O27: the end of an instruction that is no jump, and that even offsets keep parity. -/
theorem pcAdvancesByFour : Obligations.PcAdvancesByFour := by
  unfold Obligations.PcAdvancesByFour
  exact fun i s t ht => ⟨exec_pc_of_not_jump ht, exec_pc_parity ht⟩

/-! ### The invariant (log entries 2 and 3) -/

/-- Every instruction that goes on keeps memory canonical and slot 0 as it was. -/
theorem exec_keeps_inv {i : Instr} {s t : State} (hs : Inv s) (ht : exec i s = .next t) : Inv t := by
  obtain ⟨hwf, hslot⟩ := hs
  cases exec_shape ht with
  | regOnly rd v a h =>
    subst h
    exact ⟨by simpa using hwf, by simpa using hslot⟩
  | stored a v n _ hv h =>
    subst h
    exact ⟨Memory.wf_storeLE a v hv hwf, hslot⟩

/-- Settles O21: a step that goes on is an instruction that goes on. -/
theorem stepKeepsInv : Obligations.StepKeepsInv := by
  unfold Obligations.StepKeepsInv
  intro s t hs ht
  obtain ⟨_, _, _, _, hexec⟩ := step_next ht
  exact exec_keeps_inv hs hexec

/-- Settles O22: the reset memory lists no byte, and every slot is zero. -/
theorem resetHasInv : Obligations.ResetHasInv := by
  unfold Obligations.ResetHasInv
  exact ⟨rfl, by simp [State.reset]⟩

/-! ### What a step runs -/

theorem step_of_inMemory {s : State} (h : InMemory s.pc 4) : step s = execWord (wordAt s s.pc) s := by
  simp [step, fetch_eq_wordAt h]

theorem step_of_not_inMemory {s : State} (h : ¬ InMemory s.pc 4) : step s = .fault (.fetchFault s.pc) := by
  simp [step, fetch_of_invalid ((validAccess_eq_false_iff _ _).2 h), raise]

theorem execWord_of_decode {w : Word} {i : Instr} (h : decode w = some i) (s : State) : execWord w s = exec i s := by
  simp [execWord, h]

/-- Settles O15: the fetch answers the word at pc or fails, and the word is an instruction or UNDEF. -/
theorem stepRunsDecodedInstruction : Obligations.StepRunsDecodedInstruction := by
  unfold Obligations.StepRunsDecodedInstruction
  exact fun s => ⟨fun i hin hi => (step_of_inMemory hin).trans (execWord_of_decode hi s), step_of_undef, step_of_not_inMemory⟩

/-- The failure of the fetch is no instruction's. -/
theorem execWord_ne_fetchFault (w : Word) (s : State) (p : Word) : execWord w s ≠ .fault (.fetchFault p) := by
  unfold execWord
  split
  · exact fun h => nomatch ExecEnd.of_eq h
  · nofun

/-- Settles O16: only the fetch raises FetchFault, and it fails exactly where the word at pc passes the end of memory. -/
theorem fetchFaultsExactlyOutsideMemory : Obligations.FetchFaultsExactlyOutsideMemory := by
  unfold Obligations.FetchFaultsExactlyOutsideMemory
  intro s p
  have hle := inMemory_iff_le s.pc (n := 4) (by decide) (by decide)
  by_cases hin : InMemory s.pc 4
  · rw [step_of_inMemory hin]
    exact iff_of_false (execWord_ne_fetchFault _ s p) fun h => by have := hle.1 hin; omega
  · rw [step_of_not_inMemory hin]
    have hlt : 16777216 < s.pc.toNat + 4 := by rw [hle] at hin; omega
    constructor
    · intro h
      cases h
      exact ⟨rfl, hlt⟩
    · rintro ⟨rfl, -⟩
      rfl

theorem memWrite_withFetchWord {s : State} (w : Word) (h : InMemory s.pc 4) :
    memWrite s s.pc 4 w = .ok (s.withFetchWord 32 w.toNat) := by
  rw [State.withFetchWord, Nat.mod_eq_of_lt w.isLt, BitVec.ofNat_toNat, BitVec.setWidth_eq,
    memWrite_of_valid w ((validAccess_iff_inMemory _ _).2 h)]

/-- Settles O17: placing a word is writing it at pc, which changes nothing else. -/
theorem placedWordRunsNext : Obligations.PlacedWordRunsNext := by
  unfold Obligations.PlacedWordRunsNext
  intro s w hin
  have hplaced := memWrite_withFetchWord w hin
  have hframe := memWrite_frame hplaced
  refine ⟨?_, hframe⟩
  rw [step_of_inMemory (by rwa [hframe.1]), hframe.1, wordAt_memWrite hplaced]

/-- A store that goes on is a write that goes on, with pc moved on by 4. -/
theorem store_next {n : Nat} {rs2 rs1 : RegIdx} {imm : BitVec 12} {s t : State} (h : store n rs2 rs1 imm s = .next t) :
    ∃ u, memWrite s (effectiveAddr s rs1 imm) n (s.getReg rs2) = .ok u ∧ t = u.setPc (s.pc + 4#32) := by
  unfold store at h
  split at h
  · rename_i u hu
    cases h
    exact ⟨u, hu, rfl⟩
  · cases h

/-- Settles O18: SW writes the register at pc + 4, which is then pc. -/
theorem storedWordRunsNext : Obligations.StoredWordRunsNext := by
  unfold Obligations.StoredWordRunsNext
  intro s t rs2 rs1 imm ht ha
  obtain ⟨u, hu, rfl⟩ := store_next (n := 4) ht
  rw [ha] at hu
  have hword : wordAt (u.setPc (s.pc + 4#32)) (s.pc + 4#32) = s.getReg rs2 := (wordAt_memWrite hu : wordAt u _ = _)
  rw [step_of_inMemory (s := u.setPc (s.pc + 4#32)) (inMemory_of_memWrite hu), State.setPc_pc, hword]

/-- Settles O25: no shared operation can tell states of the same view apart. -/
theorem stepSeesOnlyPcRegistersMemory : Obligations.StepSeesOnlyPcRegistersMemory := by
  unfold Obligations.StepSeesOnlyPcRegistersMemory
  exact fun s t => step_sameView

end Sys2Proof.Machine
end

section
/-! Runs (10_state.md rule R43, 60_exceptions.md rules R272, R273, 70_reset_and_hazards.md rule R306): a run is cut into two, a
failure ends it at one step, and when it is over. -/

namespace Sys2Proof.Machine

/-! ### One cycle -/

theorem cycle_of_next {s t : State} (h : step s = .next t) : cycle s = (t, none) := by
  simp [cycle, h]

/-- A cycle that stops leaves the state as it was (R272). -/
theorem cycle_stop_state {s t : State} {x : Stop} (h : cycle s = (t, some x)) : t = s := by
  unfold cycle at h
  split at h <;> cases h <;> rfl

/-! ### Runs of cycles -/

theorem cycles_zero (s : State) : cycles 0 s = (s, none) := rfl

theorem cycles_one (s : State) : cycles 1 s = cycle s := by
  rcases hc : cycle s with ⟨t, _ | x⟩
  · exact cycles_succ_of_next hc
  · exact cycles_succ_of_stop hc

/-- A run of m + n steps is a run of m and, unless that one was cut short, a run of n. -/
theorem cycles_add (m n : Nat) (s : State) :
    cycles (m + n) s =
      match cycles m s with
      | (t, none) => cycles n t
      | (t, some x) => (t, some x) := by
  induction m generalizing s with
  | zero => rw [Nat.zero_add, cycles_zero]
  | succ m ih =>
    rw [Nat.add_right_comm]
    rcases hc : cycle s with ⟨t, _ | x⟩
    · rw [cycles_succ_of_next hc, cycles_succ_of_next hc, ih]
    · rw [cycles_succ_of_stop hc, cycles_succ_of_stop hc]

theorem cycles_add_of_next {m : Nat} {s t : State} (h : cycles m s = (t, none)) (n : Nat) : cycles (m + n) s = cycles n t := by
  rw [cycles_add, h]

theorem cycles_add_of_stop {m : Nat} {s t : State} {x : Stop} (h : cycles m s = (t, some x)) (n : Nat) :
    cycles (m + n) s = (t, some x) := by
  rw [cycles_add, h]

/-- A cycle that stops after k steps ends every longer run. -/
theorem cycles_of_stop_after {k n : Nat} {s t u : State} {x : Stop} (hk : cycles k s = (t, none)) (hx : cycle t = (u, some x))
    (hkn : k < n) : cycles n s = (u, some x) := by
  obtain ⟨d, rfl⟩ := Nat.exists_eq_add_of_lt hkn
  rw [Nat.add_assoc, cycles_add_of_next hk, cycles_succ_of_stop hx]

/-- Settles O28: a cycle by its step, and a run of m + n steps by induction on m. -/
theorem cyclesCompose : Obligations.CyclesCompose := by
  unfold Obligations.CyclesCompose
  exact ⟨fun s t => cycle_of_next, fun s f => cycle_of_fault, fun s => ⟨cycles_zero s, cycles_one s⟩,
    fun k n s t u x => cycles_of_stop_after, cycles_add⟩

/-- A run that stops did so at one step, every earlier one complete (D23). -/
theorem exists_stopping_step {n : Nat} {s t : State} {x : Stop} (h : cycles n s = (t, some x)) :
    ∃ k < n, cycles k s = (t, none) ∧ cycle t = (t, some x) := by
  induction n generalizing s with
  | zero => cases h
  | succ n ih =>
    rcases hc : cycle s with ⟨u, _ | y⟩
    · rw [cycles_succ_of_next hc] at h
      obtain ⟨k, hk, hrun, hstop⟩ := ih h
      exact ⟨k + 1, by omega, (cycles_succ_of_next hc).trans hrun, hstop⟩
    · rw [cycles_succ_of_stop hc] at h
      cases h
      obtain rfl := cycle_stop_state hc
      exact ⟨0, by omega, rfl, hc⟩

/-- Settles O29: a cycle that stops is at the state it was at, and the step a run stops at is found by induction on the run. -/
theorem failureIsPrecise : Obligations.FailureIsPrecise := by
  unfold Obligations.FailureIsPrecise
  refine ⟨fun s t x h => ?_, fun n s t x => exists_stopping_step⟩
  obtain rfl := cycle_stop_state h
  exact ⟨rfl, h⟩

/-! ### When a run is over -/

/-- On the run of at most n steps from s, t is the first state with pc at a. -/
def FirstArrival (a : Word) (n : Nat) (s t : State) : Prop :=
  ∃ k ≤ n, cycles k s = (t, none) ∧ t.pc = a ∧ ∀ j < k, (cycles j s).1.pc ≠ a

section
variable {a : Word} {n : Nat} {s t u : State}

/-- With pc at the address, the start is the first arrival (log entry 10). -/
theorem firstArrival_of_eq (hpc : s.pc = a) : FirstArrival a n s t ↔ s = t := by
  constructor
  · rintro ⟨k, -, hrun, -, hbefore⟩
    cases k with
    | zero => exact congrArg Prod.fst hrun
    | succ k => exact absurd hpc (hbefore 0 (by omega))
  · rintro rfl
    exact ⟨0, by omega, rfl, hpc, fun j hj => absurd hj (by omega)⟩

theorem not_firstArrival_zero (hpc : s.pc ≠ a) : ¬ FirstArrival a 0 s t := by
  rintro ⟨k, hk, hrun, hta, -⟩
  obtain rfl : k = 0 := by omega
  cases hrun
  exact hpc hta

theorem firstArrival_succ_of_next (hpc : s.pc ≠ a) (hc : cycle s = (u, none)) :
    FirstArrival a (n + 1) s t ↔ FirstArrival a n u t := by
  constructor
  · rintro ⟨k, hk, hrun, hta, hbefore⟩
    cases k with
    | zero =>
      cases hrun
      exact absurd hta hpc
    | succ k =>
      rw [cycles_succ_of_next hc] at hrun
      refine ⟨k, by omega, hrun, hta, fun j hj => ?_⟩
      rw [← cycles_succ_of_next hc]
      exact hbefore (j + 1) (by omega)
  · rintro ⟨k, hk, hrun, hta, hbefore⟩
    refine ⟨k + 1, by omega, (cycles_succ_of_next hc).trans hrun, hta, fun j hj => ?_⟩
    cases j with
    | zero => exact hpc
    | succ j =>
      rw [cycles_succ_of_next hc]
      exact hbefore j (by omega)

theorem not_firstArrival_of_stop {x : Stop} (hpc : s.pc ≠ a) (hc : cycle s = (u, some x)) : ¬ FirstArrival a n s t := by
  rintro ⟨k, -, hrun, hta, -⟩
  cases k with
  | zero =>
    cases hrun
    exact hpc hta
  | succ k =>
    rw [cycles_succ_of_stop hc] at hrun
    cases hrun

end

/-- A run reaches an address in the first of its states with pc there. -/
theorem reachPc_eq_some_iff (a : Word) (n : Nat) (s t : State) : reachPc a n s = some t ↔ FirstArrival a n s t := by
  induction n generalizing s with
  | zero =>
    by_cases hpc : s.pc = a
    · rw [reachPc_of_eq hpc, firstArrival_of_eq hpc, Option.some_inj]
    · simp [reachPc_zero_of_ne hpc, not_firstArrival_zero hpc]
  | succ n ih =>
    by_cases hpc : s.pc = a
    · rw [reachPc_of_eq hpc, firstArrival_of_eq hpc, Option.some_inj]
    · rcases hc : cycle s with ⟨u, _ | x⟩
      · rw [reachPc_succ_of_next hpc hc, firstArrival_succ_of_next hpc hc, ih]
      · simp [reachPc_succ_of_stop hpc hc, not_firstArrival_of_stop hpc hc]

theorem runEnd_afterSteps_iff (k n : Nat) (s t : State) :
    runEnd (.afterSteps k) n s = some t ↔ k ≤ n ∧ cycles k s = (t, none) := by
  rcases hc : cycles k s with ⟨u, _ | x⟩ <;> by_cases hk : k ≤ n <;> simp [runEnd, hc, hk]

theorem runEnd_onFailure_iff (k : FailureKind) (n : Nat) (s t : State) :
    runEnd (.onFailure k) n s = some t ↔ ∃ f, cycles n s = (t, some (.failure f)) ∧ kindOf f = k := by
  rcases hc : cycles n s with ⟨u, _ | f | r⟩
  · simp [runEnd, hc]
  · by_cases hf : kindOf f = k <;> simp [runEnd, hc, hf]
  · simp [runEnd, hc]

/-- Once a run is over it stays over in the same state. -/
theorem runEnd_mono {e : EndCondition} {m n : Nat} {s t : State} (hmn : m ≤ n) (h : runEnd e m s = some t) :
    runEnd e n s = some t := by
  cases e with
  | afterSteps k =>
    rw [runEnd_afterSteps_iff] at h ⊢
    exact ⟨h.1.trans hmn, h.2⟩
  | atPc a =>
    rw [runEnd, reachPc_eq_some_iff] at h ⊢
    obtain ⟨k, hk, hrun⟩ := h
    exact ⟨k, hk.trans hmn, hrun⟩
  | onFailure k =>
    rw [runEnd_onFailure_iff] at h ⊢
    obtain ⟨f, hf, hkind⟩ := h
    obtain ⟨d, rfl⟩ := Nat.exists_eq_add_of_le hmn
    exact ⟨f, cycles_add_of_stop hf d, hkind⟩

/-- A step at `jal x0 0` leaves the state as it is. -/
theorem step_jalSelf {s : State} (hin : InMemory s.pc 4) (hw : wordAt s s.pc = 0x0000006F#32) : step s = .next s := by
  have hdec : decode 0x0000006F#32 = some (.jal 0#5 0#21) := by decide
  rw [step_of_inMemory hin, hw, execWord_of_decode hdec]
  have hexec : exec (.jal 0#5 0#21) s = goTo s (s.pc + (0#21).signExtend 32) := jumpLink_zero s _
  rw [hexec, show (0#21).signExtend 32 = 0#32 by decide, BitVec.add_zero]
  rfl

theorem cycles_of_step_self {s : State} (h : step s = .next s) (n : Nat) : cycles n s = (s, none) := by
  induction n with
  | zero => rfl
  | succ n ih => rw [cycles_succ_of_next (cycle_of_next h), ih]

/-- Settles O60: each end condition as a statement about the run, which a longer run begins with. -/
theorem runEndsWhereItsConditionIsMet : Obligations.RunEndsWhereItsConditionIsMet := by
  unfold Obligations.RunEndsWhereItsConditionIsMet
  exact ⟨reachPc_eq_some_iff, runEnd_afterSteps_iff, runEnd_onFailure_iff, fun e m n s t => runEnd_mono,
    fun e n s => Option.isSome_iff_exists, fun n s hin hw => cycles_of_step_self (step_jalSelf hin hw) n⟩

end Sys2Proof.Machine
end

section
/-! The comparisons and shifts (45_op_imm.md, 46_op.md): each as a write-back, the value of an arithmetic shift bit by bit and as
a floor division, and the decoder's answer for a word of a shift row. -/

namespace Sys2Proof.Machine

/-! ### Comparisons (decision D26) -/

theorem boolWord_ltSigned (a b : Word) : boolWord (ltSigned a b) = if a.toInt < b.toInt then 1#32 else 0#32 := by
  simp [boolWord, ltSigned]

theorem boolWord_ltUnsigned (a b : Word) : boolWord (ltUnsigned a b) = if a.toNat < b.toNat then 1#32 else 0#32 := by
  simp [boolWord, ltUnsigned]

section
variable (rd rs1 rs2 : RegIdx) (imm : BitVec 12) (s : State)

theorem exec_slti_writesReg :
    WritesReg (exec (.slti rd rs1 imm) s) s rd (if (s.getReg rs1).toInt < imm.toInt then 1#32 else 0#32) (s.pc + 4#32) := by
  have h := aluImm_writesReg (fun a b => boolWord (ltSigned a b)) rd rs1 imm s
  rwa [boolWord_ltSigned, BitVec.toInt_signExtend_of_le (by decide)] at h

theorem exec_sltiu_writesReg :
    WritesReg (exec (.sltiu rd rs1 imm) s) s rd
      (if (s.getReg rs1).toNat < (imm.signExtend 32).toNat then 1#32 else 0#32) (s.pc + 4#32) := by
  have h := aluImm_writesReg (fun a b => boolWord (ltUnsigned a b)) rd rs1 imm s
  rwa [boolWord_ltUnsigned] at h

theorem exec_slt_writesReg :
    WritesReg (exec (.slt rd rs1 rs2) s) s rd (if (s.getReg rs1).toInt < (s.getReg rs2).toInt then 1#32 else 0#32)
      (s.pc + 4#32) := by
  have h := aluReg_writesReg (fun a b => boolWord (ltSigned a b)) rd rs1 rs2 s
  rwa [boolWord_ltSigned] at h

theorem exec_sltu_writesReg :
    WritesReg (exec (.sltu rd rs1 rs2) s) s rd (if (s.getReg rs1).toNat < (s.getReg rs2).toNat then 1#32 else 0#32)
      (s.pc + 4#32) := by
  have h := aluReg_writesReg (fun a b => boolWord (ltUnsigned a b)) rd rs1 rs2 s
  rwa [boolWord_ltUnsigned] at h

end

/-- Settles O35: each is a write-back of 1 or 0, and its words are those of its row. -/
theorem setLessThanWritesZeroOrOne : Obligations.SetLessThanWritesZeroOrOne := by
  unfold Obligations.SetLessThanWritesZeroOrOne
  exact ⟨fun rd rs1 imm s => ⟨exec_slti_writesReg rd rs1 imm s, exec_sltiu_writesReg rd rs1 imm s⟩,
    fun rd rs1 rs2 s => ⟨exec_slt_writesReg rd rs1 rs2 s, exec_sltu_writesReg rd rs1 rs2 s⟩,
    fun w => ⟨fun h => decode_of_rowI (id := .slti) h rfl rfl, fun h => decode_of_rowI (id := .sltiu) h rfl rfl,
      fun h => decode_of_rowR (id := .slt) h rfl rfl, fun h => decode_of_rowR (id := .sltu) h rfl rfl⟩⟩

/-! ### Shifts (decision D14) -/

/-- The amount in a register is its low five bits, the number modulo 32. -/
theorem regShamt_eq_mod (v : Word) : regShamt v = v.toNat % 32 := by
  simp [regShamt]

/-- An arithmetic right shift takes each bit from k places up, and copies of bit 31 from beyond. -/
theorem getLsbD_sshiftRight_min (v : Word) (k : Nat) {i : Nat} (hi : i < 32) :
    (v.sshiftRight k).getLsbD i = v.getLsbD (min (i + k) 31) := by
  rw [BitVec.getLsbD_sshiftRight, BitVec.msb_eq_getLsbD_last]
  by_cases h : k + i < 32
  · simp [hi, h, show min (i + k) 31 = k + i by omega]
  · simp [hi, h, show min (i + k) 31 = 31 by omega]

section
variable (rd rs1 rs2 : RegIdx) (shamt : BitVec 5) (s : State)

theorem exec_slli_writesReg :
    WritesReg (exec (.slli rd rs1 shamt) s) s rd (s.getReg rs1 <<< shamt.toNat) (s.pc + 4#32) := writeBack_writesReg s rd _

theorem exec_srli_writesReg :
    WritesReg (exec (.srli rd rs1 shamt) s) s rd (s.getReg rs1 >>> shamt.toNat) (s.pc + 4#32) := writeBack_writesReg s rd _

theorem exec_srai_writesReg :
    WritesReg (exec (.srai rd rs1 shamt) s) s rd ((s.getReg rs1).sshiftRight shamt.toNat) (s.pc + 4#32) :=
  writeBack_writesReg s rd _

theorem exec_sll_writesReg :
    WritesReg (exec (.sll rd rs1 rs2) s) s rd (s.getReg rs1 <<< ((s.getReg rs2).toNat % 32)) (s.pc + 4#32) := by
  rw [← regShamt_eq_mod]
  exact aluReg_writesReg (fun a b => a <<< regShamt b) rd rs1 rs2 s

theorem exec_srl_writesReg :
    WritesReg (exec (.srl rd rs1 rs2) s) s rd (s.getReg rs1 >>> ((s.getReg rs2).toNat % 32)) (s.pc + 4#32) := by
  rw [← regShamt_eq_mod]
  exact aluReg_writesReg (fun a b => a >>> regShamt b) rd rs1 rs2 s

theorem exec_sra_writesReg :
    WritesReg (exec (.sra rd rs1 rs2) s) s rd ((s.getReg rs1).sshiftRight ((s.getReg rs2).toNat % 32)) (s.pc + 4#32) := by
  rw [← regShamt_eq_mod]
  exact aluReg_writesReg (fun a b => a.sshiftRight (regShamt b)) rd rs1 rs2 s

end

/-- A word of a row decodes to the instruction its operands make, but for FENCE's row (R121, R134). -/
theorem decode_of_row {id : InstrId} {w : Word} {i : Instr} (h : w &&& rowMask id = rowMatch id) (hfence : formatOf id ≠ .fence)
    (hops : operandsOf id w = some i) : decode w = some i := by
  have hundef : id ≠ .undef := by rintro rfl; cases hops
  rw [decode, decodeId_of_row h hundef fun hid => absurd (congrArg formatOf hid) hfence, hops]

/-- A word of a shift row decodes to the row's instruction, with the amount in the field of rs2 (R107, R121). -/
theorem decode_of_rowShift {id : InstrId} {w : Word} {instr : RegIdx → RegIdx → BitVec 5 → Instr}
    (h : w &&& rowMask id = rowMatch id) (hf : formatOf id = .shift)
    (hops : operandsOf id w = some (instr (rdOf w) (rs1Of w) (shamtOf w))) :
    decode w = some (instr (w.extractLsb' 7 5) (w.extractLsb' 15 5) (w.extractLsb' 20 5)) := by
  rw [decode_of_row h (by simp [hf]) hops, rdOf_eq, rs1Of_eq, shamtOf_eq]

/-- Settles O36: each is a write-back of the shifted value, and its words are those of its row, SLLI's without funct7. -/
theorem shiftImmediatesMoveBits : Obligations.ShiftImmediatesMoveBits := by
  unfold Obligations.ShiftImmediatesMoveBits
  exact ⟨fun rd rs1 shamt s => ⟨exec_slli_writesReg rd rs1 shamt s, exec_srli_writesReg rd rs1 shamt s,
      _, exec_srai_writesReg rd rs1 shamt s, fun i hi => getLsbD_sshiftRight_min _ _ hi⟩,
    fun w => ⟨fun h => decode_of_rowShift (id := .slli) h rfl rfl, fun h => decode_of_rowShift (id := .srli) h rfl rfl,
      fun h => decode_of_rowShift (id := .srai) h rfl rfl⟩⟩

/-- Settles O39: each is a write-back of the value shifted by rs2 modulo 32, and its words are those of its row. -/
theorem shiftRegistersMoveBits : Obligations.ShiftRegistersMoveBits := by
  unfold Obligations.ShiftRegistersMoveBits
  exact ⟨fun rd rs1 rs2 s => ⟨exec_sll_writesReg rd rs1 rs2 s, exec_srl_writesReg rd rs1 rs2 s,
      _, exec_sra_writesReg rd rs1 rs2 s, fun i hi => getLsbD_sshiftRight_min _ _ hi⟩,
    fun w => ⟨fun h => decode_of_rowR (id := .sll) h rfl rfl, fun h => decode_of_rowR (id := .srl) h rfl rfl,
      fun h => decode_of_rowR (id := .sra) h rfl rfl⟩⟩

/-- What rd reads after an outcome that writes it, when it is not x0. -/
theorem getReg_of_writesReg {o : Host.Outcome State Fault Refusal} {s t : State} {rd : RegIdx} {v a : Word}
    (h : WritesReg o s rd v a) (ho : o = .next t) (hrd : rd ≠ 0#5) : t.getReg rd = v := by
  obtain ⟨u, hu, -, hregs, -⟩ := h
  rw [ho] at hu
  cases hu
  rw [hregs, if_pos ⟨rfl, hrd⟩]

theorem toNat_shiftLeft_mul (v : Word) (k : Nat) : (v <<< k).toNat = v.toNat * 2 ^ k % 2 ^ 32 := by
  rw [BitVec.toNat_shiftLeft, Nat.shiftLeft_eq]

theorem toNat_ushiftRight_div (v : Word) (k : Nat) : (v >>> k).toNat = v.toNat / 2 ^ k := by
  rw [BitVec.toNat_ushiftRight, Nat.shiftRight_eq_div_pow]

theorem toInt_sshiftRight_fdiv (v : Word) (k : Nat) : (v.sshiftRight k).toInt = v.toInt.fdiv (2 ^ k) := by
  rw [BitVec.toInt_sshiftRight, Int.shiftRight_eq_div_pow, Int.fdiv_eq_ediv_of_nonneg _ (by positivity)]
  norm_cast

/-- Settles O40: the value each shift writes, as a number. -/
theorem shiftsAsArithmetic : Obligations.ShiftsAsArithmetic := by
  unfold Obligations.ShiftsAsArithmetic
  intro rd rs1 rs2 shamt s t hrd
  refine ⟨fun h => ?slli, fun h => ?srli, fun h => ?srai, fun h => ?sll, fun h => ?srl, fun h => ?sra⟩
  case slli => rw [getReg_of_writesReg (exec_slli_writesReg rd rs1 shamt s) h hrd, toNat_shiftLeft_mul]
  case srli => rw [getReg_of_writesReg (exec_srli_writesReg rd rs1 shamt s) h hrd, toNat_ushiftRight_div]
  case srai => rw [getReg_of_writesReg (exec_srai_writesReg rd rs1 shamt s) h hrd, toInt_sshiftRight_fdiv]
  case sll => rw [getReg_of_writesReg (exec_sll_writesReg rd rs1 rs2 s) h hrd, toNat_shiftLeft_mul]
  case srl => rw [getReg_of_writesReg (exec_srl_writesReg rd rs1 rs2 s) h hrd, toNat_ushiftRight_div]
  case sra => rw [getReg_of_writesReg (exec_sra_writesReg rd rs1 rs2 s) h hrd, toInt_sshiftRight_fdiv]

end Sys2Proof.Machine
end

section
/-! Upper immediates, jumps and branches (40_upper_immediate.md, 41_jumps.md, 42_branches.md): each in the claims' words, and the
decoder's answer for a word of a U, J or B row. -/

namespace Sys2Proof.Machine

/-! ### The words of a U, J or B row -/

theorem fieldU_setWidth (w : Word) : (fieldU w).setWidth 20 = w.extractLsb' 12 20 := by
  rw [fieldU_eq, BitVec.setWidth_eq_extractLsb' (show 20 ≤ 32 by decide), extractLsb'_setWidth_self _ (by decide)]

theorem immB_setWidth (w : Word) :
    (immB w).setWidth 13 =
      w.extractLsb' 31 1 ++ w.extractLsb' 7 1 ++ w.extractLsb' 25 6 ++ w.extractLsb' 8 4 ++ 0#1 := by
  rw [immB_eq, setWidth_signExtend_self _ (by decide)]

theorem immJ_setWidth (w : Word) :
    (immJ w).setWidth 21 =
      w.extractLsb' 31 1 ++ w.extractLsb' 12 8 ++ w.extractLsb' 20 1 ++ w.extractLsb' 21 10 ++ 0#1 := by
  rw [immJ_eq, setWidth_signExtend_self _ (by decide)]

/-- A word of a U row decodes to the row's instruction, with the field value as its operand (R105, R121). -/
theorem decode_of_rowU {id : InstrId} {w : Word} {instr : RegIdx → BitVec 20 → Instr} (h : w &&& rowMask id = rowMatch id)
    (hf : formatOf id = .u) (hops : operandsOf id w = some (instr (rdOf w) ((fieldU w).setWidth 20))) :
    decode w = some (instr (w.extractLsb' 7 5) (w.extractLsb' 12 20)) := by
  rw [decode_of_row h (by simp [hf]) hops, rdOf_eq, fieldU_setWidth]

/-- A word of the JAL row decodes to JAL, with the offset put together from the word (R94, R106). -/
theorem decode_of_rowJal {w : Word} (h : w &&& rowMask .jal = rowMatch .jal) :
    decode w = some (.jal (w.extractLsb' 7 5)
      (w.extractLsb' 31 1 ++ w.extractLsb' 12 8 ++ w.extractLsb' 20 1 ++ w.extractLsb' 21 10 ++ 0#1)) := by
  rw [decode_of_row h nofun rfl, rdOf_eq, immJ_setWidth]

/-- A word of a B row decodes to the row's branch, with the offset put together from the word (R92, R104). -/
theorem decode_of_rowB {id : InstrId} {w : Word} {instr : RegIdx → RegIdx → BitVec 13 → Instr}
    (h : w &&& rowMask id = rowMatch id) (hf : formatOf id = .b)
    (hops : operandsOf id w = some (instr (rs1Of w) (rs2Of w) ((immB w).setWidth 13))) :
    decode w = some (instr (w.extractLsb' 15 5) (w.extractLsb' 20 5)
      (w.extractLsb' 31 1 ++ w.extractLsb' 7 1 ++ w.extractLsb' 25 6 ++ w.extractLsb' 8 4 ++ 0#1)) := by
  rw [decode_of_row h (by simp [hf]) hops, rs1Of_eq, rs2Of_eq, immB_setWidth]

/-! ### Upper immediates and JAL -/

/-- Settles O41: each is a write-back of the field value over twelve zero bits, and its words are those of its opcode. -/
theorem upperImmediates : Obligations.UpperImmediates := by
  unfold Obligations.UpperImmediates
  exact ⟨fun rd imm s => ⟨writeBack_writesReg s rd (immUpper imm), writeBack_writesReg s rd (s.pc + immUpper imm)⟩,
    fun w => ⟨fun h => decode_of_rowU (id := .lui) h rfl rfl, fun h => decode_of_rowU (id := .auipc) h rfl rfl⟩⟩

/-- A jump that links writes the next pc to rd and sends pc to its target, both from the pc it was at (R26). -/
theorem jumpLink_writesReg (s : State) (rd : RegIdx) (a : Word) : WritesReg (jumpLink s rd a) s rd (s.pc + 4#32) a := by
  obtain ⟨t, hnext, hpc, hregs, -, hmem⟩ := jumpLink_spec s rd a
  exact ⟨t, hnext, hpc, hregs, fun b => by rw [byteAt, byteAt, hmem]⟩

/-- Settles O42: JAL is a jump that links, and its words are those of its opcode. -/
theorem jalLinksAndJumps : Obligations.JalLinksAndJumps := by
  unfold Obligations.JalLinksAndJumps
  exact ⟨fun rd imm s => jumpLink_writesReg s rd _, fun w => decode_of_rowJal⟩

/-! ### JALR on either build (decisions D5, D6) -/

theorem jalrTarget_false (t : Word) : jalrTarget false t = t := by
  simp [jalrTarget]

/-- Clearing bit 0 of a value changes it exactly when the bit is set. -/
theorem clearBit0_eq_self_iff (t : Word) : t &&& 0xFFFFFFFE#32 = t ↔ t.getLsbD 0 = false := by
  constructor
  · intro h
    rw [← h, BitVec.getLsbD_and, show (0xFFFFFFFE#32).getLsbD 0 = false by decide, Bool.and_false]
  · intro h
    have heven := setWidth_clearBit0_signExtend (v := t) le_rfl h
    rwa [BitVec.signExtend_eq, BitVec.setWidth_eq] at heven

theorem jalrTarget_true (t : Word) : jalrTarget true t = t &&& 0xFFFFFFFE#32 := by
  by_cases h : t.getLsbD 0 = true
  · rw [jalrTarget, if_pos h, if_pos rfl]
  · rw [jalrTarget, if_neg h, (clearBit0_eq_self_iff t).2 (by simpa using h)]

theorem jalrTarget_eq (clear : Bool) (t : Word) : jalrTarget clear t = if clear then t &&& 0xFFFFFFFE#32 else t := by
  cases clear with
  | false => exact jalrTarget_false t
  | true => exact jalrTarget_true t

theorem execJalrWith_writesReg (clear : Bool) (rd rs1 : RegIdx) (imm : BitVec 12) (s : State) :
    WritesReg (execJalrWith clear rd rs1 imm s) s rd (s.pc + 4#32)
      (if clear then (s.getReg rs1 + imm.signExtend 32) &&& 0xFFFFFFFE#32 else s.getReg rs1 + imm.signExtend 32) := by
  rw [← jalrTarget_eq]
  exact jumpLink_writesReg s rd _

/-- The two builds differ in pc alone, and there only for an odd sum (R172). -/
theorem execJalrWith_true_eq_false_iff (rd rs1 : RegIdx) (imm : BitVec 12) (s : State) :
    execJalrWith true rd rs1 imm s = execJalrWith false rd rs1 imm s ↔
      (s.getReg rs1 + imm.signExtend 32).getLsbD 0 = false := by
  rw [← clearBit0_eq_self_iff, ← jalrTarget_true]
  constructor
  · intro h
    have hpc := congrArg State.pc (Host.Outcome.next.inj h)
    rwa [State.setPc_pc, State.setPc_pc, jalrTarget_false] at hpc
  · intro h
    rw [execJalrWith, execJalrWith, jalrTarget_false]
    exact congrArg (jumpLink s rd) h

/-- Settles O43: JALR is a jump that links to the sum, bit 0 cleared on a build that clears it. -/
theorem jalrLinksAndJumps : Obligations.JalrLinksAndJumps := by
  unfold Obligations.JalrLinksAndJumps
  exact ⟨fun rd rs1 imm s => ⟨execJalrWith_writesReg Config.jalrClearBit0 rd rs1 imm s,
      execJalrWith_writesReg false rd rs1 imm s, execJalrWith_writesReg true rd rs1 imm s,
      execJalrWith_true_eq_false_iff rd rs1 imm s⟩,
    fun w h => decode_of_rowI (id := .jalr) h rfl rfl⟩

/-! ### Branches (decision D26) -/

/-- A branch moves pc alone: to its target when its predicate holds, else on by 4 (R180). -/
theorem branch_movesPc {p : Word → Word → Bool} {P : Prop} [Decidable P] (rs1 rs2 : RegIdx) (imm : BitVec 13) (s : State)
    (hp : p (s.getReg rs1) (s.getReg rs2) = true ↔ P) :
    MovesPc (branch p rs1 rs2 imm s) s (if P then s.pc + imm.signExtend 32 else s.pc + 4#32) := by
  rw [← if_congr hp rfl rfl]
  exact goTo_movesPc s _

/-- Settles O44: the six predicates, each decided by its comparison. -/
theorem branchesMovePcOnly : Obligations.BranchesMovePcOnly := by
  unfold Obligations.BranchesMovePcOnly
  intro rs1 rs2 imm s
  refine ⟨branch_movesPc rs1 rs2 imm s (by simp), branch_movesPc rs1 rs2 imm s (by simp),
    branch_movesPc rs1 rs2 imm s ?lt, branch_movesPc (p := fun a b => !ltSigned a b) rs1 rs2 imm s ?ge,
    branch_movesPc rs1 rs2 imm s ?ltu, branch_movesPc (p := fun a b => !ltUnsigned a b) rs1 rs2 imm s ?geu⟩
  case lt | ge => simp [ltSigned]
  case ltu | geu => simp [ltUnsigned]

/-- Settles O45: the words of each branch are those of its row. -/
theorem branchWordsDecode : Obligations.BranchWordsDecode := by
  unfold Obligations.BranchWordsDecode
  exact fun w => ⟨fun h => decode_of_rowB (id := .beq) h rfl rfl, fun h => decode_of_rowB (id := .bne) h rfl rfl,
    fun h => decode_of_rowB (id := .blt) h rfl rfl, fun h => decode_of_rowB (id := .bge) h rfl rfl,
    fun h => decode_of_rowB (id := .bltu) h rfl rfl, fun h => decode_of_rowB (id := .bgeu) h rfl rfl⟩

end Sys2Proof.Machine
end

section
/-! Loads and stores (43_loads.md, 44_stores.md): each load as a write-back of the bytes it extends, each store as the bytes it
puts, the failures of both, and the decoder's answer for their words. -/

namespace Sys2Proof.Machine

/-! ### Loads -/

/-- A value put on a word and cut back to its width is extended as it is. -/
theorem sext_setWidth {n : Nat} (v : BitVec n) (h : n ≤ 32) : sext n (v.setWidth 32) = v.signExtend 32 := by
  rw [sext, BitVec.setWidth_eq_extractLsb' h, extractLsb'_setWidth_self v h]

theorem zext_setWidth {n : Nat} (v : BitVec n) (h : n ≤ 32) : zext n (v.setWidth 32) = v.setWidth 32 := by
  rw [zext, BitVec.setWidth_eq_extractLsb' h, extractLsb'_setWidth_self v h]

/-- A load whose read answers a value writes that value extended. -/
theorem load_writesReg {n : Nat} {v : Word} (ext : Word → Word) (rd rs1 : RegIdx) (imm : BitVec 12) (s : State)
    (h : memRead s (effectiveAddr s rs1 imm) n = .ok v) :
    WritesReg (load n ext rd rs1 imm s) s rd (ext v) (s.pc + 4#32) := by
  rw [load, h]
  exact writeBack_writesReg s rd _

/-- Settles O46: a read of each width gives the bytes there, which the load extends from their own width. -/
theorem loadsExtendMemory : Obligations.LoadsExtendMemory := by
  unfold Obligations.LoadsExtendMemory
  refine fun rd rs1 imm s => ⟨fun hin => ⟨?lb, ?lbu⟩, fun hin => ⟨?lh, ?lhu⟩, fun hin => ?lw⟩
  case lb =>
    rw [← sext_setWidth _ (by decide)]
    exact load_writesReg (sext 8) rd rs1 imm s (memRead_one hin)
  case lbu =>
    rw [← zext_setWidth _ (by decide)]
    exact load_writesReg (zext 8) rd rs1 imm s (memRead_one hin)
  case lh =>
    rw [← sext_setWidth _ (by decide)]
    exact load_writesReg (sext 16) rd rs1 imm s (memRead_two hin)
  case lhu =>
    rw [← zext_setWidth _ (by decide)]
    exact load_writesReg (zext 16) rd rs1 imm s (memRead_two hin)
  case lw => exact load_writesReg id rd rs1 imm s (memRead_four hin)

/-! ### Stores -/

/-- A store inside memory puts its bytes at its address and changes nothing else but pc. -/
theorem store_storesBytes {n : Nat} (hn : n ≤ 4) {rs2 rs1 : RegIdx} {imm : BitVec 12} {s : State}
    (h : InMemory (effectiveAddr s rs1 imm) n) :
    StoresBytes (store n rs2 rs1 imm s) s (effectiveAddr s rs1 imm) n (s.getReg rs2) := by
  have hwrite := memWrite_of_valid (s := s) (s.getReg rs2) ((validAccess_iff_inMemory _ _).2 h)
  obtain ⟨-, hregs, hframe⟩ := memWrite_frame hwrite
  exact ⟨_, store_of_valid rs2 rs1 imm s ((validAccess_iff_inMemory _ _).2 h), rfl, hregs,
    fun i hi => byteAt_memWrite hwrite hn hi, hframe⟩

/-- Settles O47: each store puts as many bytes as its width. -/
theorem storesWriteLowBytes : Obligations.StoresWriteLowBytes := by
  unfold Obligations.StoresWriteLowBytes
  exact fun rs2 rs1 imm s => ⟨rfl, store_storesBytes (n := 1) (by decide), store_storesBytes (n := 2) (by decide),
    store_storesBytes (n := 4) (by decide)⟩

/-! ### Accesses outside memory (decision D7) -/

section
variable {n : Nat} (h1 : 1 ≤ n) (h4 : n ≤ 4) (rs1 : RegIdx) (imm : BitVec 12) (s : State)
include h1 h4

/-- A load raises MemoryFault exactly when it passes the end of memory. -/
theorem load_fault_iff (ext : Word → Word) (rd : RegIdx) :
    load n ext rd rs1 imm s = .fault (.memoryFault .load (effectiveAddr s rs1 imm) n) ↔
      16777216 < (effectiveAddr s rs1 imm).toNat + n := by
  rw [← Nat.not_le, ← inMemory_iff_le _ h1 h4]
  by_cases hin : InMemory (effectiveAddr s rs1 imm) n
  · rw [load_of_valid _ _ _ _ _ ((validAccess_iff_inMemory _ _).2 hin)]
    exact iff_of_false nofun fun hout => hout hin
  · exact iff_of_true (load_of_invalid _ _ _ _ _ ((validAccess_eq_false_iff _ _).2 hin)) hin

/-- A store raises MemoryFault exactly when it passes the end of memory. -/
theorem store_fault_iff (rs2 : RegIdx) :
    store n rs2 rs1 imm s = .fault (.memoryFault .store (effectiveAddr s rs1 imm) n) ↔
      16777216 < (effectiveAddr s rs1 imm).toNat + n := by
  rw [← Nat.not_le, ← inMemory_iff_le _ h1 h4]
  by_cases hin : InMemory (effectiveAddr s rs1 imm) n
  · rw [store_of_valid _ _ _ _ ((validAccess_iff_inMemory _ _).2 hin)]
    exact iff_of_false nofun fun hout => hout hin
  · exact iff_of_true (store_of_invalid _ _ _ _ ((validAccess_eq_false_iff _ _).2 hin)) hin

end

/-- Settles O48: a load and a store of each width. -/
theorem accessOutsideMemoryFails : Obligations.AccessOutsideMemoryFails := by
  unfold Obligations.AccessOutsideMemoryFails
  intro rd rs1 rs2 imm s
  have hload1 := load_fault_iff (n := 1) (by decide) (by decide) rs1 imm s
  have hload2 := load_fault_iff (n := 2) (by decide) (by decide) rs1 imm s
  have hload4 := load_fault_iff (n := 4) (by decide) (by decide) rs1 imm s
  exact ⟨hload1 (sext 8) rd, hload1 (zext 8) rd, hload2 (sext 16) rd, hload2 (zext 16) rd, hload4 id rd,
    store_fault_iff (n := 1) (by decide) (by decide) rs1 imm s rs2, store_fault_iff (n := 2) (by decide) (by decide) rs1 imm s rs2,
    store_fault_iff (n := 4) (by decide) (by decide) rs1 imm s rs2⟩

/-! ### The words of the loads and stores -/

theorem immS_setWidth (w : Word) : (immS w).setWidth 12 = w.extractLsb' 25 7 ++ w.extractLsb' 7 5 := by
  rw [immS_eq, setWidth_signExtend_self _ (by decide)]

/-- A word of an S row decodes to the row's store, with the immediate put together from its two fields (R91, R103). -/
theorem decode_of_rowS {id : InstrId} {w : Word} {instr : RegIdx → RegIdx → BitVec 12 → Instr}
    (h : w &&& rowMask id = rowMatch id) (hf : formatOf id = .s)
    (hops : operandsOf id w = some (instr (rs2Of w) (rs1Of w) ((immS w).setWidth 12))) :
    decode w = some (instr (w.extractLsb' 20 5) (w.extractLsb' 15 5) (w.extractLsb' 25 7 ++ w.extractLsb' 7 5)) := by
  rw [decode_of_row h (by simp [hf]) hops, rs2Of_eq, rs1Of_eq, immS_setWidth]

/-- Settles O49: the words of each load and store are those of its row. -/
theorem loadAndStoreWordsDecode : Obligations.LoadAndStoreWordsDecode := by
  unfold Obligations.LoadAndStoreWordsDecode
  exact fun w => ⟨fun h => decode_of_rowI (id := .lb) h rfl rfl, fun h => decode_of_rowI (id := .lh) h rfl rfl,
    fun h => decode_of_rowI (id := .lw) h rfl rfl, fun h => decode_of_rowI (id := .lbu) h rfl rfl,
    fun h => decode_of_rowI (id := .lhu) h rfl rfl, fun h => decode_of_rowS (id := .sb) h rfl rfl,
    fun h => decode_of_rowS (id := .sh) h rfl rfl, fun h => decode_of_rowS (id := .sw) h rfl rfl⟩

end Sys2Proof.Machine
end

section
/-! Fences and environment instructions (48_system_fence.md): what each does, and which words they are. -/

namespace Sys2Proof.Machine

/-- A word decodes to an instruction of one word exactly when it is that word (R132, R133). -/
theorem decode_eq_fixed_iff {i : Instr} (hf : formatOf (idOf i) = .fixed) (w : Word) :
    decode w = some i ↔ w = fixedWord (idOf i) := by
  rw [← decodeId_eq_fixed_iff hf]
  constructor
  · intro h
    exact (idOf_of_operandsOf h).symm
  · intro h
    rw [decode, h]
    cases i with
    | fenceTso | pause | ecall | ebreak => rfl
    | _ => cases hf

/-- A word of the FENCE row that is neither FENCE_TSO nor PAUSE decodes to FENCE with its five fields (R108, R133). -/
theorem decode_of_rowFence {w : Word} (h : w &&& rowMask .fence = rowMatch .fence) (htso : w ≠ 0x8330000F#32)
    (hpause : w ≠ 0x0100000F#32) :
    decode w = some (.fence (w.extractLsb' 7 5) (w.extractLsb' 15 5) (w.extractLsb' 20 4) (w.extractLsb' 24 4)
      (w.extractLsb' 28 4)) := by
  rw [decode, decodeId_of_row h (by decide) fun _ => ⟨htso, hpause⟩, operandsOf, rdOf_eq, rs1Of_eq, succOf_eq, predOf_eq,
    fmOf_eq]

/-- Settles O55: each only moves pc on, and the words of the row are FENCE's but for the two fixed ones. -/
theorem fencesOnlyAdvancePc : Obligations.FencesOnlyAdvancePc := by
  unfold Obligations.FencesOnlyAdvancePc
  exact ⟨fun rd rs1 succ pred fm s => ⟨goTo_movesPc s _, goTo_movesPc s _, goTo_movesPc s _⟩,
    fun w => ⟨decode_of_rowFence, decode_eq_fixed_iff rfl w, decode_eq_fixed_iff rfl w⟩⟩

/-- Where the word at pc is an instruction that fails, the cycle ends in its failure and leaves the state (R272, R273). -/
theorem cycle_of_exec_fault {s : State} {w : Word} {i : Instr} {f : Fault} (hin : InMemory s.pc 4) (hw : wordAt s s.pc = w)
    (hi : decode w = some i) (hf : exec i s = .fault f) : cycle s = (s, some (.failure f)) := by
  apply cycle_of_fault
  rw [step_of_inMemory hin, hw, execWord_of_decode hi, hf]

/-- Settles O56: each raises its failure in every state, and each is one word. -/
theorem ecallAndEbreakAlwaysStop : Obligations.EcallAndEbreakAlwaysStop := by
  unfold Obligations.EcallAndEbreakAlwaysStop
  have hecall := decode_eq_fixed_iff (i := .ecall) rfl
  have hebreak := decode_eq_fixed_iff (i := .ebreak) rfl
  exact ⟨fun s => ⟨rfl, rfl, fun hin hw => cycle_of_exec_fault hin hw ((hecall _).2 rfl) rfl,
      fun hin hw => cycle_of_exec_fault hin hw ((hebreak _).2 rfl) rfl⟩,
    fun w => ⟨hecall w, hebreak w⟩⟩

end Sys2Proof.Machine
end

section
/-! Lines that begin with no mnemonic (30_encoding.md rules R145, R150). -/

namespace Sys2Proof.Machine

theorem mnemonicId_eq_none_iff (tok : Text) : mnemonicId tok = none ↔ ∀ id : InstrId, id ≠ .undef → (nameOf id).toList ≠ tok := by
  simp [mnemonicId, mem_allInstrIds]

/-- A line whose first token is no mnemonic fails with that token. -/
theorem assemble_of_unknown {line m : Text} {toks : List Text} (hsplit : splitSpaces line = m :: toks)
    (hm : mnemonicId m = none) : assemble line = .error (.unknownMnemonic m) := by
  simp [assemble, hsplit, hm]

/-- The pseudo-instructions of R150 are one token each, and no mnemonic. -/
theorem pseudo_unknown : ∀ m ∈ ["nop", "li", "mv", "j", "ret", "call"], ' ' ∉ m.toList ∧ mnemonicId m.toList = none := by
  decide

/-- Settles O58: the first token of a line decides, and the pseudo-instructions' names are tokens that no mnemonic is. -/
theorem pseudoInstructionsAreUnknown : Obligations.PseudoInstructionsAreUnknown := by
  unfold Obligations.PseudoInstructionsAreUnknown
  refine ⟨fun line m toks hsplit hm => assemble_of_unknown hsplit ((mnemonicId_eq_none_iff m).2 hm), fun m hmem rest => ?_, rfl⟩
  obtain ⟨hspace, hnone⟩ := pseudo_unknown m hmem
  exact ⟨assemble_of_unknown (splitSpaces_append hspace rest) hnone, assemble_of_unknown (splitSpaces_token hspace) hnone⟩

end Sys2Proof.Machine
end

section
/-! Multiply and divide (47_muldiv.md, decision D10): the halves of an exact product, and quotient and remainder in every case. -/

namespace Sys2Proof.Machine

/-! ### The halves of a product -/

theorem lowWord_mul (a b : Word) : lowWord (a.toInt * b.toInt) = a * b := by
  rw [lowWord, BitVec.ofInt_mul, BitVec.ofInt_toInt, BitVec.ofInt_toInt]

/-- The low word does not see how an operand's pattern is read. -/
theorem lowWord_mul_toNat (a b : Word) : lowWord (a.toInt * b.toNat) = a * b := by
  rw [lowWord, BitVec.ofInt_mul, BitVec.ofInt_toInt, BitVec.ofInt_natCast, BitVec.ofNat_toNat, BitVec.setWidth_eq]

theorem lowWord_toNat_mul_toNat (a b : Word) : lowWord ((a.toNat : Int) * b.toNat) = a * b := by
  rw [lowWord, BitVec.ofInt_mul, BitVec.ofInt_natCast, BitVec.ofInt_natCast, BitVec.ofNat_toNat, BitVec.setWidth_eq,
    BitVec.ofNat_toNat, BitVec.setWidth_eq]

theorem toNat_lowWord (p : Int) : ((lowWord p).toNat : Int) = p % 2 ^ 32 := by
  rw [lowWord, BitVec.toNat_ofInt]
  omega

theorem toNat_highWord (p : Int) : ((highWord p).toNat : Int) = p / 2 ^ 32 % 2 ^ 32 := by
  rw [highWord, BitVec.extractLsb'_toNat, BitVec.toNat_ofInt, Nat.shiftRight_eq_div_pow]
  omega

/-- Bits 63:32 of an integer are the low word of its floor by 2^32. -/
theorem highWord_eq_fdiv (p : Int) : highWord p = BitVec.ofInt 32 (p.fdiv (2 ^ 32)) := by
  apply BitVec.eq_of_toNat_eq
  have hhigh := toNat_highWord p
  rw [BitVec.toNat_ofInt, Int.fdiv_eq_ediv_of_nonneg _ (by decide)]
  omega

/-- An integer of 64 bits is its signed high word and its low word together. -/
theorem highWord_lowWord_signed {p : Int} (hlo : -2 ^ 63 ≤ p) (hhi : p < 2 ^ 63) :
    (highWord p).toInt * 2 ^ 32 + (lowWord p).toNat = p := by
  have hhigh := toNat_highWord p
  rw [BitVec.toInt_eq_toNat_cond, toNat_lowWord]
  split <;> omega

theorem highWord_lowWord_unsigned {p : Int} (hlo : 0 ≤ p) (hhi : p < 2 ^ 64) :
    ((highWord p).toNat : Int) * 2 ^ 32 + (lowWord p).toNat = p := by
  rw [toNat_highWord, toNat_lowWord]
  omega

/-! ### The sizes of the products -/

theorem abs_mul_le_of_abs_le {x y m n : Int} (hx : |x| ≤ m) (hy : |y| ≤ n) : |x * y| ≤ m * n := by
  rw [abs_mul]
  exact mul_le_mul hx hy (abs_nonneg _) ((abs_nonneg _).trans hx)

theorem abs_toInt_le (v : Word) : |v.toInt| ≤ 2 ^ 31 := abs_le.2 ⟨v.le_toInt, v.toInt_lt.le⟩

theorem abs_toNat_le (v : Word) : |(v.toNat : Int)| ≤ 2 ^ 32 - 1 := by
  have hv := v.isLt
  rw [abs_le]
  omega

theorem toInt_mul_toInt_range (a b : Word) : -2 ^ 63 ≤ a.toInt * b.toInt ∧ a.toInt * b.toInt < 2 ^ 63 := by
  have h := abs_le.1 (abs_mul_le_of_abs_le (abs_toInt_le a) (abs_toInt_le b))
  omega

theorem toInt_mul_toNat_range (a b : Word) : -2 ^ 63 ≤ a.toInt * (b.toNat : Int) ∧ a.toInt * (b.toNat : Int) < 2 ^ 63 := by
  have h := abs_le.1 (abs_mul_le_of_abs_le (abs_toInt_le a) (abs_toNat_le b))
  omega

theorem toNat_mul_toNat_range (a b : Word) : 0 ≤ (a.toNat : Int) * b.toNat ∧ (a.toNat : Int) * b.toNat < 2 ^ 64 := by
  have h := abs_le.1 (abs_mul_le_of_abs_le (abs_toNat_le a) (abs_toNat_le b))
  exact ⟨by positivity, by omega⟩

/-! ### The four multiplications -/

section
variable (rd rs1 rs2 : RegIdx) (s : State)

theorem exec_mul_writesReg : WritesReg (exec (.mul rd rs1 rs2) s) s rd (s.getReg rs1 * s.getReg rs2) (s.pc + 4#32) := by
  rw [← lowWord_mul]
  exact aluReg_writesReg (fun a b => lowWord (a.toInt * b.toInt)) rd rs1 rs2 s

theorem exec_mulh_writesReg :
    WritesReg (exec (.mulh rd rs1 rs2) s) s rd (highWord ((s.getReg rs1).toInt * (s.getReg rs2).toInt)) (s.pc + 4#32) :=
  aluReg_writesReg (fun a b => highWord (a.toInt * b.toInt)) rd rs1 rs2 s

theorem exec_mulhsu_writesReg :
    WritesReg (exec (.mulhsu rd rs1 rs2) s) s rd (highWord ((s.getReg rs1).toInt * (s.getReg rs2).toNat)) (s.pc + 4#32) :=
  aluReg_writesReg (fun a b => highWord (a.toInt * (b.toNat : Int))) rd rs1 rs2 s

theorem exec_mulhu_writesReg :
    WritesReg (exec (.mulhu rd rs1 rs2) s) s rd (highWord ((s.getReg rs1).toNat * (s.getReg rs2).toNat)) (s.pc + 4#32) :=
  aluReg_writesReg (fun a b => highWord ((a.toNat : Int) * (b.toNat : Int))) rd rs1 rs2 s

end

theorem highWord_natCast (n : Nat) : highWord n = BitVec.ofNat 32 (n / 2 ^ 32) := by
  apply BitVec.eq_of_toNat_eq
  have hhigh := toNat_highWord n
  rw [BitVec.toNat_ofNat]
  omega

/-- Settles O50: each is a write-back of the low or the high word of its product. -/
theorem multipliesWriteProductHalves : Obligations.MultipliesWriteProductHalves := by
  unfold Obligations.MultipliesWriteProductHalves
  intro rd rs1 rs2 s a b
  have hmulhu := exec_mulhu_writesReg rd rs1 rs2 s
  rw [← Nat.cast_mul, highWord_natCast] at hmulhu
  refine ⟨exec_mul_writesReg rd rs1 rs2 s, ?mulh, ?mulhsu, hmulhu⟩
  case mulh =>
    rw [← highWord_eq_fdiv]
    exact exec_mulh_writesReg rd rs1 rs2 s
  case mulhsu =>
    rw [← highWord_eq_fdiv]
    exact exec_mulhsu_writesReg rd rs1 rs2 s

/-- Settles O51: the product fits in 64 bits in each reading, and MUL's word is its low word in each. -/
theorem highAndLowWordMakeProduct : Obligations.HighAndLowWordMakeProduct := by
  unfold Obligations.HighAndLowWordMakeProduct
  intro rd rs1 rs2 s lo hi hrd hlo
  rw [getReg_of_writesReg (exec_mul_writesReg rd rs1 rs2 s) hlo hrd]
  refine ⟨fun h => ?mulh, fun h => ?mulhsu, fun h => ?mulhu⟩
  case mulh =>
    obtain ⟨hmin, hmax⟩ := toInt_mul_toInt_range (s.getReg rs1) (s.getReg rs2)
    rw [getReg_of_writesReg (exec_mulh_writesReg rd rs1 rs2 s) h hrd, ← lowWord_mul, highWord_lowWord_signed hmin hmax]
  case mulhsu =>
    obtain ⟨hmin, hmax⟩ := toInt_mul_toNat_range (s.getReg rs1) (s.getReg rs2)
    rw [getReg_of_writesReg (exec_mulhsu_writesReg rd rs1 rs2 s) h hrd, ← lowWord_mul_toNat,
      highWord_lowWord_signed hmin hmax]
  case mulhu =>
    obtain ⟨hmin, hmax⟩ := toNat_mul_toNat_range (s.getReg rs1) (s.getReg rs2)
    rw [getReg_of_writesReg (exec_mulhu_writesReg rd rs1 rs2 s) h hrd, ← lowWord_toNat_mul_toNat]
    exact_mod_cast highWord_lowWord_unsigned hmin hmax

/-! ### The words of the multiply and divide rows -/

/-- Settles O54: the words of each instruction are those of its row. -/
theorem mulDivWordsDecode : Obligations.MulDivWordsDecode := by
  unfold Obligations.MulDivWordsDecode
  exact fun w => ⟨fun h => decode_of_rowR (id := .mul) h rfl rfl, fun h => decode_of_rowR (id := .mulh) h rfl rfl,
    fun h => decode_of_rowR (id := .mulhsu) h rfl rfl, fun h => decode_of_rowR (id := .mulhu) h rfl rfl,
    fun h => decode_of_rowR (id := .div) h rfl rfl, fun h => decode_of_rowR (id := .divu) h rfl rfl,
    fun h => decode_of_rowR (id := .rem) h rfl rfl, fun h => decode_of_rowR (id := .remu) h rfl rfl⟩

/-! ### The four divisions -/

section
variable (rd rs1 rs2 : RegIdx) (s : State)

theorem exec_div_writesReg :
    WritesReg (exec (.div rd rs1 rs2) s) s rd (BitVec.ofInt 32 (divSigned (s.getReg rs1).toInt (s.getReg rs2).toInt))
      (s.pc + 4#32) :=
  aluReg_writesReg (fun a b => BitVec.ofInt 32 (divSigned a.toInt b.toInt)) rd rs1 rs2 s

theorem exec_divu_writesReg :
    WritesReg (exec (.divu rd rs1 rs2) s) s rd (BitVec.ofNat 32 (divUnsigned (s.getReg rs1).toNat (s.getReg rs2).toNat))
      (s.pc + 4#32) :=
  aluReg_writesReg (fun a b => BitVec.ofNat 32 (divUnsigned a.toNat b.toNat)) rd rs1 rs2 s

theorem exec_rem_writesReg :
    WritesReg (exec (.rem rd rs1 rs2) s) s rd (BitVec.ofInt 32 (remSigned (s.getReg rs1).toInt (s.getReg rs2).toInt))
      (s.pc + 4#32) :=
  aluReg_writesReg (fun a b => BitVec.ofInt 32 (remSigned a.toInt b.toInt)) rd rs1 rs2 s

theorem exec_remu_writesReg :
    WritesReg (exec (.remu rd rs1 rs2) s) s rd (BitVec.ofNat 32 (remUnsigned (s.getReg rs1).toNat (s.getReg rs2).toNat))
      (s.pc + 4#32) :=
  aluReg_writesReg (fun a b => BitVec.ofNat 32 (remUnsigned a.toNat b.toNat)) rd rs1 rs2 s

end

/-! ### Their results case by case -/

theorem toInt_eq_zero_iff (b : Word) : b.toInt = 0 ↔ b = 0#32 := BitVec.toInt_inj (y := 0#32)

/-- The operands of the signed overflow, as numbers and as patterns. -/
theorem toInt_overflow_iff (a b : Word) :
    a.toInt = -2147483648 ∧ b.toInt = -1 ↔ a = 0x80000000#32 ∧ b = 0xFFFFFFFF#32 :=
  and_congr (BitVec.toInt_inj (y := 0x80000000#32)) (BitVec.toInt_inj (y := 0xFFFFFFFF#32))

theorem toNat_eq_zero_iff (b : Word) : b.toNat = 0 ↔ b = 0#32 := BitVec.toNat_inj (y := 0#32)

section
variable (a b : Word)

theorem ofInt_divSigned :
    BitVec.ofInt 32 (divSigned a.toInt b.toInt) =
      if b = 0#32 then 0xFFFFFFFF#32 else if a = 0x80000000#32 ∧ b = 0xFFFFFFFF#32 then 0x80000000#32
        else BitVec.ofInt 32 (a.toInt.tdiv b.toInt) := by
  simp only [divSigned, toInt_eq_zero_iff, toInt_overflow_iff]
  split_ifs <;> rfl

theorem ofInt_remSigned :
    BitVec.ofInt 32 (remSigned a.toInt b.toInt) =
      if b = 0#32 then a else if a = 0x80000000#32 ∧ b = 0xFFFFFFFF#32 then 0#32
        else BitVec.ofInt 32 (a.toInt.tmod b.toInt) := by
  simp only [remSigned, toInt_eq_zero_iff, toInt_overflow_iff, ← Int.tmod_def]
  split_ifs
  · exact BitVec.ofInt_toInt
  · rfl
  · rfl

theorem ofNat_divUnsigned :
    BitVec.ofNat 32 (divUnsigned a.toNat b.toNat) =
      if b = 0#32 then 0xFFFFFFFF#32 else BitVec.ofNat 32 (a.toNat / b.toNat) := by
  simp only [divUnsigned, toNat_eq_zero_iff]
  split_ifs <;> rfl

theorem ofNat_remUnsigned :
    BitVec.ofNat 32 (remUnsigned a.toNat b.toNat) = if b = 0#32 then a else BitVec.ofNat 32 (a.toNat % b.toNat) := by
  simp only [remUnsigned, toNat_eq_zero_iff]
  split_ifs
  · rw [BitVec.ofNat_toNat, BitVec.setWidth_eq]
  · rfl

end

/-- Settles O52: each is a write-back of its result, whose cases are those of the operands' patterns. -/
theorem dividesWriteQuotientOrRemainder : Obligations.DividesWriteQuotientOrRemainder := by
  unfold Obligations.DividesWriteQuotientOrRemainder
  intro rd rs1 rs2 s a b
  rw [← ofInt_divSigned a b, ← ofNat_divUnsigned a b, ← ofInt_remSigned a b, ← ofNat_remUnsigned a b]
  exact ⟨exec_div_writesReg rd rs1 rs2 s, exec_divu_writesReg rd rs1 rs2 s, exec_rem_writesReg rd rs1 rs2 s,
    exec_remu_writesReg rd rs1 rs2 s⟩

/-! ### Quotient and remainder together -/

/-- The divisor times the quotient and the remainder make the dividend: exactly but for the overflow, and there modulo 2^32. -/
theorem ofInt_divSigned_remSigned (a b : Int) : BitVec.ofInt 32 (b * divSigned a b + remSigned a b) = BitVec.ofInt 32 a := by
  unfold divSigned remSigned
  split_ifs with hzero hover
  · rw [hzero, zero_mul, zero_add]
  · obtain ⟨rfl, rfl⟩ := hover
    decide
  · rw [add_sub_cancel]

/-- A remainder is smaller in size than a divisor that is not 0. -/
theorem natAbs_remSigned_lt {a b : Int} (hb : b ≠ 0) : (remSigned a b).natAbs < b.natAbs := by
  have hpos : 0 < b.natAbs := Int.natAbs_pos.2 hb
  rw [remSigned, if_neg hb]
  split
  · exact hpos
  · rw [← Int.tmod_def, Int.natAbs_tmod]
    exact Nat.mod_lt _ hpos

/-- A remainder that is not 0 has the dividend's sign. -/
theorem remSigned_neg_iff {a b : Int} (h : remSigned a b ≠ 0) : remSigned a b < 0 ↔ a < 0 := by
  unfold remSigned at h ⊢
  split_ifs at h ⊢
  · exact Iff.rfl
  · exact absurd rfl h
  · rw [← Int.tmod_def] at h ⊢
    have hsign : (a.tmod b).sign = a.sign := by
      rw [Int.sign_tmod, if_neg fun hdvd => h (Int.tmod_eq_zero_of_dvd hdvd)]
    rw [← Int.sign_eq_neg_one_iff_neg, hsign, Int.sign_eq_neg_one_iff_neg]

/-- A remainder of words is a number of 32 bits. -/
theorem toInt_ofInt_remSigned (a b : Word) :
    (BitVec.ofInt 32 (remSigned a.toInt b.toInt)).toInt = remSigned a.toInt b.toInt := by
  by_cases hb : b.toInt = 0
  · rw [remSigned, if_pos hb, BitVec.ofInt_toInt]
  · have hlt := natAbs_remSigned_lt (a := a.toInt) hb
    have hlo := b.le_toInt
    have hhi := b.toInt_lt
    exact BitVec.toInt_ofInt_eq_self (by decide) (by omega) (by omega)

/-- The equation of the signed results as words; narrowing keeps sums and products. -/
theorem signed_division_equation (a b : Word) :
    a = b * BitVec.ofInt 32 (divSigned a.toInt b.toInt) + BitVec.ofInt 32 (remSigned a.toInt b.toInt) :=
  calc a = BitVec.ofInt 32 a.toInt := BitVec.ofInt_toInt.symm
    _ = BitVec.ofInt 32 (b.toInt * divSigned a.toInt b.toInt + remSigned a.toInt b.toInt) :=
      (ofInt_divSigned_remSigned a.toInt b.toInt).symm
    _ = b * BitVec.ofInt 32 (divSigned a.toInt b.toInt) + BitVec.ofInt 32 (remSigned a.toInt b.toInt) := by
      rw [BitVec.ofInt_add, BitVec.ofInt_mul, BitVec.ofInt_toInt]

/-- The remainder's word has the dividend's sign bit, unless it is 0. -/
theorem msb_ofInt_remSigned {a b : Word} (h : BitVec.ofInt 32 (remSigned a.toInt b.toInt) ≠ 0#32) :
    (BitVec.ofInt 32 (remSigned a.toInt b.toInt)).msb = a.msb := by
  have hne : remSigned a.toInt b.toInt ≠ 0 := by
    intro hzero
    rw [hzero] at h
    exact h rfl
  rw [BitVec.msb_eq_toInt, BitVec.msb_eq_toInt, toInt_ofInt_remSigned, decide_eq_decide, remSigned_neg_iff hne]

/-- The unsigned results fit together exactly, also for the divisor 0. -/
theorem divUnsigned_remUnsigned (a b : Nat) : b * divUnsigned a b + remUnsigned a b = a := by
  unfold divUnsigned remUnsigned
  split_ifs with hzero
  · rw [hzero, Nat.zero_mul, Nat.zero_add]
  · exact Nat.div_add_mod a b

theorem remUnsigned_lt {a b : Nat} (hb : b ≠ 0) : remUnsigned a b < b := by
  rw [remUnsigned, if_neg hb]
  exact Nat.mod_lt a (Nat.pos_of_ne_zero hb)

theorem toNat_ofNat_divUnsigned (a b : Word) :
    (BitVec.ofNat 32 (divUnsigned a.toNat b.toNat)).toNat = divUnsigned a.toNat b.toNat := by
  have hle := Nat.div_le_self a.toNat b.toNat
  have ha := a.isLt
  rw [BitVec.toNat_ofNat, Nat.mod_eq_of_lt]
  unfold divUnsigned
  split_ifs <;> omega

theorem toNat_ofNat_remUnsigned (a b : Word) :
    (BitVec.ofNat 32 (remUnsigned a.toNat b.toNat)).toNat = remUnsigned a.toNat b.toNat := by
  have hle := Nat.mod_le a.toNat b.toNat
  have ha := a.isLt
  rw [BitVec.toNat_ofNat, Nat.mod_eq_of_lt]
  unfold remUnsigned
  split_ifs <;> omega

/-- The equation of the unsigned results as words. -/
theorem unsigned_division_equation (a b : Word) :
    a = b * BitVec.ofNat 32 (divUnsigned a.toNat b.toNat) + BitVec.ofNat 32 (remUnsigned a.toNat b.toNat) :=
  calc a = BitVec.ofNat 32 (b.toNat * divUnsigned a.toNat b.toNat + remUnsigned a.toNat b.toNat) := by
        rw [divUnsigned_remUnsigned, BitVec.ofNat_toNat, BitVec.setWidth_eq]
    _ = b * BitVec.ofNat 32 (divUnsigned a.toNat b.toNat) + BitVec.ofNat 32 (remUnsigned a.toNat b.toNat) := by
      rw [BitVec.ofNat_add, BitVec.ofNat_mul, BitVec.ofNat_toNat, BitVec.setWidth_eq]

/-- Settles O53: the equation of the results before they are narrowed, and the size and sign of the remainder. -/
theorem quotientTimesDivisorPlusRemainder : Obligations.QuotientTimesDivisorPlusRemainder := by
  unfold Obligations.QuotientTimesDivisorPlusRemainder
  intro rd rs1 rs2 s q r hrd
  refine ⟨fun hq hr => ?signed, fun hq hr => ?unsigned⟩
  case signed =>
    rw [getReg_of_writesReg (exec_div_writesReg rd rs1 rs2 s) hq hrd,
      getReg_of_writesReg (exec_rem_writesReg rd rs1 rs2 s) hr hrd, toInt_ofInt_remSigned]
    exact ⟨signed_division_equation _ _, fun hb => natAbs_remSigned_lt fun hzero => hb ((toInt_eq_zero_iff _).1 hzero),
      msb_ofInt_remSigned⟩
  case unsigned =>
    rw [getReg_of_writesReg (exec_divu_writesReg rd rs1 rs2 s) hq hrd,
      getReg_of_writesReg (exec_remu_writesReg rd rs1 rs2 s) hr hrd, toNat_ofNat_divUnsigned, toNat_ofNat_remUnsigned]
    exact ⟨unsigned_division_equation _ _, fun hb => ⟨remUnsigned_lt fun hzero => hb ((toNat_eq_zero_iff _).1 hzero),
      (divUnsigned_remUnsigned _ _).symm⟩⟩

end Sys2Proof.Machine
end
